-- ==== Sys2Proof/Config.lean ====
section
/-! DEFINITION. What an implementation of MISA-O fixes: the parameters of R6, each with the values R6
allows, and the two free values of the model. The default of each parameter is in
`Sys2Proof/Machine/Defaults.lean`. -/

namespace Sys2Proof

/-- `NIBBLE_FIRST` (R6, R111): which nibble of a byte is fetched first. -/
inductive NibbleFirst where
  | low
  | high
  deriving DecidableEq, Repr

/-- `IMM_NIBBLE_ORDER` (R6, R116): the order of the nibbles of an immediate. -/
inductive ImmOrder where
  | lsFirst
  | msFirst
  deriving DecidableEq, Repr

/-- `PCNEXT_MIDBYTE` (R6, R24): the value of `PC_next` in the middle of a byte. -/
inductive PcNextMidByte where
  | roundUp
  | fault
  deriving DecidableEq, Repr

/-- `INT_MIDBYTE` (R6, R306): a takeable interrupt at a boundary in the middle of a byte. -/
inductive IntMidByte where
  | defer
  | roundUp
  | fault
  deriving DecidableEq, Repr

/-- `WFI_WAKE` (R6, R264): what ends the `WFI` sleep. -/
inductive WfiWake where
  | taken
  | pendingEnabled
  deriving DecidableEq, Repr

/-- `MAD_SUM` (R6, R272): the width of the `MAD` sum before the shift. -/
inductive MadSum where
  | exact
  | wrap16First
  deriving DecidableEq, Repr

/-- `ROT_DIR` (R6, R203): the direction of `RACC` and `RRS`. -/
inductive RotDir where
  | right
  | left
  deriving DecidableEq, Repr

/-- `TIMER_TICK` (R6, R320): what increments `TIMER`. -/
inductive TimerTick where
  | instruction
  | cycle
  deriving DecidableEq, Repr

/-- What backs a byte address (R81, `MEMORY_MAP`). -/
inductive Backing where
  | ram
  | rom
  | nothing
  deriving DecidableEq, Repr

/-- One region of the platform's `MEMORY_MAP` (R6, R81): `size` addresses from `base` on. -/
structure Region where
  base : Nat
  size : Nat
  kind : Backing
  deriving DecidableEq, Repr

/-- The parameters of R6. `PROFILE_MMU`, `CPUID_VERSION` and `RSV_IS_FAULT` have one legal value each
and are no fields. `memoryMap` lists the regions that are not plain RAM; what no region holds is RAM. -/
structure Params where
  hasCsr          : Bool
  baseline        : Bool
  time            : Bool
  int             : Bool
  debug           : Bool
  mad             : Bool
  cpuidVendor     : BitVec 4
  cpuidImpl       : BitVec 4
  timerTick       : TimerTick
  nibbleFirst     : NibbleFirst
  immOrder        : ImmOrder
  pcNextMidByte   : PcNextMidByte
  intMidByte      : IntMidByte
  wfiWake         : WfiWake
  madSum          : MadSum
  rotDir          : RotDir
  cmpTakesImm     : Bool
  tstWritesC      : Bool
  resetPc         : BitVec 16
  fetchSeesStores : Bool
  memoryMap       : List Region
  deriving DecidableEq, Repr

/-- The dependencies between profiles that R6 derives. -/
def Params.legal (p : Params) : Bool :=
  (!p.int || p.baseline) && (!p.time || p.baseline) && (!p.debug || (p.baseline && p.int)) &&
  (!p.baseline || p.hasCsr)

/-- The link modes of `CFG.W` (R9, R40). -/
inductive LinkMode where
  | ul
  | lk8
  | lk16
  | spe
  deriving DecidableEq, Repr

/-- What the environment does at one boundary (R71, R320): whether it raises the external interrupt,
and how many clock cycles beyond the first the step takes under `TIMER_TICK = cycle`. -/
structure EnvInput where
  ext        : Bool
  extraTicks : Nat
  deriving DecidableEq, Repr

/-- FREE VALUE (assumption 7). The number of extra `Tick()` calls the environment chooses under
`TIMER_TICK = cycle` (R320: the source gives no cycle counts) where the state's list of
environment inputs has run out. Nothing constrains it. -/
opaque Config.freeTicks : Nat → Nat

/-- FREE VALUE (assumption 3). Whether the environment raises the external interrupt (R71; U18: any value)
at a boundary for which the state's list of environment inputs has run out. Nothing constrains it. -/
opaque Config.freeExt : Nat → Bool

end Sys2Proof
end

