-- ==== Sys2Proof/Word.lean ====
section
/-! DEFINITION. The three bit-vector types of MISA-O (R5, R8): the 16-bit word of the registers and
addresses, the 8-bit byte of memory, the 4-bit nibble of the instruction stream. -/

namespace Sys2Proof

/-- A 16-bit register, address or CSR (R5). -/
abbrev Word := BitVec 16

/-- One byte of memory, `CFG`, `IA` or `IAR` (R5, R80). -/
abbrev Byte := BitVec 8

/-- One nibble of the instruction stream (R110). -/
abbrev Nibble := BitVec 4

end Sys2Proof
end

