-- ==== Sys2Proof/Machine/Fields.lean ====
section
/-! DEFINITION. The bit fields and the width arithmetic of the spec: the fields of `CFG` (R40), the
bits of `EVTCTRL` (R62), active widths (R9), signed readings (R10), bytes of words (R84). -/

namespace Sys2Proof.Machine

/-- Replace bit `i` of `v` by `b`. -/
def withBit {n : Nat} (v : BitVec n) (i : Nat) (b : Bool) : BitVec n :=
  if b then v ||| (1#n <<< i) else v &&& ~~~(1#n <<< i)

/-- Bits 7:0 of a word. -/
def loByte (w : Word) : Byte := w.extractLsb' 0 8

/-- Bits 15:8 of a word. -/
def hiByte (w : Word) : Byte := w.extractLsb' 8 8

/-- `{hi, lo}` (R8, R84). -/
def mkWord (hi lo : Byte) : Word := hi ++ lo

/-- The 16-bit word whose bits 7:0 are `b` and whose bits 15:8 are 0 (R10). -/
def zextByte (b : Byte) : Word := b.setWidth 16

/-- The address `page << 8` (R50). -/
def pageBase (page : Byte) : Word := mkWord page 0#8

/-! ### `CFG` (R40) -/

/-- `CFG.CI`: carry-in enable (R41). -/
def cfgCI (cfg : Byte) : Bool := cfg.getLsbD 7
/-- `CFG.BW`: branch immediate width (R42). -/
def cfgBW (cfg : Byte) : Bool := cfg.getLsbD 6
/-- `CFG.BRS`: branch relative scale (R43). -/
def cfgBRS (cfg : Byte) : Bool := cfg.getLsbD 5
/-- `CFG.IE`: the global interrupt enable (R44). -/
def cfgIE (cfg : Byte) : Bool := cfg.getLsbD 4
/-- `CFG.IMM`: embedded immediates (R45). -/
def cfgIMM (cfg : Byte) : Bool := cfg.getLsbD 3
/-- `CFG.SIGN`: signed mode of the MAD Profile (R46). -/
def cfgSIGN (cfg : Byte) : Bool := cfg.getLsbD 2

/-- `CFG.IE <- b`, the other seven bits kept (R310). -/
def cfgSetIE (cfg : Byte) (b : Bool) : Byte := withBit cfg 4 b

/-- The link mode that `CFG.W` names (R9, R40). -/
def linkMode (cfg : Byte) : LinkMode :=
  match (cfg.extractLsb' 0 2).toNat with
  | 0 => .ul
  | 1 => .lk8
  | 2 => .lk16
  | _ => .spe

/-- `Wd`, the active width in bits (R9). -/
def modeBits : LinkMode → Nat
  | .ul => 4
  | .lk8 => 8
  | .lk16 => 16
  | .spe => 16

/-- `Wn = Wd / 4`, the active width in nibbles (R9). -/
def modeNibbles : LinkMode → Nat
  | .ul => 1
  | .lk8 => 2
  | .lk16 => 4
  | .spe => 4

/-- The modes of 16 bits, LK16 and SPE, in which opcode `0110` reaches the CSR bank (R122). -/
def modeIsWide : LinkMode → Bool
  | .ul => false
  | .lk8 => false
  | .lk16 => true
  | .spe => true

/-! ### `EVTCTRL` (R62) -/

/-- Bit 0, software interrupt enable. -/
def evtSwIe : Nat := 0
/-- Bit 1, external interrupt enable. -/
def evtExtIe : Nat := 1
/-- Bit 2, timer interrupt enable. -/
def evtTIe : Nat := 2
/-- Bit 7, watchdog mode. -/
def evtWdog : Nat := 7
/-- Bit 8, the core is inside an ISR. -/
def evtInIsr : Nat := 8
/-- Bit 9, external interrupt pending. -/
def evtExtP : Nat := 9
/-- Bit 10, timer match pending. -/
def evtTP : Nat := 10
/-- Bit 11, software interrupt pending. -/
def evtSwP : Nat := 11
/-- Bit 12, single-step arm. -/
def evtDbgStep : Nat := 12

/-- The word with bit `i` set when `b` holds, else 0. -/
def bitWhen (b : Bool) (i : Nat) : Word := if b then 1#16 <<< i else 0#16

/-- The bits of `EVTCTRL` that are present, by the *present when* column of R62; all others read 0 and
ignore writes. -/
def evtMask (p : Params) : Word :=
  if p.baseline then
    bitWhen p.int evtSwIe ||| bitWhen p.int evtExtIe ||| bitWhen (p.int && p.time) evtTIe |||
    bitWhen p.time evtWdog ||| bitWhen p.int evtInIsr ||| bitWhen p.int evtExtP |||
    bitWhen p.time evtTP ||| bitWhen p.int evtSwP ||| bitWhen p.debug evtDbgStep
  else 0#16

/-! ### Active widths and signed readings (R9, R10) -/

/-- `mask_W = 2^w - 1` (R9). -/
def widthMask (w : Nat) : Word := BitVec.ofNat 16 (2 ^ w - 1)

/-- The low `w` bits of a word, `v[w-1:0]`, zero-extended to 16 bits. -/
def lowBits (w : Nat) (v : Word) : Word := v &&& widthMask w

/-- Replace the low `w` bits of `old` by those of `r`: bits 15:w keep their value (R21). -/
def setLowBits (w : Nat) (old r : Word) : Word := (old &&& ~~~(widthMask w)) ||| (r &&& widthMask w)

/-- `sint_w(v)` for a value below `2^w` held in a word (R10). -/
def signedValue (w : Nat) (v : Word) : Int :=
  if v.getLsbD (w - 1) then (v.toNat : Int) - 2 ^ w else (v.toNat : Int)

/-- Rotate a 16-bit register right by `w` bits: `{v[w-1:0], v[15:w]}` (R203). -/
def rotRight (w : Nat) (v : Word) : Word := (v >>> w) ||| (v <<< (16 - w))

/-- Rotate a 16-bit register left by `w` bits: `{v[15-w:0], v[15:16-w]}` (R203). -/
def rotLeft (w : Nat) (v : Word) : Word := (v <<< w) ||| (v >>> (16 - w))

/-- The `FLAGS` byte `{0,0,0,0,V,N,Z,C}` (R34). -/
def flagsByte (c z n v : Bool) : Byte :=
  (0#4 ++ BitVec.ofBool v ++ BitVec.ofBool n ++ BitVec.ofBool z ++ BitVec.ofBool c : BitVec 8)

/-- The constant of CSR0 (R57): `{VERSION, MAD, DEBUG, INT, MMU, VENDOR, IMPL}`, `VERSION` and `MMU` 0. -/
def cpuid (p : Params) : Word :=
  (0#4 ++ BitVec.ofBool p.mad ++ BitVec.ofBool p.debug ++ BitVec.ofBool p.int ++ 0#1 ++
    p.cpuidVendor ++ p.cpuidImpl : BitVec 16)

/-- What backs address `a` (R81): the first region that holds it, RAM where none does. -/
def backingAt : List Region → Nat → Backing
  | [], _ => .ram
  | r :: rest, a => if r.base ≤ a ∧ a < r.base + r.size then r.kind else backingAt rest a

end Sys2Proof.Machine
end

