-- ==== Sys2Proof/Machine/Defaults.lean ====
section
/-! DEFINITION. The default value of every parameter (R6) and the value of every register after reset
(R75, R350): the spec's where it gives one, the model's DESIGN CHOICE where it says `unspecified`. -/

namespace Sys2Proof.Machine

/-- The default of each parameter in the table of R6 (D40: Baseline, Time and Interrupt present). -/
def defaultParams : Params where
  hasCsr := true
  baseline := true
  time := true
  int := true
  debug := false
  mad := false
  cpuidVendor := 0
  cpuidImpl := 0
  timerTick := .instruction
  nibbleFirst := .low
  immOrder := .lsFirst
  pcNextMidByte := .roundUp
  intMidByte := .defer
  wfiWake := .taken
  madSum := .exact
  rotDir := .right
  cmpTakesImm := false
  tstWritesC := true
  resetPc := 0x0000
  fetchSeesStores := false
  memoryMap := []

/-- `CFG` after reset (R75). -/
def resetCfg : Byte := 0x00

/-- `EVTCTRL` after reset (R75). -/
def resetEvtctrl : Word := 0x0000

/-- DESIGN CHOICE (assumption 1): the 16-bit registers that R75 leaves unspecified hold 0 after reset:
`ACC`, `RS0`, `RS1`, `RA0`, `RA1`, `GPR1`, `GPR2`, `GPR3`, `TIMER`, `TIMERCMP`. -/
def resetUnspecifiedWord : Word := 0x0000

/-- DESIGN CHOICE (assumption 1): `IA` and `IAR`, unspecified in R75, hold 0 after reset. -/
def resetUnspecifiedByte : Byte := 0x00

/-- DESIGN CHOICE (assumption 1): the flags, unspecified in R75, are 0 after reset. -/
def resetUnspecifiedFlag : Bool := false

/-- DESIGN CHOICE (assumption 2): what a byte of memory reads as that the launch contents do not list
and nothing has written (R75 leaves the contents of memory to the platform). -/
def unlistedByte : Byte := 0x00

end Sys2Proof.Machine
end

