-- ==== Sys2Proof/Machine/State.lean ====
section
/-! DEFINITION. The state of the machine (R20) as plain data, the reasons it stops for, and its reset
value (R75, R350). -/

namespace Sys2Proof.Machine

/-- Memory: the bytes that differ from what an unlisted address reads as, addresses strictly rising. -/
abbrev Memory := List Host.Cell

/-- The state of the machine (R20). `params`, `modified`, `env` and `freeCount` are the MODEL's own
fields: the implementation's parameters (R6), the addresses stored to since reset (R98), the inputs
the environment will give (R71), and the index of the next free value. -/
structure State where
  /-- The implementation's parameters (R6); no step changes them. -/
  params    : Params
  /-- `PC`, a byte address (R24). -/
  pc        : Word
  /-- `NIB`: the next nibble is the second of the byte at `PC` (R26). -/
  nib       : Bool
  /-- `XOPP`: an `XOP` prefix is pending (R27). -/
  xopp      : Bool
  /-- `SLEEP`: the core waits for an interrupt (R28). -/
  sleep     : Bool
  /-- `ACC`, the four accumulators `r3 r2 r1 r0` (R21). -/
  acc       : Word
  /-- `RS0` (R22). -/
  rs0       : Word
  /-- `RS1` (R22). -/
  rs1       : Word
  /-- `RA0`, the active address (R23). -/
  ra0       : Word
  /-- `RA1`, the return address (R23). -/
  ra1       : Word
  /-- The carry flag `C` (R30). -/
  c         : Bool
  /-- The zero flag `Z` (R30). -/
  z         : Bool
  /-- The negative flag `N` (R30). -/
  n         : Bool
  /-- The overflow flag `V` (R30). -/
  v         : Bool
  /-- `CFG` (R40). -/
  cfg       : Byte
  /-- `IA`, the interrupt page (R50). -/
  ia        : Byte
  /-- `IAR`, the page `RETI` restores from (R51). -/
  iar       : Byte
  /-- `GPR1`, CSR2 (R59). -/
  gpr1      : Word
  /-- `GPR2`, CSR3 (R59). -/
  gpr2      : Word
  /-- `GPR3`, CSR4 (R59). -/
  gpr3      : Word
  /-- `TIMER`, CSR5 (R60). -/
  timer     : Word
  /-- `TIMERCMP`, CSR6 (R61). -/
  timercmp  : Word
  /-- `EVTCTRL`, CSR7 (R62). -/
  evtctrl   : Word
  /-- `M`, 65,536 bytes (R70, R80). -/
  mem       : Memory
  /-- The addresses that a store or an interrupt entry has written since reset, rising (R98). -/
  modified  : List Nat
  /-- What the environment does at the boundaries to come (R71, assumption 3). -/
  env       : List EnvInput
  /-- The index of the next free value (assumption 7). -/
  freeCount : Nat
  deriving DecidableEq, Repr

/-- The model-faults of R14: verdicts of the model, not events of the hardware. All are safe: the
model stops and claims nothing of a run that reaches one. -/
inductive Fault where
  /-- `ReservedEncoding` (R131), raised by `execRsv`: address, nibble phase and opcode of the reserved
  extended encoding, to which the spec gives no effect and no length. Safe. -/
  | reservedEncoding (pc : Word) (nib : Bool) (opcode : Nibble)
  /-- `MidBytePCNext` (R24, R306), raised where `PC_next` is used in the middle of a byte while a
  parameter says `fault`. Safe. -/
  | midBytePcNext (pc : Word)
  /-- `NoCsrInstructions` (R240), raised by `execCsrAbsent`: opcode `0110` in LK16 or SPE on a core
  without the CSR instructions. Safe. -/
  | noCsrInstructions (pc : Word) (nib : Bool)
  /-- `FetchOfModifiedByte` (R98), raised by the fetch of a nibble from a byte stored to since reset
  while `FETCH_SEES_STORES` is false. Safe. -/
  | fetchOfModifiedByte (addr : Word)
  deriving DecidableEq, Repr

/-- The reasons the model gives no meaning. All are safe: nothing is claimed beyond them. -/
inductive Refusal where
  /-- Raised by `exec` for an instruction that has no meaning yet; no arm of `exec` answers it. Safe. -/
  | notModelled (mnemonic : String)
  /-- An access to an address that `MEMORY_MAP` backs with nothing (R83, U12): outside the spec. Safe. -/
  | unbackedAddress (addr : Word)
  /-- A store to an address that `MEMORY_MAP` backs with ROM (R83): outside the spec. Safe. -/
  | storeToRom (addr : Word)
  /-- The fetched nibbles end before their instruction does. Raised by no state: the fetch reads as
  many nibbles as R114 gives the instruction. Safe. -/
  | streamEnds
  deriving DecidableEq, Repr

/-- Why something that may stop has stopped. -/
inductive Stop where
  | fault (f : Fault)
  | refusal (r : Refusal)
  deriving DecidableEq, Repr

/-- What an instruction or a step answers. -/
abbrev Result := Host.Outcome State Fault Refusal

/-- The state after a reset (R350) of a core with parameters `p`, with memory `m`, the environment's
inputs `env` and the free-value index `k` kept: the values of R75, and those of assumption 1 for the
registers R75 leaves unspecified. -/
def State.afterReset (p : Params) (m : Memory) (env : List EnvInput) (k : Nat) : State where
  params := p
  pc := p.resetPc
  nib := false
  xopp := false
  sleep := false
  acc := resetUnspecifiedWord
  rs0 := resetUnspecifiedWord
  rs1 := resetUnspecifiedWord
  ra0 := resetUnspecifiedWord
  ra1 := resetUnspecifiedWord
  c := resetUnspecifiedFlag
  z := resetUnspecifiedFlag
  n := resetUnspecifiedFlag
  v := resetUnspecifiedFlag
  cfg := resetCfg
  ia := resetUnspecifiedByte
  iar := resetUnspecifiedByte
  gpr1 := resetUnspecifiedWord
  gpr2 := resetUnspecifiedWord
  gpr3 := resetUnspecifiedWord
  timer := resetUnspecifiedWord
  timercmp := resetUnspecifiedWord
  evtctrl := resetEvtctrl
  mem := m
  modified := []
  env := env
  freeCount := k

/-- The machine right after power-on with the default parameters, no byte of memory listed and no
environment input listed (R75, R350). -/
def State.reset : State := State.afterReset defaultParams [] [] 0

end Sys2Proof.Machine
end

