-- ==== Sys2Proof/Machine/Flags.lean ====
section
/-! DEFINITION. Every flag computation of the spec: `AddW` (R12), `SubW` (R13), `SetZN` (R33), the `FLAGS`
byte (R34). -/

namespace Sys2Proof.Machine

/-- What `AddW` and `SubW` return: the result, the carry or borrow, the signed overflow. -/
structure AluResult where
  r : Word
  c : Bool
  v : Bool
  deriving DecidableEq, Repr

/-- The integer `x` does not fit `w` bits of two's complement (R12, R13). -/
def signedOverflow (w : Nat) (x : Int) : Bool := decide (x < -2 ^ (w - 1)) || decide (2 ^ (w - 1) - 1 < x)

/-- `AddW(a, b, cin)` for `w`-bit `a`, `b` (R12). -/
def addW (w : Nat) (a b : Word) (cin : Bool) : AluResult where
  r := BitVec.ofNat 16 ((a.toNat + b.toNat + cin.toNat) % 2 ^ w)
  c := decide (2 ^ w ≤ a.toNat + b.toNat + cin.toNat)
  v := signedOverflow w (signedValue w a + signedValue w b + cin.toNat)

/-- `SubW(a, b, bin)` for `w`-bit `a`, `b` (R13): `c` is the borrow. -/
def subW (w : Nat) (a b : Word) (bin : Bool) : AluResult where
  r := BitVec.ofInt 16 (((a.toNat : Int) - b.toNat - bin.toNat) % 2 ^ w)
  c := decide ((a.toNat : Int) - b.toNat - bin.toNat < 0)
  v := signedOverflow w (signedValue w a - signedValue w b - bin.toNat)

/-- `Z` of a `w`-bit result (R33). -/
def zeroOf (r : Word) : Bool := r == 0

/-- `N` of a `w`-bit result: its bit `w - 1` (R33). -/
def negOf (w : Nat) (r : Word) : Bool := r.getLsbD (w - 1)

/-- `SetZN(r)` for a `w`-bit result held in a word (R33). -/
def setZN (w : Nat) (r : Word) (s : State) : State := { s with z := zeroOf r, n := negOf w r }

/-- `C <- c; V <- v; SetZN(r)` (R150). -/
def setCVZN (w : Nat) (res : AluResult) (s : State) : State :=
  setZN w res.r { s with c := res.c, v := res.v }

/-- The `FLAGS` byte of the state (R34). -/
def State.flags (s : State) : Byte := flagsByte s.c s.z s.n s.v

/-- Load the four flags from a `FLAGS` byte; bits 7:4 are ignored (R34). -/
def setFlags (b : Byte) (s : State) : State :=
  { s with c := b.getLsbD 0, z := b.getLsbD 1, n := b.getLsbD 2, v := b.getLsbD 3 }

end Sys2Proof.Machine
end

