-- ==== Sys2Proof/Machine/Memory.lean ====
section
/-! DEFINITION. Memory in its one canonical form, the byte accesses of R82 and R83, the platform's
`MEMORY_MAP`, and the record of the bytes stored to since reset (R98). -/

namespace Sys2Proof.Machine

/-- Addresses strictly rising from `lo` on and below 2^16, no byte equal to what an unlisted address
reads as. -/
def memWfFrom (lo : Nat) : Memory → Bool
  | [] => true
  | cell :: rest =>
    decide (lo ≤ cell.1) && decide (cell.1 < 65536) && decide (cell.2 ≠ unlistedByte) &&
      memWfFrom (cell.1 + 1) rest

/-- The canonical form of memory. -/
def Memory.wf (m : Memory) : Bool := memWfFrom 0 m

/-- The byte at an address. -/
def memLookup : Memory → Nat → Byte
  | [], _ => unlistedByte
  | cell :: rest, a => if cell.1 = a then cell.2 else memLookup rest a

/-- The cell that lists `b` at `a`: none where an unlisted address reads as `b`. -/
def memCell (a : Nat) (b : Byte) : Memory := if b = unlistedByte then [] else [(a, b)]

/-- Write a byte, keeping the canonical form. -/
def memInsert : Memory → Nat → Byte → Memory
  | [], a, b => memCell a b
  | cell :: rest, a, b =>
    if a < cell.1 then memCell a b ++ cell :: rest
    else if a = cell.1 then memCell a b ++ rest
    else cell :: memInsert rest a b

/-- `MemRead(addr, 1)` (R82). -/
def readByte (s : State) (a : Word) : Byte := memLookup s.mem a.toNat

/-- `MemRead(addr, 2)`, little-endian, `addr + 1` modulo 2^16 (R11, R84). -/
def readWord (s : State) (a : Word) : Word := mkWord (readByte s (a + 1)) (readByte s a)

/-- Add an address to a rising list of addresses. -/
def markAddress : List Nat → Nat → List Nat
  | [], a => [a]
  | k :: rest, a =>
    if a < k then a :: k :: rest
    else if a = k then k :: rest
    else k :: markAddress rest a

/-- The addresses of a list are strictly rising from `lo` on and below 2^16. -/
def risingFrom (lo : Nat) : List Nat → Bool
  | [] => true
  | a :: rest => decide (lo ≤ a) && decide (a < 65536) && risingFrom (a + 1) rest

/-- `MemWrite(addr, 1, v)` (R83): the byte is written and its address counts as stored to (R98). -/
def storeByte (s : State) (a : Word) (b : Byte) : State :=
  { s with mem := memInsert s.mem a.toNat b, modified := markAddress s.modified a.toNat }

/-- `MemWrite(addr, 2, v)` (R11, R84): the low byte first, `addr + 1` modulo 2^16. -/
def storeWord (s : State) (a : Word) (w : Word) : State :=
  storeByte (storeByte s a (loByte w)) (a + 1) (hiByte w)

/-- Store the bytes of a list at `a`, `a + 1`, ... in ascending order (R100). -/
def storeBytes (s : State) (a : Word) : List Byte → State
  | [] => s
  | b :: rest => storeBytes (storeByte s a b) (a + 1) rest

/-- Why a read of the address is refused: nothing backs it (R83, U12). -/
def readRefusal (s : State) (a : Word) : Option Refusal :=
  match backingAt s.params.memoryMap a.toNat with
  | .ram => none
  | .rom => none
  | .nothing => some (.unbackedAddress a)

/-- Why a store to the address is refused: ROM or nothing backs it (R83). -/
def storeRefusal (s : State) (a : Word) : Option Refusal :=
  match backingAt s.params.memoryMap a.toNat with
  | .ram => none
  | .rom => some (.storeToRom a)
  | .nothing => some (.unbackedAddress a)

/-- The addresses `a`, `a + 1`, ..., `k` of them, modulo 2^16. -/
def addrsFrom (a : Word) : Nat → List Word
  | 0 => []
  | k + 1 => a :: addrsFrom (a + 1) k

/-- Go on to `r` if every address of the list may be read, else refuse by the first that may not. -/
def guardReads (s : State) (as : List Word) (r : Result) : Result :=
  match as.findSome? (readRefusal s) with
  | some why => .refused why
  | none => r

/-- Go on to `r` if every address of the list may be stored to, else refuse by the first that may not. -/
def guardStores (s : State) (as : List Word) (r : Result) : Result :=
  match as.findSome? (storeRefusal s) with
  | some why => .refused why
  | none => r

end Sys2Proof.Machine
end

