-- ==== Sys2Proof/Syntax.lean ====
section
/-! DEFINITION. The instructions of MISA-O as syntax: one constructor for each mnemonic of
`spec/opcode_table.json`, its rows of several lengths being the operand forms of that constructor.
The four words for `NOP` are two constructors, since three of them are two-nibble words (R276). -/

namespace Sys2Proof

/-- An immediate of the stream, of 1, 2 or 4 nibbles (R116, R117). -/
inductive Imm where
  | w4 (v : BitVec 4)
  | w8 (v : BitVec 8)
  | w16 (v : BitVec 16)
  deriving DecidableEq, Repr

/-- The second operand `OP2` of an ALU instruction: `RS0`, or an embedded immediate (R45). -/
inductive Operand where
  | rs0
  | imm (v : Imm)
  deriving DecidableEq, Repr

/-- The bit index of `BTST`: `RS0[3:0]`, or one immediate nibble (R184). -/
inductive BitIndex where
  | rs0
  | imm (v : BitVec 4)
  deriving DecidableEq, Repr

/-- The branch immediate: 4 bits while `CFG.BW = 0`, 8 bits while `CFG.BW = 1` (R42). -/
inductive BranchImm where
  | w4 (v : BitVec 4)
  | w8 (v : BitVec 8)
  deriving DecidableEq, Repr

/-- The function nibble of `XMEM` (R220): `f[3]` OP, `f[2]` AM, `f[1]` DIR, `f[0]` AR. -/
structure XmemFn where
  store : Bool
  auto  : Bool
  dec   : Bool
  ra1   : Bool
  deriving DecidableEq, Repr

/-- The control nibble of `MAD` (R272): bits 3:2 SHIFT, bit 1 SAT, bit 0 LANE. -/
structure MadCtl where
  shift : BitVec 2
  sat   : Bool
  lane  : Bool
  deriving DecidableEq, Repr

/-- The three extended opcodes that the profiles share (R123): `1100`, `1000`, `0000`. -/
inductive ProfileOpcode where
  | opC
  | op8
  | op0
  deriving DecidableEq, Repr

/-- The reserved extended opcodes (R130): `0100` always, the other three by profile. -/
inductive ReservedOpcode where
  | op4
  | shared (o : ProfileOpcode)
  deriving DecidableEq, Repr

/-- The instructions (R120, R121). -/
inductive Instr where
  | add (op2 : Operand)
  | sub (op2 : Operand)
  | inc
  | dec
  | cmp (op2 : Operand)
  | and (op2 : Operand)
  | inv
  | or (op2 : Operand)
  | xor (op2 : Operand)
  | shl
  | shr
  | btst (idx : BitIndex)
  | tst (op2 : Operand)
  | beqz (off : BranchImm)
  | bc (off : BranchImm)
  | jal
  | jmp
  | cfg (v : BitVec 8)
  | racc
  | rrs
  | rss
  | rsa
  | ss
  | sa
  | ldi (v : Imm)
  | xop
  | nop
  | xmem (f : XmemFn)
  | csrld (idx : BitVec 4)
  | csrst (idx : BitVec 4)
  | reti
  | swi
  | wfi
  | mad (ctl : MadCtl)
  | max
  | min
  | madNop (o : ProfileOpcode)
  | rsv (o : ReservedOpcode)
  | csrAbsent (extended : Bool)
  deriving DecidableEq, Repr

end Sys2Proof
end

