-- ==== Sys2Proof/Machine/Operands.lean ====
section
/-! DEFINITION. Every operand form of the spec: the active width (R9), `OP2` (R45), the carry-in (R41), the
index of `BTST` (R184), branch offsets (R190), the address operand of `XMEM` (R220), the lanes of `MAD`
(R271), the names of the CSRs (R55). -/

namespace Sys2Proof.Machine

/-- The link mode of the state (R40). -/
def State.mode (s : State) : LinkMode := linkMode s.cfg

/-- `Wd` of the state (R9). -/
def State.width (s : State) : Nat := modeBits s.mode

/-- The active accumulator `ACC[Wd-1:0]` (R21). -/
def State.active (s : State) : Word := lowBits s.width s.acc

/-- `RS0[Wd-1:0]` (R22). -/
def State.source (s : State) : Word := lowBits s.width s.rs0

/-- `ACC[Wd-1:0] <- r`, `ACC[15:Wd]` kept (R21). -/
def setActive (r : Word) (s : State) : State := { s with acc := setLowBits s.width s.acc r }

/-- An immediate zero-extended to 16 bits (R117). -/
def immWord : Imm → Word
  | .w4 v => v.setWidth 16
  | .w8 v => v.setWidth 16
  | .w16 v => v

/-- `OP2` (R45, R150): the immediate zero-extended to `Wd` bits, or `RS0[Wd-1:0]`. -/
def op2Value (s : State) : Operand → Word
  | .rs0 => s.source
  | .imm v => lowBits s.width (immWord v)

/-- The carry-in or borrow-in of `ADD`, `SUB` and `CMP`: `C` while `CFG.CI = 1`, else 0 (R41). -/
def carryIn (s : State) : Bool := cfgCI s.cfg && s.c

/-- The bit index of `BTST` (R184), 0 to 15. -/
def bitIndex (s : State) : BitIndex → Nat
  | .rs0 => (s.rs0.extractLsb' 0 4).toNat
  | .imm v => v.toNat

/-- The branch immediate sign-extended to 16 bits (R190). -/
def branchImm : BranchImm → Word
  | .w4 v => v.signExtend 16
  | .w8 v => v.signExtend 16

/-- The branch offset in bytes: shifted left by 2 while `CFG.BRS = 1` (R43, R190). -/
def branchOffset (s : State) (off : BranchImm) : Word :=
  if cfgBRS s.cfg then branchImm off <<< 2 else branchImm off

/-- `PC_next` (R24): exact at a byte boundary; in the middle of a byte rounded up, or no value where
`PCNEXT_MIDBYTE = fault`. -/
def pcNext (s : State) : Option Word :=
  if s.nib then
    match s.params.pcNextMidByte with
    | .roundUp => some (s.pc + 1)
    | .fault => none
  else some s.pc

/-- The stride of `XMEM` in bytes (R220). -/
def xmemStride (s : State) : Word := if modeIsWide s.mode then 2 else 1

/-- How many bytes an `XMEM` access touches (R89). -/
def xmemBytes (s : State) : Nat := if modeIsWide s.mode then 2 else 1

/-- The address register that `f[0]` selects (R220). -/
def xmemReg (f : XmemFn) (s : State) : Word := if f.ra1 then s.ra1 else s.ra0

/-- Write the address register that `f[0]` selects (R220). -/
def setXmemReg (f : XmemFn) (a : Word) (s : State) : State :=
  if f.ra1 then { s with ra1 := a } else { s with ra0 := a }

/-- The address that `XMEM #f` accesses: the register, pre-decremented where `AM = 1` and `DIR = 1`
(R220). -/
def xmemAddr (f : XmemFn) (s : State) : Word :=
  if f.auto && f.dec then xmemReg f s - xmemStride s else xmemReg f s

/-- What `XMEM #f` leaves in its address register (R220, R223). -/
def xmemRegAfter (f : XmemFn) (s : State) : Word :=
  if f.auto then (if f.dec then xmemReg f s - xmemStride s else xmemReg f s + xmemStride s)
  else xmemReg f s

/-- The lane of a source register that `LANE` selects (R271). -/
def laneOf (lane : Bool) (v : Word) : Byte := if lane then hiByte v else loByte v

/-- The shift that the field SHIFT of the control nibble names: 0, 1, 2 or 4 (R272). -/
def madShift (c : MadCtl) : Nat :=
  match c.shift.toNat with
  | 0 => 0
  | 1 => 1
  | 2 => 2
  | _ => 4

/-- The CSRs of the map of R55. -/
inductive CsrName where
  | cpuid
  | corecfg
  | gpr1
  | gpr2
  | gpr3
  | timer
  | timercmp
  | evtctrl
  | intaddr
  | reserved
  deriving DecidableEq, Repr

/-- The CSR of an index (R55). -/
def csrName (idx : BitVec 4) : CsrName :=
  match idx.toNat with
  | 0 => .cpuid
  | 1 => .corecfg
  | 2 => .gpr1
  | 3 => .gpr2
  | 4 => .gpr3
  | 5 => .timer
  | 6 => .timercmp
  | 7 => .evtctrl
  | 8 => .intaddr
  | _ => .reserved

end Sys2Proof.Machine
end

