-- ==== Sys2Proof/Machine/Ops.lean ====
section
/-! DEFINITION. The named operations the meanings are written over: jumps, `EVTCTRL` and the CSR bank,
interrupt entry (R310) and the return from it (R260), the timer (R320, R321), the watchdog reset
(R322), the take condition (R304) and the sleep (R264). -/

namespace Sys2Proof.Machine

/-! ### Control transfer -/

/-- `pc <- target` (R25). -/
def jumpTo (target : Word) (s : State) : State := { s with pc := target, nib := false }

/-- A branch (R190): taken it goes to `PC_next + offset`, else execution goes on at `(PC, NIB)`. -/
def branchIf (cond : Bool) (off : BranchImm) (s : State) : Result :=
  if cond then
    match pcNext s with
    | some pn => .next (jumpTo (pn + branchOffset s off) s)
    | none => .fault (.midBytePcNext s.pc)
  else .next s

/-- The fetch position `k` nibbles before `(PC, NIB)`: the start of an instruction just fetched. -/
def positionBack (k : Nat) (s : State) : Word × Bool :=
  (s.pc - BitVec.ofNat 16 ((k + 1 - s.nib.toNat) / 2), (s.nib.toNat + k) % 2 == 1)

/-! ### `EVTCTRL` (R62) -/

/-- `EVTCTRL` as it reads: absent fields and reserved bits are 0 (R62). -/
def State.evt (s : State) : Word := s.evtctrl &&& evtMask s.params

/-- Bit `i` of `EVTCTRL` as it reads. -/
def State.evtBit (s : State) (i : Nat) : Bool := s.evt.getLsbD i

/-- Write bit `i` of `EVTCTRL`; an absent bit ignores the write (R62). -/
def setEvtBit (i : Nat) (b : Bool) (s : State) : State :=
  { s with evtctrl := withBit s.evtctrl i b &&& evtMask s.params }

/-- `EVTCTRL` after `CSRST #7` writes `w` over the value `e` (R66): plain fields, write-one-to-clear
pending bits, `IN_ISR` read-only. -/
def evtWritten (e w : Word) : Word :=
  (w &&& 0x1087#16) ||| (e &&& 0x0100#16) ||| (e &&& ~~~w &&& 0x0E00#16)

/-! ### The CSR bank (R55 to R68, R241, R242) -/

/-- `CsrRead(idx)` (R241). -/
def csrRead (s : State) (idx : BitVec 4) : Word :=
  match csrName idx with
  | .cpuid => cpuid s.params
  | .corecfg => mkWord s.flags s.cfg
  | .gpr1 => if s.params.baseline then s.gpr1 else 0
  | .gpr2 => if s.params.baseline then s.gpr2 else 0
  | .gpr3 => if s.params.baseline then s.gpr3 else 0
  | .timer => if s.params.time then s.timer else 0
  | .timercmp => if s.params.time then s.timercmp else 0
  | .evtctrl => s.evt
  | .intaddr => if s.params.int then zextByte s.ia else 0
  | .reserved => 0

/-- `CsrWrite(idx, w)` (R242). -/
def csrWrite (idx : BitVec 4) (w : Word) (s : State) : State :=
  match csrName idx with
  | .cpuid => s
  | .corecfg => { s with cfg := loByte w }
  | .gpr1 => if s.params.baseline then { s with gpr1 := w } else s
  | .gpr2 => if s.params.baseline then { s with gpr2 := w } else s
  | .gpr3 => if s.params.baseline then { s with gpr3 := w } else s
  | .timer => if s.params.time then { s with timer := w } else s
  | .timercmp => if s.params.time then { s with timercmp := w } else s
  | .evtctrl =>
    if s.params.baseline then { s with evtctrl := evtWritten s.evt w &&& evtMask s.params } else s
  | .intaddr => if s.params.int then { s with ia := loByte w } else s
  | .reserved => s

/-! ### Interrupts -/

/-- A source is pending and enabled by its own enable bit (R63, R264). -/
def sourceReady (s : State) : Bool :=
  (s.evtBit evtSwIe && s.evtBit evtSwP) || (s.evtBit evtExtIe && s.evtBit evtExtP) ||
    (s.evtBit evtTIe && !s.evtBit evtWdog && s.evtBit evtTP)

/-- `Takeable` (R304). -/
def takeable (s : State) : Bool := cfgIE s.cfg && sourceReady s

/-- The interrupt is taken at this boundary (R306): it is takeable, no prefix is pending, and the
boundary is a byte boundary or `INT_MIDBYTE` does not defer. -/
def interruptDue (s : State) : Bool :=
  takeable s && !s.xopp && (!s.nib || !(s.params.intMidByte == .defer))

/-- The eight bytes of the interrupt frame (R93, R310), from offset 0 on. -/
def frameBytes (s : State) (pn : Word) : List Byte :=
  [loByte pn, hiByte pn, s.cfg, s.flags, s.ia, s.iar, loByte s.ra1, hiByte s.ra1]

/-- The registers after interrupt entry (R310), the frame being stored already. -/
def enterIsr (s : State) : State :=
  jumpTo (pageBase s.ia + 0x10)
    (setEvtBit evtDbgStep false (setEvtBit evtInIsr true
      { s with iar := s.ia, cfg := cfgSetIE s.cfg false, xopp := false, sleep := false }))

/-- Store the frame at `IA << 8` with the return address `pn` and enter the ISR (R310). -/
def saveAndEnter (pn : Word) (s : State) : State :=
  enterIsr (storeBytes s (pageBase s.ia) (frameBytes s pn))

/-- `TakeInterrupt` (R310): TAKING AN EXCEPTION, the one shared operation. `MidBytePCNext` where a
parameter says `fault` in the middle of a byte (R306, R24); refused where the page is not RAM (R314). -/
def takeInterrupt (s : State) : Result :=
  if s.nib && s.params.intMidByte == .fault then .fault (.midBytePcNext s.pc)
  else
    match pcNext s with
    | none => .fault (.midBytePcNext s.pc)
    | some pn => guardStores s (addrsFrom (pageBase s.ia) 8) (.next (saveAndEnter pn s))

/-- The registers after `RETI` (R260), all read from the page of the old `IAR`. -/
def restoreFrame (s : State) : State :=
  let base := pageBase s.iar
  jumpTo (readWord s base)
    (setEvtBit evtInIsr false
      (setFlags (readByte s (base + 3))
        { s with
          cfg := readByte s (base + 2)
          ia := readByte s (base + 4)
          iar := readByte s (base + 5)
          ra1 := readWord s (base + 6) }))

/-- The return from an interrupt (R260, R315). -/
def returnFromInterrupt (s : State) : Result :=
  guardReads s (addrsFrom (pageBase s.iar) 8) (.next (restoreFrame s))

/-! ### Sleep (R264) -/

/-- The core sleeps: `SLEEP` exists only with the Interrupt Profile (R28). -/
def asleep (s : State) : Bool := s.sleep && s.params.int

/-- The wake condition of `WFI` (R264). -/
def wakes (s : State) : Bool :=
  match s.params.wfiWake with
  | .taken => takeable s
  | .pendingEnabled => sourceReady s

/-- `SLEEP <- 0` where the wake condition holds (R264). -/
def wakeIfDue (s : State) : State := if wakes s then { s with sleep := false } else s

/-! ### Timer and watchdog -/

/-- `Reset()` (R350) inside a run: memory keeps its contents (R322). -/
def coreReset (s : State) : State := State.afterReset s.params s.mem s.env s.freeCount

/-- `Tick()` and `MatchEvent()` (R320, R321): the state after one increment of `TIMER`, and whether the
watchdog has reset the core. -/
def tick (s : State) : State × Bool :=
  if s.params.time then
    if s.timer ≠ s.timercmp ∧ s.timer + 1 = s.timercmp then
      if s.evtBit evtWdog then (coreReset s, true)
      else (setEvtBit evtTP true { s with timer := s.timer + 1 }, false)
    else ({ s with timer := s.timer + 1 }, false)
  else (s, false)

/-- `k` calls of `Tick()`, ended by a watchdog reset (R321: nothing else of this boundary happens). -/
def tickTimes : Nat → State → State × Bool
  | 0, s => (s, false)
  | k + 1, s =>
    match tick s with
    | (s', true) => (s', true)
    | (s', false) => tickTimes k s'

/-- At most `k` calls of `Tick()` while asleep (R320): the tick after which the wake condition holds wakes the
core and is the last (R264), and a watchdog reset ends them too (R321). -/
def sleepTicks : Nat → State → State
  | 0, s => s
  | k + 1, s =>
    match tick s with
    | (s', true) => s'
    | (s', false) => if wakes s' then { s' with sleep := false } else sleepTicks k s'

/-! ### Single-step (R330) -/

/-- The condition of the single-step, sampled at the start of an instruction (R330). -/
def stepArmed (s : State) : Bool := cfgIE s.cfg && s.evtBit evtDbgStep && !s.evtBit evtInIsr

end Sys2Proof.Machine
end

