-- ==== Sys2Proof/Machine/Arithmetic.lean ====
section
/-! DEFINITION. The arithmetic instructions `ADD`, `SUB`, `INC`, `DEC`, `CMP` (R150 to R154). The state
handed to a meaning has its fetch position after the instruction (R29). -/

namespace Sys2Proof.Machine

/-- Write an ALU result to the active accumulator and all four flags from it (R150). -/
def writeAlu (res : AluResult) (s : State) : State := setCVZN s.width res (setActive res.r s)

/-- `ADD` (R150). -/
def execAdd (op2 : Operand) (s : State) : Result :=
  .next (writeAlu (addW s.width s.active (op2Value s op2) (carryIn s)) s)

/-- `SUB` (R151). -/
def execSub (op2 : Operand) (s : State) : Result :=
  .next (writeAlu (subW s.width s.active (op2Value s op2) (carryIn s)) s)

/-- `INC` (R152): the carry-in is always 0. -/
def execInc (s : State) : Result := .next (writeAlu (addW s.width s.active 1 false) s)

/-- `DEC` (R153): the borrow-in is always 0. -/
def execDec (s : State) : Result := .next (writeAlu (subW s.width s.active 1 false) s)

/-- `CMP` (R154): the flags of a `SUB`, `ACC` not written. -/
def execCmp (op2 : Operand) (s : State) : Result :=
  .next (setCVZN s.width (subW s.width s.active (op2Value s op2) (carryIn s)) s)

end Sys2Proof.Machine
end

