-- ==== Sys2Proof/Machine/Bit.lean ====
section
/-! DEFINITION. The bit manipulation instructions `SHL`, `SHR`, `BTST`, `TST` (R180 to R186). -/

namespace Sys2Proof.Machine

/-- Write a shifted accumulator, `C` from the expelled bit, `Z` and `N` from the result (R180). -/
def writeShift (expelled : Bool) (r : Word) (s : State) : State :=
  setZN s.width r { setActive r s with c := expelled }

/-- `SHL` (R180). -/
def execShl (s : State) : Result :=
  .next (writeShift (s.active.getLsbD (s.width - 1)) (lowBits s.width (s.active <<< 1)) s)

/-- `SHR` (R181): always logical. -/
def execShr (s : State) : Result := .next (writeShift (s.active.getLsbD 0) (s.active >>> 1) s)

/-- `BTST` (R184): the index ranges over all 16 bits of `ACC`. -/
def execBtst (idx : BitIndex) (s : State) : Result :=
  .next { s with c := s.acc.getLsbD (bitIndex s idx), z := !s.acc.getLsbD (bitIndex s idx) }

/-- `TST` (R186): `C` is written where `TST_WRITES_C`. -/
def execTst (op2 : Operand) (s : State) : Result :=
  let tmp := s.active &&& op2Value s op2
  .next (setZN s.width tmp { s with c := if s.params.tstWritesC then tmp != 0 else s.c })

end Sys2Proof.Machine
end

