-- ==== Sys2Proof/Machine/Control.lean ====
section
/-! DEFINITION. The control flow instructions `BEQz`, `BC`, `JAL`, `JMP` (R190 to R194). -/

namespace Sys2Proof.Machine

/-- `BEQz` (R191): branch if `Z = 1`. -/
def execBeqz (off : BranchImm) (s : State) : Result := branchIf s.z off s

/-- `BC` (R192): branch if `C = 1`. -/
def execBc (off : BranchImm) (s : State) : Result := branchIf s.c off s

/-- `JAL` (R193): `RA1 <- PC_next; PC <- RA0`. -/
def execJal (s : State) : Result :=
  match pcNext s with
  | some pn => .next (jumpTo s.ra0 { s with ra1 := pn })
  | none => .fault (.midBytePcNext s.pc)

/-- `JMP` (R194): `PC <- RA0`. -/
def execJmp (s : State) : Result := .next (jumpTo s.ra0 s)

end Sys2Proof.Machine
end

