-- ==== Sys2Proof/Machine/Csr.lean ====
section
/-! DEFINITION. The CSR access instructions `CSRLD` and `CSRST` (R241, R242). -/

namespace Sys2Proof.Machine

/-- `CSRLD #idx` (R241): all 16 bits of `ACC` are written, no flag. -/
def execCsrld (idx : BitVec 4) (s : State) : Result := .next { s with acc := csrRead s idx }

/-- `CSRST #idx` (R242). -/
def execCsrst (idx : BitVec 4) (s : State) : Result := .next (csrWrite idx s.acc s)

end Sys2Proof.Machine
end

