-- ==== Sys2Proof/Machine/Interrupt.lean ====
section
/-! DEFINITION. The Interrupt Profile instructions `RETI`, `SWI`, `WFI` (R260 to R264). -/

namespace Sys2Proof.Machine

/-- `RETI` (R260). -/
def execReti (s : State) : Result := returnFromInterrupt s

/-- `SWI` (R262): `SW_P <- 1`; the boundary after it takes the interrupt where it is takeable (R306). -/
def execSwi (s : State) : Result := .next (setEvtBit evtSwP true s)

/-- `WFI` (R264): `SLEEP <- 1`; the wake condition is tested when it has retired. -/
def execWfi (s : State) : Result := .next { s with sleep := true }

end Sys2Proof.Machine
end

