-- ==== Sys2Proof/Machine/Logical.lean ====
section
/-! DEFINITION. The logical instructions `AND`, `INV`, `OR`, `XOR` (R170 to R173). -/

namespace Sys2Proof.Machine

/-- Write a logical result to the active accumulator, `Z` and `N` from it (R170). -/
def writeLogical (r : Word) (s : State) : State := setZN s.width r (setActive r s)

/-- `AND` (R170). -/
def execAnd (op2 : Operand) (s : State) : Result := .next (writeLogical (s.active &&& op2Value s op2) s)

/-- `INV` (R171): `~A` within the active width. -/
def execInv (s : State) : Result := .next (writeLogical (lowBits s.width (~~~s.active)) s)

/-- `OR` (R172). -/
def execOr (op2 : Operand) (s : State) : Result := .next (writeLogical (s.active ||| op2Value s op2) s)

/-- `XOR` (R173). -/
def execXor (op2 : Operand) (s : State) : Result := .next (writeLogical (s.active ^^^ op2Value s op2) s)

end Sys2Proof.Machine
end

