-- ==== Sys2Proof/Machine/Mad.lean ====
section
/-! DEFINITION. The MAD Profile instructions `MAD`, `MAX`, `MIN` (R272 to R274), and the profile's opcodes
outside SPE (R276). -/

namespace Sys2Proof.Machine

/-- A word read as an integer: signed where `CFG.SIGN = 1` (R46, R272). -/
def wordInt (signed : Bool) (w : Word) : Int := if signed then w.toInt else (w.toNat : Int)

/-- A byte read as an integer: signed where `CFG.SIGN = 1` (R272). -/
def byteInt (signed : Bool) (b : Byte) : Int := if signed then b.toInt else (b.toNat : Int)

/-- The product of the selected lanes of `RS0` and `RS1` (R271, R272). -/
def madProduct (c : MadCtl) (s : State) : Int :=
  byteInt (cfgSIGN s.cfg) (laneOf c.lane s.rs0) * byteInt (cfgSIGN s.cfg) (laneOf c.lane s.rs1)

/-- The carry-out of the 16-bit addition of the bit patterns (R272). -/
def madCarry (c : MadCtl) (s : State) : Bool :=
  decide ((65536 : Int) ≤ (s.acc.toNat : Int) + madProduct c s % 65536)

/-- The sum before the shift, exact or wrapped to 16 bits first, by `MAD_SUM` (R272). -/
def madSumOf (c : MadCtl) (s : State) : Int :=
  match s.params.madSum with
  | .exact => wordInt (cfgSIGN s.cfg) s.acc + madProduct c s
  | .wrap16First =>
    wordInt (cfgSIGN s.cfg) (BitVec.ofInt 16 (wordInt (cfgSIGN s.cfg) s.acc + madProduct c s))

/-- The clamp of SAT: to `[-32768, 32767]` where `CFG.SIGN = 1`, else to at most `0xFFFF` (R272). -/
def madClamp (signed : Bool) (t : Int) : Int :=
  if signed then Min.min (Max.max t (-32768)) 32767 else Min.min t 65535

/-- The result of `MAD` before it is cut to 16 bits: shifted (rounding down), then saturated (R272). -/
def madResult (c : MadCtl) (s : State) : Int :=
  if c.sat then madClamp (cfgSIGN s.cfg) (madSumOf c s / 2 ^ madShift c)
  else madSumOf c s / 2 ^ madShift c

/-- `MAD #imm` (R272): `C` and `ACC` are written, no other flag. -/
def execMad (ctl : MadCtl) (s : State) : Result :=
  .next { s with acc := BitVec.ofInt 16 (madResult ctl s), c := madCarry ctl s }

/-- `MAX` (R273). -/
def execMax (s : State) : Result :=
  .next { s with
    acc := if wordInt (cfgSIGN s.cfg) s.rs0 ≤ wordInt (cfgSIGN s.cfg) s.acc then s.acc else s.rs0 }

/-- `MIN` (R274). -/
def execMin (s : State) : Result :=
  .next { s with
    acc := if wordInt (cfgSIGN s.cfg) s.acc ≤ wordInt (cfgSIGN s.cfg) s.rs0 then s.acc else s.rs0 }

/-- The profile's opcodes outside SPE on a core without the Interrupt Profile: a two-nibble `NOP`
(R265, R276). -/
def execMadNop (_ : ProfileOpcode) (s : State) : Result := .next s

end Sys2Proof.Machine
end

