-- ==== Sys2Proof/WellFormed.lean ====
section
/-! DEFINITION. When an instruction is one that the stream can hold under a given `CFG` and profile set:
its operand form is the one `CFG.IMM`, `CFG.W` and `CFG.BW` select (R114), and its opcode has that
meaning there (R122, R123, R130). -/

namespace Sys2Proof

open Machine

/-- The immediate has `Wn` nibbles in link mode `m` (R114). -/
def Imm.fits (m : LinkMode) : Imm → Bool
  | .w4 _ => m = .ul
  | .w8 _ => m = .lk8
  | .w16 _ => modeIsWide m

/-- `OP2` is an immediate of the active width exactly when the instruction takes one. -/
def Operand.fits (takesImm : Bool) (m : LinkMode) : Operand → Bool
  | .rs0 => !takesImm
  | .imm v => takesImm && v.fits m

/-- The index of `BTST` is an immediate exactly when `CFG.IMM = 1`. -/
def BitIndex.fits (takesImm : Bool) : BitIndex → Bool
  | .rs0 => !takesImm
  | .imm _ => takesImm

/-- The branch immediate has the width that `CFG.BW` names. -/
def BranchImm.fits (bw : Bool) : BranchImm → Bool
  | .w4 _ => !bw
  | .w8 _ => bw

/-- Extended `1100`, `1000`, `0000` are `MAD`, `MAX`, `MIN` (R123, first column). -/
def madColumn (p : Params) (m : LinkMode) : Bool := p.mad && (m = .spe)

/-- They are `RETI`, `SWI`, `WFI` (R123, second column). -/
def intColumn (p : Params) (m : LinkMode) : Bool := p.int && !madColumn p m

/-- They execute as two-nibble `NOP`s (R123, third column). -/
def nopColumn (p : Params) (m : LinkMode) : Bool := p.mad && !p.int && !madColumn p m

/-- They are reserved (R123, last column). -/
def rsvColumn (p : Params) : Bool := !p.mad && !p.int

/-- The instruction `i` can be decoded under the parameters `p` and the value `cfg` of `CFG`. -/
def Instr.wf (p : Params) (cfg : Byte) : Instr → Bool
  | .add o => o.fits (cfgIMM cfg) (linkMode cfg)
  | .sub o => o.fits (cfgIMM cfg) (linkMode cfg)
  | .inc => true
  | .dec => true
  | .cmp o => o.fits (cfgIMM cfg && p.cmpTakesImm) (linkMode cfg)
  | .and o => o.fits (cfgIMM cfg) (linkMode cfg)
  | .inv => true
  | .or o => o.fits (cfgIMM cfg) (linkMode cfg)
  | .xor o => o.fits (cfgIMM cfg) (linkMode cfg)
  | .shl => true
  | .shr => true
  | .btst idx => idx.fits (cfgIMM cfg)
  | .tst o => o.fits (cfgIMM cfg) (linkMode cfg)
  | .beqz off => off.fits (cfgBW cfg)
  | .bc off => off.fits (cfgBW cfg)
  | .jal => true
  | .jmp => true
  | .cfg _ => true
  | .racc => !modeIsWide (linkMode cfg)
  | .rrs => !modeIsWide (linkMode cfg)
  | .rss => true
  | .rsa => true
  | .ss => true
  | .sa => true
  | .ldi v => v.fits (linkMode cfg)
  | .xop => true
  | .nop => true
  | .xmem _ => true
  | .csrld _ => modeIsWide (linkMode cfg) && p.hasCsr
  | .csrst _ => modeIsWide (linkMode cfg) && p.hasCsr
  | .reti => intColumn p (linkMode cfg)
  | .swi => intColumn p (linkMode cfg)
  | .wfi => intColumn p (linkMode cfg)
  | .mad _ => madColumn p (linkMode cfg)
  | .max => madColumn p (linkMode cfg)
  | .min => madColumn p (linkMode cfg)
  | .madNop _ => nopColumn p (linkMode cfg)
  | .rsv .op4 => true
  | .rsv (.shared _) => rsvColumn p
  | .csrAbsent _ => modeIsWide (linkMode cfg) && !p.hasCsr

end Sys2Proof
end

