-- ==== Sys2Proof/Decode.lean ====
section
/-! DEFINITION. The decoder of R118 and the encoder beside it. Decoding reads a stream of nibbles under
the value of `CFG` and the parameters (R115); it is total, and its one rejection is a stream that ends
before the instruction does. The encoder writes the nibbles of an instruction from R113 to R116. -/

namespace Sys2Proof

open Machine

/-- Why a finite list of nibbles is not decoded. -/
inductive DecodeError where
  /-- The list ends before the opcode or its immediate does. -/
  | streamEnds
  deriving DecidableEq, Repr

/-- An entry of the opcode map (R120 to R123) before its immediate nibbles are read. -/
inductive Entry where
  | nop | add | cfg | shl | ldi | and | racc | csrld | beqz | xop | inc | rss | btst | xmem | or | ss
  | jal | sub | cmp | shr | inv | rrs | csrst | bc | dec | rsa | tst | xor | sa | jmp
  | reti | swi | wfi | mad | max | min
  | madNop (o : ProfileOpcode)
  | rsv (o : ReservedOpcode)
  | csrAbsent (extended : Bool)
  deriving DecidableEq, Repr

/-- The prefix nibble `XOP`, `1000` (R112). -/
def xopNibble : Nibble := 0x8

/-- Opcode `0110` by link mode and `HAS_CSR` (R122, R240). -/
def entry0110 (p : Params) (cfg : Byte) (extended : Bool) : Entry :=
  if modeIsWide (linkMode cfg) then
    if p.hasCsr then (if extended then .csrst else .csrld) else .csrAbsent extended
  else (if extended then .rrs else .racc)

/-- Extended `1100`, `1000`, `0000` by profile and link mode: the first matching column of R123. -/
def entryShared (p : Params) (cfg : Byte) (o : ProfileOpcode) : Entry :=
  if madColumn p (linkMode cfg) then
    match o with
    | .opC => .mad
    | .op8 => .max
    | .op0 => .min
  else if p.int then
    match o with
    | .opC => .reti
    | .op8 => .swi
    | .op0 => .wfi
  else if p.mad then .madNop o
  else .rsv (.shared o)

/-- The Default column of the opcode table (R120). -/
def defaultEntry (p : Params) (cfg : Byte) (op : Nibble) : Entry :=
  match op.toNat with
  | 0x0 => .nop
  | 0x1 => .add
  | 0x2 => .cfg
  | 0x3 => .shl
  | 0x4 => .ldi
  | 0x5 => .and
  | 0x6 => entry0110 p cfg false
  | 0x7 => .beqz
  | 0x8 => .xop
  | 0x9 => .inc
  | 0xA => .rss
  | 0xB => .btst
  | 0xC => .xmem
  | 0xD => .or
  | 0xE => .ss
  | _ => .jal

/-- The Extended column of the opcode table (R121). -/
def extendedEntry (p : Params) (cfg : Byte) (op : Nibble) : Entry :=
  match op.toNat with
  | 0x0 => entryShared p cfg .op0
  | 0x1 => .sub
  | 0x2 => .cmp
  | 0x3 => .shr
  | 0x4 => .rsv .op4
  | 0x5 => .inv
  | 0x6 => entry0110 p cfg true
  | 0x7 => .bc
  | 0x8 => entryShared p cfg .op8
  | 0x9 => .dec
  | 0xA => .rsa
  | 0xB => .tst
  | 0xC => entryShared p cfg .opC
  | 0xD => .xor
  | 0xE => .sa
  | _ => .jmp

/-- The column that the prefix selects (R112): Extended where an `XOP` is pending. -/
def lookupEntry (p : Params) (cfg : Byte) (extended : Bool) (op : Nibble) : Entry :=
  if extended then extendedEntry p cfg op else defaultEntry p cfg op

/-- `CMP` is followed by an immediate only under `CMP_TAKES_IMM` (R45, R154). -/
def cmpTakes (p : Params) (cfg : Byte) : Bool := cfgIMM cfg && p.cmpTakesImm

/-- How many immediate nibbles follow the opcode of an entry (R114). -/
def immCount (p : Params) (cfg : Byte) : Entry → Nat
  | .add | .sub | .and | .or | .xor | .tst => if cfgIMM cfg then modeNibbles (linkMode cfg) else 0
  | .cmp => if cmpTakes p cfg then modeNibbles (linkMode cfg) else 0
  | .btst => if cfgIMM cfg then 1 else 0
  | .beqz | .bc => if cfgBW cfg then 2 else 1
  | .cfg => 2
  | .ldi => modeNibbles (linkMode cfg)
  | .csrld | .csrst | .xmem | .mad => 1
  | .nop | .shl | .racc | .xop | .inc | .rss | .ss | .jal | .shr | .inv | .rrs | .dec | .rsa | .sa
  | .jmp | .reti | .swi | .wfi | .max | .min | .madNop _ | .rsv _ | .csrAbsent _ => 0

/-- The value of a list of nibbles, the least significant nibble first. -/
def valueLsFirst : List Nibble → Nat
  | [] => 0
  | n :: rest => n.toNat + 16 * valueLsFirst rest

/-- `FetchImm` (R116): the nibbles of an immediate assembled in the order `IMM_NIBBLE_ORDER`. -/
def immValue (order : ImmOrder) (nibs : List Nibble) : Nat :=
  match order with
  | .lsFirst => valueLsFirst nibs
  | .msFirst => valueLsFirst nibs.reverse

/-- The `k` nibbles of a value, the least significant nibble first. -/
def nibblesLsFirst : Nat → Nat → List Nibble
  | 0, _ => []
  | k + 1, v => BitVec.ofNat 4 v :: nibblesLsFirst k (v / 16)

/-- The `k` nibbles of an immediate in the order `IMM_NIBBLE_ORDER` (R116). -/
def immNibbles (order : ImmOrder) (k v : Nat) : List Nibble :=
  match order with
  | .lsFirst => nibblesLsFirst k v
  | .msFirst => (nibblesLsFirst k v).reverse

/-- The immediate of `Wn` nibbles in the link mode `m` (R114, R116). -/
def immOfNibbles (p : Params) (m : LinkMode) (nibs : List Nibble) : Imm :=
  match m with
  | .ul => .w4 (BitVec.ofNat 4 (immValue p.immOrder nibs))
  | .lk8 => .w8 (BitVec.ofNat 8 (immValue p.immOrder nibs))
  | .lk16 => .w16 (BitVec.ofNat 16 (immValue p.immOrder nibs))
  | .spe => .w16 (BitVec.ofNat 16 (immValue p.immOrder nibs))

/-- `OP2`: the immediate where the instruction takes one, else `RS0` (R45). -/
def operandOfNibbles (p : Params) (cfg : Byte) (takesImm : Bool) (nibs : List Nibble) : Operand :=
  if takesImm then .imm (immOfNibbles p (linkMode cfg) nibs) else .rs0

/-- The branch immediate (R114). -/
def branchOfNibbles (p : Params) (cfg : Byte) (nibs : List Nibble) : BranchImm :=
  if cfgBW cfg then .w8 (BitVec.ofNat 8 (immValue p.immOrder nibs))
  else .w4 (BitVec.ofNat 4 (immValue p.immOrder nibs))

/-- One immediate nibble (R116 with `k = 1`). -/
def nibbleOfNibbles (p : Params) (nibs : List Nibble) : Nibble :=
  BitVec.ofNat 4 (immValue p.immOrder nibs)

/-- The function bits of `XMEM` (R220). -/
def xmemFnOfNibble (n : Nibble) : XmemFn :=
  { store := n.getLsbD 3, auto := n.getLsbD 2, dec := n.getLsbD 1, ra1 := n.getLsbD 0 }

/-- The function nibble of `XMEM` (R220). -/
def nibbleOfXmemFn (f : XmemFn) : Nibble :=
  (BitVec.ofBool f.store ++ BitVec.ofBool f.auto ++ BitVec.ofBool f.dec ++ BitVec.ofBool f.ra1 : BitVec 4)

/-- The control bits of `MAD` (R272). -/
def madCtlOfNibble (n : Nibble) : MadCtl :=
  { shift := n.extractLsb' 2 2, sat := n.getLsbD 1, lane := n.getLsbD 0 }

/-- The control nibble of `MAD` (R272). -/
def nibbleOfMadCtl (c : MadCtl) : Nibble :=
  (c.shift ++ BitVec.ofBool c.sat ++ BitVec.ofBool c.lane : BitVec 4)

/-- The instruction of an entry and its immediate nibbles (R117). -/
def buildInstr (p : Params) (cfg : Byte) (e : Entry) (nibs : List Nibble) : Instr :=
  match e with
  | .nop => .nop
  | .add => .add (operandOfNibbles p cfg (cfgIMM cfg) nibs)
  | .cfg => .cfg (BitVec.ofNat 8 (immValue p.immOrder nibs))
  | .shl => .shl
  | .ldi => .ldi (immOfNibbles p (linkMode cfg) nibs)
  | .and => .and (operandOfNibbles p cfg (cfgIMM cfg) nibs)
  | .racc => .racc
  | .csrld => .csrld (nibbleOfNibbles p nibs)
  | .beqz => .beqz (branchOfNibbles p cfg nibs)
  | .xop => .xop
  | .inc => .inc
  | .rss => .rss
  | .btst => .btst (if cfgIMM cfg then .imm (nibbleOfNibbles p nibs) else .rs0)
  | .xmem => .xmem (xmemFnOfNibble (nibbleOfNibbles p nibs))
  | .or => .or (operandOfNibbles p cfg (cfgIMM cfg) nibs)
  | .ss => .ss
  | .jal => .jal
  | .sub => .sub (operandOfNibbles p cfg (cfgIMM cfg) nibs)
  | .cmp => .cmp (operandOfNibbles p cfg (cmpTakes p cfg) nibs)
  | .shr => .shr
  | .inv => .inv
  | .rrs => .rrs
  | .csrst => .csrst (nibbleOfNibbles p nibs)
  | .bc => .bc (branchOfNibbles p cfg nibs)
  | .dec => .dec
  | .rsa => .rsa
  | .tst => .tst (operandOfNibbles p cfg (cfgIMM cfg) nibs)
  | .xor => .xor (operandOfNibbles p cfg (cfgIMM cfg) nibs)
  | .sa => .sa
  | .jmp => .jmp
  | .reti => .reti
  | .swi => .swi
  | .wfi => .wfi
  | .mad => .mad (madCtlOfNibble (nibbleOfNibbles p nibs))
  | .max => .max
  | .min => .min
  | .madNop o => .madNop o
  | .rsv o => .rsv o
  | .csrAbsent x => .csrAbsent x

/-- Read the immediate nibbles of an entry from the stream and build its instruction (R118). -/
def decodeEntry (p : Params) (cfg : Byte) (e : Entry) (rest : List Nibble) :
    Except DecodeError (Instr × List Nibble) :=
  if rest.length < immCount p cfg e then .error .streamEnds
  else .ok (buildInstr p cfg e (rest.take (immCount p cfg e)), rest.drop (immCount p cfg e))

/-- The decoder (R118): the instruction at the head of the stream and the nibbles after it, under the
value of `CFG` at its first nibble (R115). `xopp` says that an `XOP` prefix has been fetched already
(R27). A prefix and the opcode after it are one instruction (R112); a prefix that is the last nibble
of the list is `XOP` by itself (R210, assumption 5). -/
def decode (p : Params) (cfg : Byte) (xopp : Bool) (nibs : List Nibble) :
    Except DecodeError (Instr × List Nibble) :=
  match nibs with
  | [] => .error .streamEnds
  | n0 :: rest =>
    if !xopp && n0 == xopNibble then
      match rest with
      | [] => .ok (.xop, [])
      | n1 :: rest1 => decodeEntry p cfg (lookupEntry p cfg true n1) rest1
    else decodeEntry p cfg (lookupEntry p cfg xopp n0) rest

/-- The length in nibbles of the instruction whose first nibble is `n0` and, where that is the prefix,
whose second is `n1` (R114). -/
def instrLength (p : Params) (cfg : Byte) (xopp : Bool) (n0 n1 : Nibble) : Nat :=
  if !xopp && n0 == xopNibble then 2 + immCount p cfg (lookupEntry p cfg true n1)
  else 1 + immCount p cfg (lookupEntry p cfg xopp n0)

/-! ### The encoder -/

/-- The nibbles of an immediate (R116). -/
def encodeImm (p : Params) : Imm → List Nibble
  | .w4 v => immNibbles p.immOrder 1 v.toNat
  | .w8 v => immNibbles p.immOrder 2 v.toNat
  | .w16 v => immNibbles p.immOrder 4 v.toNat

/-- The nibbles of `OP2`: none for `RS0`. -/
def encodeOperand (p : Params) : Operand → List Nibble
  | .rs0 => []
  | .imm v => encodeImm p v

/-- The nibbles of a branch immediate. -/
def encodeBranch (p : Params) : BranchImm → List Nibble
  | .w4 v => immNibbles p.immOrder 1 v.toNat
  | .w8 v => immNibbles p.immOrder 2 v.toNat

/-- The opcode nibble of the three shared extended opcodes (R123). -/
def profileNibble : ProfileOpcode → Nibble
  | .opC => 0xC
  | .op8 => 0x8
  | .op0 => 0x0

/-- The opcode nibble of the reserved extended opcodes (R130). -/
def reservedNibble : ReservedOpcode → Nibble
  | .op4 => 0x4
  | .shared o => profileNibble o

/-- The nibbles of an instruction in stream order (R113, R120, R121). -/
def encode (p : Params) : Instr → List Nibble
  | .add o => 0x1 :: encodeOperand p o
  | .sub o => xopNibble :: 0x1 :: encodeOperand p o
  | .inc => [0x9]
  | .dec => [xopNibble, 0x9]
  | .cmp o => xopNibble :: 0x2 :: encodeOperand p o
  | .and o => 0x5 :: encodeOperand p o
  | .inv => [xopNibble, 0x5]
  | .or o => 0xD :: encodeOperand p o
  | .xor o => xopNibble :: 0xD :: encodeOperand p o
  | .shl => [0x3]
  | .shr => [xopNibble, 0x3]
  | .btst .rs0 => [0xB]
  | .btst (.imm v) => 0xB :: immNibbles p.immOrder 1 v.toNat
  | .tst o => xopNibble :: 0xB :: encodeOperand p o
  | .beqz off => 0x7 :: encodeBranch p off
  | .bc off => xopNibble :: 0x7 :: encodeBranch p off
  | .jal => [0xF]
  | .jmp => [xopNibble, 0xF]
  | .cfg v => 0x2 :: immNibbles p.immOrder 2 v.toNat
  | .racc => [0x6]
  | .rrs => [xopNibble, 0x6]
  | .rss => [0xA]
  | .rsa => [xopNibble, 0xA]
  | .ss => [0xE]
  | .sa => [xopNibble, 0xE]
  | .ldi v => 0x4 :: encodeImm p v
  | .xop => [xopNibble]
  | .nop => [0x0]
  | .xmem f => 0xC :: immNibbles p.immOrder 1 (nibbleOfXmemFn f).toNat
  | .csrld idx => 0x6 :: immNibbles p.immOrder 1 idx.toNat
  | .csrst idx => xopNibble :: 0x6 :: immNibbles p.immOrder 1 idx.toNat
  | .reti => [xopNibble, 0xC]
  | .swi => [xopNibble, 0x8]
  | .wfi => [xopNibble, 0x0]
  | .mad c => xopNibble :: 0xC :: immNibbles p.immOrder 1 (nibbleOfMadCtl c).toNat
  | .max => [xopNibble, 0x8]
  | .min => [xopNibble, 0x0]
  | .madNop o => [xopNibble, profileNibble o]
  | .rsv o => [xopNibble, reservedNibble o]
  | .csrAbsent extended => if extended then [xopNibble, 0x6] else [0x6]

/-! ### Words of the opcode table -/

/-- Nibble 0 (the first fetched) or 1 of a byte (R111). -/
def nibbleOfByte (first : NibbleFirst) (b : Byte) (second : Bool) : Nibble :=
  match first, second with
  | .low, false => b.extractLsb' 0 4
  | .low, true => b.extractLsb' 4 4
  | .high, false => b.extractLsb' 4 4
  | .high, true => b.extractLsb' 0 4

/-- Byte `k` of a table word: bits `8k+7 .. 8k`, the byte at the `k`-th address (first byte lowest). -/
def tableByte (w k : Nat) : Byte := BitVec.ofNat 8 (w / 2 ^ (8 * k))

/-- The six nibbles, in fetch order, of the three bytes of a table word. -/
def tableNibbles (p : Params) (w : Nat) : List Nibble :=
  [nibbleOfByte p.nibbleFirst (tableByte w 0) false, nibbleOfByte p.nibbleFirst (tableByte w 0) true,
   nibbleOfByte p.nibbleFirst (tableByte w 1) false, nibbleOfByte p.nibbleFirst (tableByte w 1) true,
   nibbleOfByte p.nibbleFirst (tableByte w 2) false, nibbleOfByte p.nibbleFirst (tableByte w 2) true]

/-- The states of `CFG` and the profiles under which the table's rows are tried (assumption 6): the given
one, then `IMM = 1` in UL, LK8 and LK16, `BW = 1`, LK8, LK16, and SPE with the MAD Profile. -/
def tableContexts (p : Params) (cfg : Byte) : List (Params × Byte) :=
  [(p, cfg), (p, 0x08), (p, 0x09), (p, 0x0A), (p, 0x40), (p, 0x01), (p, 0x02),
   ({ p with mad := true }, 0x03)]

/-- Under this context the word is one instruction of `nbits` bits (rounded up to whole bytes) and the
nibbles after it are 0. -/
def contextFits (nbits w : Nat) (c : Params × Byte) : Bool :=
  match decode c.1 c.2 false (tableNibbles c.1 w) with
  | .ok (_, rest) => (6 - rest.length + 1) / 2 == (nbits + 7) / 8 && rest.all (· == 0)
  | .error _ => false

/-- The context a table word is read under: the first that fits it, else the given one. -/
def tableContext (p : Params) (cfg : Byte) (nbits w : Nat) : Params × Byte :=
  ((tableContexts p cfg).find? (contextFits nbits w)).getD (p, cfg)

/-- The instruction that the decoder reads from a word of `spec/opcode_table.json`. -/
def decodeTableWord (nbits w : Nat) : Option Instr :=
  match decode (tableContext defaultParams resetCfg nbits w).1 (tableContext defaultParams resetCfg nbits w).2
      false (tableNibbles (tableContext defaultParams resetCfg nbits w).1 w) with
  | .ok (i, _) => some i
  | .error _ => none

end Sys2Proof
end

