-- ==== Sys2Proof/Machine/Reserved.lean ====
section
/-! DEFINITION. The encodings to which the spec gives no effect: they stop the model by name (R131, R240). -/

namespace Sys2Proof.Machine

/-- A reserved extended opcode (R131): the model-fault `ReservedEncoding`, naming the address of its two
nibbles and its opcode nibble. -/
def execRsv (o : ReservedOpcode) (s : State) : Result :=
  .fault (.reservedEncoding (positionBack 2 s).1 (positionBack 2 s).2 (reservedNibble o))

/-- Opcode `0110` in LK16 or SPE on a core without the CSR instructions (R240): the model-fault
`NoCsrInstructions`, naming its address. -/
def execCsrAbsent (extended : Bool) (s : State) : Result :=
  .fault (.noCsrInstructions (positionBack (if extended then 2 else 1) s).1
    (positionBack (if extended then 2 else 1) s).2)

end Sys2Proof.Machine
end

