-- ==== Sys2Proof/Machine/Structural.lean ====
section
/-! DEFINITION. The structural instructions `CFG`, `RACC`, `RRS`, `RSS`, `RSA`, `SS`, `SA`, `LDi`, `XOP`, `NOP`
(R200 to R211). None writes a flag (R31). -/

namespace Sys2Proof.Machine

/-- Rotate a register by the active width in the direction `ROT_DIR` (R203). -/
def rotateReg (s : State) (r : Word) : Word :=
  match s.params.rotDir with
  | .right => rotRight s.width r
  | .left => rotLeft s.width r

/-- `CFG #imm` (R200). -/
def execCfg (imm : BitVec 8) (s : State) : Result := .next { s with cfg := imm }

/-- `RACC` (R203). -/
def execRacc (s : State) : Result := .next { s with acc := rotateReg s s.acc }

/-- `RRS` (R204). -/
def execRrs (s : State) : Result := .next { s with rs0 := rotateReg s s.rs0 }

/-- `RSS` (R205): all 16 bits, whatever `Wd` is. -/
def execRss (s : State) : Result := .next { s with rs0 := s.rs1, rs1 := s.rs0 }

/-- `RSA` (R206): all 16 bits. -/
def execRsa (s : State) : Result := .next { s with ra0 := s.ra1, ra1 := s.ra0 }

/-- `SS` (R207): the low `Wd` bits of `ACC` and `RS0` trade places. -/
def execSs (s : State) : Result :=
  .next { s with acc := setLowBits s.width s.acc s.rs0, rs0 := setLowBits s.width s.rs0 s.acc }

/-- `SA` (R208): all 16 bits, in every link mode. -/
def execSa (s : State) : Result := .next { s with acc := s.ra0, ra0 := s.acc }

/-- `LDi #imm` (R209): `ACC[15:Wd]` is kept. -/
def execLdi (imm : Imm) (s : State) : Result := .next (setActive (immWord imm) s)

/-- `XOP` (R210): its whole effect is on decoding, `XOPP <- 1` (R27). -/
def execXop (s : State) : Result := .next { s with xopp := true }

/-- `NOP` (R211). -/
def execNop (s : State) : Result := .next s

end Sys2Proof.Machine
end

