-- ==== Sys2Proof/Machine/Xmem.lean ====
section
/-! DEFINITION. The memory access instruction `XMEM` with its sixteen functions (R220 to R223). -/

namespace Sys2Proof.Machine

/-- The load of R221 at an address. -/
def xmemLoad (a : Word) (s : State) : State :=
  match s.mode with
  | .ul => setActive (zextByte (readByte s a)) s
  | .lk8 => setActive (zextByte (readByte s a)) s
  | .lk16 => { s with acc := readWord s a }
  | .spe => { s with acc := readWord s a }

/-- The byte that a store in UL writes: bits 3:0 from `ACC`, bits 7:4 of memory kept (R222). -/
def nibbleStored (old : Byte) (acc : Word) : Byte := (old &&& 0xF0) ||| (loByte acc &&& 0x0F)

/-- The store of R222 at an address. -/
def xmemStore (a : Word) (s : State) : State :=
  match s.mode with
  | .ul => storeByte s a (nibbleStored (readByte s a) s.acc)
  | .lk8 => storeByte s a (loByte s.acc)
  | .lk16 => storeWord s a s.acc
  | .spe => storeWord s a s.acc

/-- The addresses that `XMEM #f` accesses (R89). -/
def xmemAddrs (f : XmemFn) (s : State) : List Word := addrsFrom (xmemAddr f s) (xmemBytes s)

/-- `XMEM #f` (R220): the access, then the address register; refused where `MEMORY_MAP` backs an
accessed address with nothing, or a stored one with ROM (R83). -/
def execXmem (f : XmemFn) (s : State) : Result :=
  if f.store then
    guardStores s (xmemAddrs f s) (.next (setXmemReg f (xmemRegAfter f s) (xmemStore (xmemAddr f s) s)))
  else
    guardReads s (xmemAddrs f s) (.next (setXmemReg f (xmemRegAfter f s) (xmemLoad (xmemAddr f s) s)))

end Sys2Proof.Machine
end

