-- ==== Sys2Proof/Machine/Dispatch.lean ====
section
/-! DEFINITION. `exec`: one arm per constructor of `Instr`, each one call of its meaning. -/

namespace Sys2Proof.Machine

def exec (i : Instr) (s : State) : Host.Outcome State Fault Refusal :=
  match i with
  | .add op2 => Sys2Proof.Machine.execAdd op2 s
  | .sub op2 => Sys2Proof.Machine.execSub op2 s
  | .inc => Sys2Proof.Machine.execInc s
  | .dec => Sys2Proof.Machine.execDec s
  | .cmp op2 => Sys2Proof.Machine.execCmp op2 s
  | .and op2 => Sys2Proof.Machine.execAnd op2 s
  | .inv => Sys2Proof.Machine.execInv s
  | .or op2 => Sys2Proof.Machine.execOr op2 s
  | .xor op2 => Sys2Proof.Machine.execXor op2 s
  | .shl => Sys2Proof.Machine.execShl s
  | .shr => Sys2Proof.Machine.execShr s
  | .btst idx => Sys2Proof.Machine.execBtst idx s
  | .tst op2 => Sys2Proof.Machine.execTst op2 s
  | .beqz off => Sys2Proof.Machine.execBeqz off s
  | .bc off => Sys2Proof.Machine.execBc off s
  | .jal => Sys2Proof.Machine.execJal s
  | .jmp => Sys2Proof.Machine.execJmp s
  | .cfg v => Sys2Proof.Machine.execCfg v s
  | .racc => Sys2Proof.Machine.execRacc s
  | .rrs => Sys2Proof.Machine.execRrs s
  | .rss => Sys2Proof.Machine.execRss s
  | .rsa => Sys2Proof.Machine.execRsa s
  | .ss => Sys2Proof.Machine.execSs s
  | .sa => Sys2Proof.Machine.execSa s
  | .ldi v => Sys2Proof.Machine.execLdi v s
  | .xop => Sys2Proof.Machine.execXop s
  | .nop => Sys2Proof.Machine.execNop s
  | .xmem f => Sys2Proof.Machine.execXmem f s
  | .csrld idx => Sys2Proof.Machine.execCsrld idx s
  | .csrst idx => Sys2Proof.Machine.execCsrst idx s
  | .reti => Sys2Proof.Machine.execReti s
  | .swi => Sys2Proof.Machine.execSwi s
  | .wfi => Sys2Proof.Machine.execWfi s
  | .mad ctl => Sys2Proof.Machine.execMad ctl s
  | .max => Sys2Proof.Machine.execMax s
  | .min => Sys2Proof.Machine.execMin s
  | .madNop o => Sys2Proof.Machine.execMadNop o s
  | .rsv o => Sys2Proof.Machine.execRsv o s
  | .csrAbsent extended => Sys2Proof.Machine.execCsrAbsent extended s

end Sys2Proof.Machine
end

