-- ==== Sys2Proof/Machine/Fetch.lean ====
section
/-! DEFINITION. Fetching the nibbles of the next instruction (R111, R98) and decoding them, and placing a
word of the opcode table where the next step fetches it. -/

namespace Sys2Proof.Machine

/-- How many nibbles the fetch position is past the first nibble of the byte at `PC`, `k` nibbles on. -/
def nibbleIndex (s : State) (k : Nat) : Nat := s.nib.toNat + k

/-- The address of the byte that holds the nibble `k` nibbles past the fetch position (R26). -/
def nibbleAddr (s : State) (k : Nat) : Word := s.pc + BitVec.ofNat 16 (nibbleIndex s k / 2)

/-- `FetchNibble()` `k` nibbles past the fetch position (R111): refused where nothing backs the byte,
`FetchOfModifiedByte` where it was stored to since reset and `FETCH_SEES_STORES` is false (R98). -/
def fetchNibble (s : State) (k : Nat) : Except Stop Nibble :=
  match readRefusal s (nibbleAddr s k) with
  | some why => .error (.refusal why)
  | none =>
    if !s.params.fetchSeesStores && s.modified.contains (nibbleAddr s k).toNat then
      .error (.fault (.fetchOfModifiedByte (nibbleAddr s k)))
    else
      .ok (nibbleOfByte s.params.nibbleFirst (readByte s (nibbleAddr s k)) (nibbleIndex s k % 2 == 1))

/-- `count` nibbles from `k` nibbles past the fetch position on, in stream order. -/
def fetchNibbles (s : State) : Nat → Nat → Except Stop (List Nibble)
  | _, 0 => .ok []
  | k, count + 1 =>
    match fetchNibble s k with
    | .error why => .error why
    | .ok n =>
      match fetchNibbles s (k + 1) count with
      | .error why => .error why
      | .ok rest => .ok (n :: rest)

/-- The length in nibbles of the instruction at the fetch position, of which no nibble beyond the opcode
is fetched for it (R114, R118). -/
def fetchLength (s : State) : Except Stop Nat :=
  match fetchNibble s 0 with
  | .error why => .error why
  | .ok n0 =>
    if !s.xopp && n0 == xopNibble then
      match fetchNibble s 1 with
      | .error why => .error why
      | .ok n1 => .ok (instrLength s.params s.cfg s.xopp n0 n1)
    else .ok (instrLength s.params s.cfg s.xopp n0 0)

/-- Fetch and decode the instruction at the fetch position: the instruction and its length in nibbles
(R115: under the `CFG` of its first nibble). -/
def fetchInstr (s : State) : Except Stop (Instr × Nat) :=
  match fetchLength s with
  | .error why => .error why
  | .ok len =>
    match fetchNibbles s 0 len with
    | .error why => .error why
    | .ok nibs =>
      match decode s.params s.cfg s.xopp nibs with
      | .ok (i, _) => .ok (i, len)
      | .error .streamEnds => .error (.refusal .streamEnds)

/-- Move the fetch position past `k` nibbles (R26); the opcode is fetched, so `XOPP` is 0 (R118). -/
def advance (k : Nat) (s : State) : State :=
  { s with
    pc := nibbleAddr s k
    nib := nibbleIndex s k % 2 == 1
    xopp := false }

/-! ### Placing a word of the opcode table -/

/-- Put a byte into memory from outside the machine: it counts as launch contents, not as a store. -/
def placeByte (a : Word) (b : Byte) (s : State) : State :=
  { s with mem := memInsert s.mem a.toNat b, modified := s.modified.filter (· != a.toNat) }

/-- The three bytes of a table word at `PC` and the two addresses after it. -/
def placeWord (w : Nat) (s : State) : State :=
  placeByte (s.pc + 2) (tableByte w 2) (placeByte (s.pc + 1) (tableByte w 1) (placeByte s.pc (tableByte w 0) s))

/-- Place a word of the opcode table so that the next step runs it (assumption 6): the core is at an
instruction boundary that starts a byte, awake, with interrupts off, a quiet environment at this boundary and all memory RAM, under the
first `CFG` and profile set that makes the word an instruction of that length. -/
def loadTableWord (s : State) (nbits w : Nat) : State :=
  placeWord w
    { s with
      params := { (tableContext s.params (cfgSetIE s.cfg false) nbits w).1 with memoryMap := [] }
      cfg := (tableContext s.params (cfgSetIE s.cfg false) nbits w).2
      nib := false
      xopp := false
      sleep := false
      env := { ext := false, extraTicks := 0 } :: s.env }

end Sys2Proof.Machine
end

