-- ==== Sys2Proof/Machine/Cycle.lean ====
section
/-! DEFINITION. One step of the core: the instruction boundary of R306, then an interrupt entry, a step
asleep, or one instruction with its timer tick and single-step trigger. -/

namespace Sys2Proof.Machine

/-- What the environment does at this boundary (R71, assumption 3): the head of its list; where the list
has run out, free values, so that it may do anything at any boundary (U18). -/
def envInput (s : State) : EnvInput :=
  match s.env with
  | e :: _ => e
  | [] => { ext := Config.freeExt s.freeCount, extraTicks := Config.freeTicks s.freeCount }

/-- The index of the next free value: it moves on where the list of inputs has run out. -/
def nextFree (s : State) : Nat :=
  match s.env with
  | _ :: _ => s.freeCount
  | [] => s.freeCount + 1

/-- Step 3 of R306: the environment's input is consumed and may set `EXT_P` (R71). -/
def pollEnv (s : State) : State :=
  { s with
    evtctrl := if (envInput s).ext then (setEvtBit evtExtP true s).evtctrl else s.evtctrl
    env := s.env.tail
    freeCount := nextFree s }

/-- The number of `Tick()` calls after an instruction (R320): none after `CSRST #5`, else one; with
`TIMER_TICK = cycle`, one or more, as the environment chooses. -/
def ticksAfter (p : Params) (extra : Nat) (i : Instr) : Nat :=
  match p.timerTick with
  | .instruction => if i = .csrst 5 then 0 else 1
  | .cycle => extra + 1

/-- The number of `Tick()` calls the environment allows a step asleep (R320): none, or as it chooses. -/
def ticksAsleep (p : Params) (extra : Nat) : Nat :=
  match p.timerTick with
  | .instruction => 0
  | .cycle => extra

/-- The boundary after an instruction, steps 1 and 2 of R306: the ticks, then the single-step trigger if
it was armed when the instruction started; a watchdog reset ends the boundary (R321). A `WFI` whose
wake condition holds does not sleep (R264). -/
def retire (extra : Nat) (armed : Bool) (i : Instr) (s : State) : State :=
  match tickTimes (ticksAfter s.params extra i) s with
  | (s', true) => s'
  | (s', false) => wakeIfDue (if armed then setEvtBit evtSwP true s' else s')

/-- A stop as the outcome of a step. -/
def stopResult : Stop → Result
  | .fault f => .fault f
  | .refusal r => .refused r

/-- Fetch, decode and execute one instruction, then its retirement. -/
def runInstr (extra : Nat) (s : State) : Result :=
  match fetchInstr s with
  | .error why => stopResult why
  | .ok (i, len) =>
    match exec i (advance len s) with
    | .next s' => .next (retire extra (stepArmed s) i s')
    | .fault f => .fault f
    | .refused r => .refused r

/-- A step that finds the core asleep (R264, R320): no instruction is fetched; only the ticks of
`TIMER_TICK = cycle` pass, up to the one that wakes the core. -/
def sleepStep (extra : Nat) (s : State) : State := sleepTicks (ticksAsleep s.params extra) s

/-- The state at steps 3 and 4 of R306: the environment's input taken, the core awake if it wakes. -/
def boundary (s : State) : State := wakeIfDue (pollEnv s)

/-- One step from an instruction boundary (R306, assumption 4): the environment's input, then interrupt
entry if it is due, else a step asleep, else one instruction. -/
def stepOnce (s : State) : Result :=
  if interruptDue (boundary s) then takeInterrupt (boundary s)
  else if asleep (boundary s) then .next (sleepStep (envInput s).extraTicks (boundary s))
  else runInstr (envInput s).extraTicks (boundary s)

end Sys2Proof.Machine
end

