-- ==== Sys2Proof/Machine/Step.lean ====
section
/-! DEFINITION. The step of the machine and the placing of a word where it fetches next; both only call
the definitions of `Cycle.lean` and `Fetch.lean`. -/

namespace Sys2Proof.Machine

/-- One step (R306): an interrupt entry, a step asleep, or one instruction. -/
def step (s : State) : Host.Outcome State Fault Refusal := stepOnce s

/-- `s` with the word `w` of the opcode table stored where `step` fetches its next instruction. -/
def State.withFetchWord (s : State) (nbits w : Nat) : State := loadTableWord s nbits w

end Sys2Proof.Machine
end

