-- ==== Sys2Proof/Safety.lean ====
section
/-! DEFINITION. What claims are stated in: the runs of the machine and when one stops, the natural and
integer readings of the operands (R9, R10), what it means to leave memory alone, and the invariant of
the state. -/

namespace Sys2Proof

open Machine

/-- `t` is reached from `s` by zero or more steps that all answer a next state. -/
inductive Reaches : State → State → Prop where
  | refl (s : State) : Reaches s s
  | tail {s t u : State} : Reaches s t → step t = .next u → Reaches s u

/-- The step from `s` answers a next state: no model-fault and no refusal. -/
def Goes (s : State) : Prop := ∃ t, step s = .next t

/-- A run from `s` never stops: every state it reaches has a next one. -/
def RunsForever (s : State) : Prop := ∀ t, Reaches s t → Goes t

/-- `uint(A)`, the active accumulator as a number (R9). -/
def accNat (s : State) : Nat := s.acc.toNat % 2 ^ s.width

/-- An immediate as a number (R117). -/
def immNat : Imm → Nat
  | .w4 v => v.toNat
  | .w8 v => v.toNat
  | .w16 v => v.toNat

/-- The branch immediate as a signed number (R117, R190). -/
def branchInt : BranchImm → Int
  | .w4 v => v.toInt
  | .w8 v => v.toInt

/-- `uint(OP2)`: `RS0[Wd-1:0]` or the immediate, cut to `Wd` bits (R45, R150). -/
def op2Nat (s : State) : Operand → Nat
  | .rs0 => s.rs0.toNat % 2 ^ s.width
  | .imm v => immNat v % 2 ^ s.width

/-- The carry-in of `ADD`, `SUB` and `CMP` as a number: `C` where bit 7 of `CFG` is 1, else 0 (R41). -/
def carryNat (s : State) : Nat := if s.cfg.getLsbD 7 && s.c then 1 else 0

/-- `sint_w(x)`: the two's-complement reading of the low `w` bits of a number (R10). -/
def sintOf (w x : Nat) : Int := (BitVec.ofNat w x).toInt

/-- The accumulator of `t` is that of `s` with its low `Wd` bits replaced by the number `r` (R21). -/
def AccBecomes (s t : State) (r : Nat) : Prop :=
  t.acc.toNat % 2 ^ s.width = r % 2 ^ s.width ∧ t.acc.toNat / 2 ^ s.width = s.acc.toNat / 2 ^ s.width

/-- `SetZN` of the number `r` at the active width of `s` (R33). -/
def ZNOf (s t : State) (r : Nat) : Prop :=
  t.z = decide (r % 2 ^ s.width = 0) ∧ t.n = r.testBit (s.width - 1)

/-- The integer `x` is outside the signed range of the active width of `s` (R12, R13). -/
def OutOfRange (s : State) (x : Int) : Prop := x < -2 ^ (s.width - 1) ∨ x > 2 ^ (s.width - 1) - 1

/-- The nibbles `op` encode an instruction that takes `OP2` (R113, R114, R116, R117): alone with `RS0` while
bit 3 of `CFG` is 0, else followed by the `Wn` nibbles of an immediate. -/
def EncodedWithOp2 (op : List Nibble) (mk : Operand → Instr) : Prop :=
  ∀ (p : Params) (cfg : Byte) (rest : List Nibble),
    (cfg.getLsbD 3 = false → decode p cfg false (op ++ rest) = .ok (mk .rs0, rest)) ∧
    (cfg.getLsbD 3 = true → ∀ imm : List Nibble, imm.length = modeNibbles (linkMode cfg) →
      ∃ v : Imm, immNat v = immValue p.immOrder imm ∧ v.fits (linkMode cfg) = true ∧
        decode p cfg false (op ++ imm ++ rest) = .ok (mk (.imm v), rest))

/-- Every byte of memory reads in `t` as in `s`. -/
def SameMemory (s t : State) : Prop := ∀ a : Word, readByte t a = readByte s a

/-- `t` is `s` after a logical instruction (R170): the active accumulator combined with `OP2` bit by bit,
`Z` and `N` from the result, nothing else changed. -/
def BitwiseTo (f : Bool → Bool → Bool) (op2 : Operand) (s t : State) : Prop :=
  ∃ r : Nat, (∀ k, r.testBit k = (decide (k < s.width) && f ((accNat s).testBit k) ((op2Nat s op2).testBit k))) ∧
    AccBecomes s t r ∧ ZNOf s t r ∧ t = { s with acc := t.acc, z := t.z, n := t.n } ∧ SameMemory s t

/-- Every byte of memory outside `as` reads in `t` as in `s`. -/
def SameMemoryOutside (as : List Word) (s t : State) : Prop := ∀ a : Word, a ∉ as → readByte t a = readByte s a

/-- Every address of the list may be read under `MEMORY_MAP` (R83). -/
def Readable (s : State) (as : List Word) : Prop := ∀ a ∈ as, readRefusal s a = none

/-- Every address of the list may be stored to under `MEMORY_MAP` (R83). -/
def Writable (s : State) (as : List Word) : Prop := ∀ a ∈ as, storeRefusal s a = none

/-- The addresses stored to since reset (R98, log entry 11) are in `t` those of `s` and those of the list. -/
def Recorded (as : List Word) (s t : State) : Prop :=
  ∀ k : Nat, k ∈ t.modified ↔ k ∈ s.modified ∨ ∃ a ∈ as, k = a.toNat

/-- `XMEM #f` touches the byte at `a` (R89): the one at its address, and in LK16 and SPE the one after it. -/
def XmemTouches (f : XmemFn) (s : State) (a : Word) : Prop :=
  a = xmemAddr f s ∨ ((s.mode = .lk16 ∨ s.mode = .spe) ∧ a = xmemAddr f s + 1)

/-- `a` is one of the eight bytes of the interrupt frame in a page (R93). -/
def InFrame (page : Byte) (a : Word) : Prop := ∃ k < 8, a = BitVec.ofNat 16 (256 * page.toNat + k)

/-- The field at bit `k` of `EVTCTRL` is present: the *present when* column of R62. -/
def evtPresent (p : Params) (k : Nat) : Bool :=
  p.baseline &&
    match k with
    | 0 | 1 | 8 | 9 | 11 => p.int
    | 2 => p.int && p.time
    | 7 | 10 => p.time
    | 12 => p.debug
    | _ => false

/-- A source is pending and enabled by its own enable bit, the timer only with `WDOG = 0` (R63, R264). -/
def SourceEnabled (s : State) : Prop :=
  (s.evtBit 0 = true ∧ s.evtBit 11 = true) ∨ (s.evtBit 1 = true ∧ s.evtBit 9 = true) ∨
    (s.evtBit 2 = true ∧ s.evtBit 7 = false ∧ s.evtBit 10 = true)

/-- The wake condition of R264: with `WFI_WAKE = taken` it also asks for `CFG.IE = 1`. -/
def WakeCondition (s : State) : Prop :=
  SourceEnabled s ∧ (s.params.wfiWake = .taken → s.cfg.getLsbD 4 = true)

/-- `t` is `s` after `k` ticks of the timer (R320, R321): `TIMER` counts them modulo 2^16, and `T_P` is set
where one of them made it equal to `TIMERCMP`. -/
def TickedBy (k : Nat) (s t : State) : Prop :=
  t.timer = s.timer + BitVec.ofNat 16 k ∧
    (s.params.baseline = true → (t.evtBit 10 = true ↔
      s.evtBit 10 = true ∨ ∃ j, 1 ≤ j ∧ j ≤ k ∧ s.timer + BitVec.ofNat 16 j = s.timercmp))

/-- One of `k` ticks from `s` is a match with `WDOG = 1`, so that the watchdog resets the core (R321, R322). -/
def WatchdogFires (k : Nat) (s : State) : Prop :=
  s.params.time = true ∧ s.evtBit 7 = true ∧
    ∃ j, 1 ≤ j ∧ j ≤ k ∧ s.timer + BitVec.ofNat 16 j = s.timercmp

/-- `t` is `s` after `k` ticks and nothing else: without the time profile `TIMER` stands still, and no bit of
`EVTCTRL` but `T_P` changes (R320, R321). -/
def TicksTo (k : Nat) (s t : State) : Prop :=
  (s.params.time = true → TickedBy k s t) ∧ (s.params.time = false → t = s) ∧
    (∀ b, b ≠ 10 → t.evtBit b = s.evtBit b) ∧ t = { s with timer := t.timer, evtctrl := t.evtctrl }

/-- The step from `s` is at neither an interrupt entry nor a sleep: it runs an instruction (R306). -/
def RunsInstr (s : State) : Prop := interruptDue (boundary s) = false ∧ asleep (boundary s) = false

/-- The instruction `i`, of `len` nibbles, is what the step from `s` fetches. -/
def Fetches (s : State) (i : Instr) (len : Nat) : Prop := fetchInstr (boundary s) = .ok (i, len)

/-- What holds of the state at every instruction boundary: memory and the record of stored bytes are in
canonical form, no prefix is pending (R27), absent and reserved bits of `EVTCTRL` are 0 (R62). -/
structure StateInv (s : State) : Prop where
  memory : s.mem.wf = true
  stored : risingFrom 0 s.modified = true
  noPrefix : s.xopp = false
  events : s.evtctrl &&& ~~~(evtMask s.params) = 0

end Sys2Proof
end

