-- ==== Sys2Proof/Certificates/Slice0/Obligations.lean ====
section
/-! DEFINITION. The statements for the provers. -/

open Sys2Proof Sys2Proof.Machine

/-! ### Encoding -/

/-- R113, R114, R118: decoding the nibbles that encode a well-formed instruction gives it back and leaves
the nibbles after it; the prefix alone decodes where the list ends after it (assumption 5). -/
def Obligations.DecodeOfEncode : Prop :=
  ∀ (p : Params) (cfg : Byte) (i : Instr) (rest : List Nibble),
    i.wf p cfg = true → (i = .xop → rest = []) →
      decode p cfg false (encode p i ++ rest) = .ok (i, rest)

/-- The other direction: what is decoded encodes to exactly the nibbles it was read from, and is
well-formed under the `CFG` and profile set it was read under (R115, R122, R123). -/
def Obligations.EncodeOfDecode : Prop :=
  ∀ (p : Params) (cfg : Byte) (i : Instr) (nibs rest : List Nibble),
    decode p cfg false nibs = .ok (i, rest) → encode p i ++ rest = nibs ∧ i.wf p cfg = true

/-- R110, R118: the decoder is total. Six nibbles are always enough, and an instruction has 1 to 6. -/
def Obligations.SixNibblesAlwaysDecode : Prop :=
  ∀ (p : Params) (cfg : Byte) (xopp : Bool) (nibs : List Nibble), 6 ≤ nibs.length →
    ∃ (i : Instr) (rest : List Nibble), decode p cfg xopp nibs = .ok (i, rest) ∧
      rest.length + 1 ≤ nibs.length ∧ nibs.length ≤ rest.length + 6 ∧ i ≠ .xop

/-- Words written out from the encodings of the spec decode to their instructions (R113, R116, R117). -/
def Obligations.WordsOfTheSpecDecode : Prop :=
  decode defaultParams 0x00 false [0x1] = .ok (.add .rs0, []) ∧
  decode defaultParams 0x0A false [0x1, 0x4, 0x3, 0x2, 0x1] = .ok (.add (.imm (.w16 0x1234)), []) ∧
  decode defaultParams 0x00 false [0x8, 0x1] = .ok (.sub .rs0, []) ∧
  decode defaultParams 0x02 false [0x4, 0x0, 0x0, 0x8, 0x0] = .ok (.ldi (.w16 0x0800), []) ∧
  decode defaultParams 0x00 false [0x2, 0xA, 0x4] = .ok (.cfg 0x4A, []) ∧
  decode defaultParams 0x40 false [0x8, 0x7, 0x0, 0x1] = .ok (.bc (.w8 0x10), []) ∧
  decode defaultParams 0x00 false [0xC, 0xE] = .ok (.xmem ⟨true, true, true, false⟩, []) ∧
  decode defaultParams 0x02 false [0x8, 0x6, 0x5] = .ok (.csrst 5, []) ∧
  decode defaultParams 0x00 false [0x6] = .ok (.racc, []) ∧
  decode { defaultParams with mad := true } 0x03 false [0x8, 0xC, 0xE] = .ok (.mad ⟨3, true, false⟩, []) ∧
  decode defaultParams 0x03 false [0x8, 0xC] = .ok (.reti, [])

/-! ### Fetch and step -/

/-- R26: fetching one nibble goes to the second nibble of the byte, or to the first nibble of the next
byte, `0xFFFF` wrapping to `0x0000`; moving past `k + 1` nibbles is moving past `k` and then one. -/
def Obligations.AdvanceIsNibbleByNibble : Prop :=
  ∀ (s : State) (k : Nat),
    advance 1 s = (if s.nib then { s with nib := false, pc := s.pc + 1, xopp := false }
      else { s with nib := true, xopp := false }) ∧
    advance (k + 1) s = advance 1 (advance k s)

/-- R111: with `NIBBLE_FIRST = low` the nibble in bits 3:0 of the byte at `PC` comes first, with `high`
the one in bits 7:4; for a byte that is backed and that no store has written since reset (R98). -/
def Obligations.FetchedNibble : Prop :=
  ∀ s : State, readRefusal s s.pc = none → (s.pc.toNat ∉ s.modified ∨ s.params.fetchSeesStores = true) →
    fetchNibble s 0 = .ok
      (if (s.params.nibbleFirst == .low) == s.nib then (readByte s s.pc).extractLsb' 4 4
       else (readByte s s.pc).extractLsb' 0 4)

/-- R98: with `FETCH_SEES_STORES` false, a nibble of a byte that was stored to since reset is the
model-fault `FetchOfModifiedByte`, and so the step that begins with it stops. -/
def Obligations.FetchOfModifiedByteStops : Prop :=
  ∀ s : State, readRefusal s s.pc = none → s.params.fetchSeesStores = false → s.pc.toNat ∈ s.modified →
    fetchNibble s 0 = .error (.fault (.fetchOfModifiedByte s.pc)) ∧
    (RunsInstr s → step s = .fault (.fetchOfModifiedByte s.pc))

/-- A step runs the decoded instruction: where the nibbles at the fetch position decode to `i` and no
interrupt entry or sleep comes first, the step is `exec i` with the fetch position after the
instruction, followed by the retirement (R29, R306). -/
def Obligations.StepRunsDecodedInstruction : Prop :=
  ∀ (s : State) (i : Instr) (nibs : List Nibble), RunsInstr s →
    (∀ (k : Nat) (h : k < nibs.length), fetchNibble (boundary s) k = .ok nibs[k]) →
    decode (boundary s).params (boundary s).cfg (boundary s).xopp nibs = .ok (i, []) → i ≠ .xop →
      step s =
        match exec i (advance nibs.length (boundary s)) with
        | .next t => .next (retire (envInput s).extraTicks (stepArmed (boundary s)) i t)
        | .fault f => .fault f
        | .refused r => .refused r

/-- R27, R112: running the prefix `XOP` alone and then the instruction at the next nibble is running the
pair as one instruction (the two states at a boundary differ only in how far the fetch has gone). -/
def Obligations.PrefixThenOpcodeIsOneInstruction : Prop :=
  ∀ (s t : State) (extra : Nat), s.xopp = false → fetchNibble s 0 = .ok xopNibble →
    exec .xop (advance 1 s) = .next t → runInstr extra s = runInstr extra t

/-! ### Arithmetic -/

/-- R150, R12: `ADD`, the nibble `0001`, for both operand forms, in every link mode. That `ACC[15:Wd]` keeps its
value is the spec's decision D8; the formula of `V` is R12's, which the spec marks as derived. -/
def Obligations.AddResult : Prop :=
  EncodedWithOp2 [0x1] .add ∧
  ∀ (op2 : Operand) (s : State), ∃ t : State, exec (.add op2) s = .next t ∧
    AccBecomes s t (accNat s + op2Nat s op2 + carryNat s) ∧
    t.c = decide (2 ^ s.width ≤ accNat s + op2Nat s op2 + carryNat s) ∧
    (t.v = true ↔ OutOfRange s (sintOf s.width (accNat s) + sintOf s.width (op2Nat s op2) + carryNat s)) ∧
    ZNOf s t (accNat s + op2Nat s op2 + carryNat s) ∧
    t = { s with acc := t.acc, c := t.c, v := t.v, z := t.z, n := t.n } ∧ SameMemory s t

/-- R151, R13: `SUB`, the nibbles `1000 0001`, for both operand forms, in every link mode; `C = 1` means
borrow. The formula of `V` is R13's, which the spec marks as derived. -/
def Obligations.SubResult : Prop :=
  EncodedWithOp2 [0x8, 0x1] .sub ∧
  ∀ (op2 : Operand) (s : State), ∃ (t : State) (r : Nat), exec (.sub op2) s = .next t ∧
    (r : Int) = ((accNat s : Int) - op2Nat s op2 - carryNat s) % 2 ^ s.width ∧
    AccBecomes s t r ∧
    t.c = decide (accNat s < op2Nat s op2 + carryNat s) ∧
    (t.v = true ↔ OutOfRange s (sintOf s.width (accNat s) - sintOf s.width (op2Nat s op2) - carryNat s)) ∧
    ZNOf s t r ∧
    t = { s with acc := t.acc, c := t.c, v := t.v, z := t.z, n := t.n } ∧ SameMemory s t

/-- R152: `INC`, the one nibble `1001` in every mode, adds 1 whatever `CFG.CI` and `C` are. The formula of
`V` is R12's, which the spec marks as derived. -/
def Obligations.IncResult : Prop :=
  (∀ (p : Params) (cfg : Byte) (rest : List Nibble), decode p cfg false (0x9 :: rest) = .ok (.inc, rest)) ∧
  ∀ s : State, ∃ t : State, exec .inc s = .next t ∧
    AccBecomes s t (accNat s + 1) ∧
    t.c = decide (2 ^ s.width ≤ accNat s + 1) ∧
    (t.v = true ↔ OutOfRange s (sintOf s.width (accNat s) + 1)) ∧
    ZNOf s t (accNat s + 1) ∧
    t = { s with acc := t.acc, c := t.c, v := t.v, z := t.z, n := t.n } ∧ SameMemory s t

/-- R153: `DEC`, the two nibbles `1000 1001` in every mode, subtracts 1; 0 goes to all ones with borrow.
The formula of `V` is R13's, which the spec marks as derived. -/
def Obligations.DecResult : Prop :=
  (∀ (p : Params) (cfg : Byte) (rest : List Nibble),
    decode p cfg false (0x8 :: 0x9 :: rest) = .ok (.dec, rest)) ∧
  ∀ s : State, ∃ (t : State) (r : Nat), exec .dec s = .next t ∧
    r = (if accNat s = 0 then 2 ^ s.width - 1 else accNat s - 1) ∧
    AccBecomes s t r ∧
    t.c = decide (accNat s = 0) ∧
    (t.v = true ↔ OutOfRange s (sintOf s.width (accNat s) - 1)) ∧
    ZNOf s t r ∧
    t = { s with acc := t.acc, c := t.c, v := t.v, z := t.z, n := t.n } ∧ SameMemory s t

/-- R154: `CMP` leaves the flags of `SUB` on the same operands and writes no register
(decision D11 for when its operand is an immediate). -/
def Obligations.CmpHasFlagsOfSub : Prop :=
  ∀ (op2 : Operand) (s : State), ∃ t u : State, exec (.cmp op2) s = .next t ∧ exec (.sub op2) s = .next u ∧
    t = { s with c := u.c, v := u.v, z := u.z, n := u.n } ∧
    t.c = decide (accNat s < op2Nat s op2 + carryNat s) ∧
    t.z = decide (((accNat s : Int) - op2Nat s op2 - carryNat s) % 2 ^ s.width = 0) ∧ SameMemory s t

/-! ### Logic and bits -/

/-- R170, R172, R173: `AND`, `OR`, `XOR` bit by bit within the active width, `Z` and `N` from the result,
`C` and `V` kept; their nibbles are `0101`, `1101`, `1000 1101`. -/
def Obligations.LogicalResults : Prop :=
  EncodedWithOp2 [0x5] .and ∧ EncodedWithOp2 [0xD] .or ∧ EncodedWithOp2 [0x8, 0xD] .xor ∧
  ∀ (op2 : Operand) (s : State), ∃ t u v : State,
    exec (.and op2) s = .next t ∧ exec (.or op2) s = .next u ∧ exec (.xor op2) s = .next v ∧
    BitwiseTo Bool.and op2 s t ∧ BitwiseTo Bool.or op2 s u ∧ BitwiseTo Bool.xor op2 s v

/-- R171: `INV`, the two nibbles `1000 0101` whatever `CFG.IMM` is, inverts the active bits only. -/
def Obligations.InvResult : Prop :=
  (∀ (p : Params) (cfg : Byte) (rest : List Nibble),
    decode p cfg false (0x8 :: 0x5 :: rest) = .ok (.inv, rest)) ∧
  ∀ s : State, ∃ t : State, exec .inv s = .next t ∧
    AccBecomes s t (2 ^ s.width - 1 - accNat s) ∧ ZNOf s t (2 ^ s.width - 1 - accNat s) ∧
    t = { s with acc := t.acc, z := t.z, n := t.n } ∧ SameMemory s t

/-- R180: `SHL`, the nibble `0011`, doubles the active accumulator; `C` is the expelled bit, `V` is kept. -/
def Obligations.ShlResult : Prop :=
  (∀ (p : Params) (cfg : Byte) (rest : List Nibble), decode p cfg false (0x3 :: rest) = .ok (.shl, rest)) ∧
  ∀ s : State, ∃ t : State, exec .shl s = .next t ∧
    AccBecomes s t (2 * accNat s) ∧ ZNOf s t (2 * accNat s) ∧
    t.c = (accNat s).testBit (s.width - 1) ∧
    t = { s with acc := t.acc, c := t.c, z := t.z, n := t.n } ∧ SameMemory s t

/-- R181: `SHR`, the nibbles `1000 0011`, halves the active accumulator, logically whatever `CFG.SIGN` is
(the spec's decision D10); `C` is the expelled bit, `N` is 0, `V` is kept. -/
def Obligations.ShrResult : Prop :=
  (∀ (p : Params) (cfg : Byte) (rest : List Nibble),
    decode p cfg false (0x8 :: 0x3 :: rest) = .ok (.shr, rest)) ∧
  ∀ s : State, ∃ t : State, exec .shr s = .next t ∧
    AccBecomes s t (accNat s / 2) ∧ ZNOf s t (accNat s / 2) ∧ t.n = false ∧
    t.c = decide (accNat s % 2 = 1) ∧
    t = { s with acc := t.acc, c := t.c, z := t.z, n := t.n } ∧ SameMemory s t

/-- R184: `BTST` tests bit `idx` of all 16 bits of `ACC` in every mode (the spec's decision D13); `C` is the
bit, `Z` its complement, nothing else changes. -/
def Obligations.BtstResult : Prop :=
  ∀ (idx : BitIndex) (s : State), ∃ (t : State) (k : Nat), exec (.btst idx) s = .next t ∧
    (idx = .rs0 → k = s.rs0.toNat % 16) ∧ (∀ v, idx = .imm v → k = v.toNat) ∧ k < 16 ∧
    t = { s with c := s.acc.toNat.testBit k, z := !s.acc.toNat.testBit k } ∧ SameMemory s t

/-- R186: `TST`, the nibbles `1000 1011`, sets `Z` and `N` from `A & mask`, and `C` to its being nonzero where
`TST_WRITES_C`; `ACC` and `V` are kept. -/
def Obligations.TstResult : Prop :=
  EncodedWithOp2 [0x8, 0xB] .tst ∧
  ∀ (op2 : Operand) (s : State), ∃ t : State, exec (.tst op2) s = .next t ∧
    ZNOf s t (accNat s &&& op2Nat s op2) ∧
    t.c = (if s.params.tstWritesC then decide (accNat s &&& op2Nat s op2 ≠ 0) else s.c) ∧
    t = { s with c := t.c, z := t.z, n := t.n } ∧ SameMemory s t

/-! ### Control flow -/

/-- R190, R191, R192: `BEQz` and `BC`, for both immediate widths and both scales. Taken (`Z = 1`, `C = 1`), the
target is `PC_next` plus the sign-extended, scaled immediate, first nibble of its byte; `PC_next` in the
middle of a byte is rounded up under `PCNEXT_MIDBYTE = round_up` (decision D3). Not taken, execution goes
on at `(PC, NIB)` and nothing changes. -/
def Obligations.BranchResult : Prop :=
  ∀ (off : BranchImm) (s : State),
    (s.z = false → exec (.beqz off) s = .next s) ∧ (s.c = false → exec (.bc off) s = .next s) ∧
    ((s.nib = true → s.params.pcNextMidByte = .roundUp) →
      ∃ t : State, (s.z = true → exec (.beqz off) s = .next t) ∧ (s.c = true → exec (.bc off) s = .next t) ∧
        (t.pc.toNat : Int) =
          ((s.pc.toNat : Int) + s.nib.toNat +
            branchInt off * (if s.cfg.getLsbD 5 then 4 else 1)) % 65536 ∧
        t = { s with pc := t.pc, nib := false } ∧ SameMemory s t)

/-- R24, R306: in the middle of a byte, a taken branch and a `JAL` stop with `MidBytePCNext` where
`PCNEXT_MIDBYTE = fault`, and interrupt entry does where `INT_MIDBYTE = fault`. -/
def Obligations.MidBytePcNextStops : Prop :=
  ∀ (off : BranchImm) (s : State), s.nib = true →
    (s.params.pcNextMidByte = .fault → exec .jal s = .fault (.midBytePcNext s.pc) ∧
      (s.z = true → exec (.beqz off) s = .fault (.midBytePcNext s.pc)) ∧
      (s.c = true → exec (.bc off) s = .fault (.midBytePcNext s.pc))) ∧
    (s.params.intMidByte = .fault → takeInterrupt s = .fault (.midBytePcNext s.pc))

/-- R193: `JAL` links `PC_next` in `RA1` and goes to `RA0`; in the middle of a byte the link is rounded up
under `PCNEXT_MIDBYTE = round_up` (decision D3). -/
def Obligations.JalLinksAndJumps : Prop :=
  ∀ s : State, (s.nib = true → s.params.pcNextMidByte = .roundUp) →
    exec .jal s = .next { s with ra1 := s.pc + BitVec.ofNat 16 s.nib.toNat, pc := s.ra0, nib := false }

/-- R194: `JMP`, the nibbles `1000 1111`, goes to `RA0`, first nibble of the byte; `RA0` and `RA1` are kept. -/
def Obligations.JmpJumps : Prop :=
  (∀ (p : Params) (cfg : Byte) (rest : List Nibble),
    decode p cfg false (0x8 :: 0xF :: rest) = .ok (.jmp, rest)) ∧
  ∀ s : State, exec .jmp s = .next { s with pc := s.ra0, nib := false }

/-! ### Configuration and register moves -/

/-- R200: `CFG #imm`, three nibbles in every mode, writes all eight bits of `CFG` and nothing else. -/
def Obligations.CfgLoadsAllEightBits : Prop :=
  (∀ (p : Params) (cfg v : Byte) (rest : List Nibble), ∃ nibs : List Nibble, nibs.length = 2 ∧
    decode p cfg false (0x2 :: nibs ++ rest) = .ok (.cfg v, rest)) ∧
  ∀ (v : Byte) (s : State), exec (.cfg v) s = .next { s with cfg := v }

/-- R203, R204: `RACC` and `RRS` rotate all 16 bits of `ACC` or `RS0` by the active width, in the direction
`ROT_DIR` (decision D9), and write no flag. -/
def Obligations.RotatesByActiveWidth : Prop :=
  ∀ s : State, ∃ t u : State, exec .racc s = .next t ∧ exec .rrs s = .next u ∧
    (∀ k < 16, t.acc.getLsbD k =
      s.acc.getLsbD ((k + (if s.params.rotDir = .right then s.width else 16 - s.width)) % 16)) ∧
    (∀ k < 16, u.rs0.getLsbD k =
      s.rs0.getLsbD ((k + (if s.params.rotDir = .right then s.width else 16 - s.width)) % 16)) ∧
    t = { s with acc := t.acc } ∧ u = { s with rs0 := u.rs0 } ∧ SameMemory s t ∧ SameMemory s u

/-- R205, R206, R208: `RSS`, `RSA` and `SA` exchange two 16-bit registers in every mode and write nothing
else; their words are `1010`, `1000 1010`, `1000 1110`. -/
def Obligations.FullWidthExchanges : Prop :=
  (∀ (p : Params) (cfg : Byte) (rest : List Nibble),
    decode p cfg false (0xA :: rest) = .ok (.rss, rest) ∧
    decode p cfg false (0x8 :: 0xA :: rest) = .ok (.rsa, rest) ∧
    decode p cfg false (0x8 :: 0xE :: rest) = .ok (.sa, rest)) ∧
  ∀ s : State, exec .rss s = .next { s with rs0 := s.rs1, rs1 := s.rs0 } ∧
    exec .rsa s = .next { s with ra0 := s.ra1, ra1 := s.ra0 } ∧
    exec .sa s = .next { s with acc := s.ra0, ra0 := s.acc }

/-- R207: `SS`, the nibble `1110`, exchanges the low `Wd` bits of `ACC` and `RS0`, keeps the bits above, and
restores both registers when it runs twice. -/
def Obligations.SsExchangesActiveBits : Prop :=
  (∀ (p : Params) (cfg : Byte) (rest : List Nibble), decode p cfg false (0xE :: rest) = .ok (.ss, rest)) ∧
  ∀ s : State, ∃ t : State, exec .ss s = .next t ∧ exec .ss t = .next s ∧
    AccBecomes s t s.rs0.toNat ∧
    t.rs0.toNat % 2 ^ s.width = accNat s ∧ t.rs0.toNat / 2 ^ s.width = s.rs0.toNat / 2 ^ s.width ∧
    t = { s with acc := t.acc, rs0 := t.rs0 } ∧ SameMemory s t

/-- R209: `LDi` loads the low `Wd` bits of `ACC` and writes no flag (decision D14). -/
def Obligations.LdiResult : Prop :=
  ∀ (v : Imm) (s : State), ∃ t : State, exec (.ldi v) s = .next t ∧
    AccBecomes s t (immNat v) ∧ t = { s with acc := t.acc } ∧ SameMemory s t

/-- R211, R210, R276: `NOP` and the profile opcodes that act as it change nothing; the prefix sets only
`XOPP`. -/
def Obligations.NopsAndPrefix : Prop :=
  (∀ (p : Params) (cfg : Byte) (rest : List Nibble), decode p cfg false (0x0 :: rest) = .ok (.nop, rest)) ∧
  ∀ (s : State) (o : ProfileOpcode), exec .nop s = .next s ∧ exec (.madNop o) s = .next s ∧
    exec .xop s = .next { s with xopp := true }

/-! ### Memory -/

/-- R82, R83, R86: a byte reads as what was stored there last, every other byte as before, and memory stays
canonical. -/
def Obligations.StoredByteReadsBack : Prop :=
  ∀ (s : State) (a : Word) (b : Byte), s.mem.wf = true →
    readByte (storeByte s a b) a = b ∧ SameMemoryOutside [a] s (storeByte s a b) ∧
    (storeByte s a b).mem.wf = true

/-- R220, R221, R223: an `XMEM` load, for all eight functions and every mode: the address accessed, what is
loaded, and the address register after; memory and flags are kept. -/
def Obligations.XmemLoadResult : Prop :=
  ∀ (f : XmemFn) (s : State), f.store = false → Readable s (xmemAddrs f s) →
    ∃ t : State, exec (.xmem f) s = .next t ∧
      (s.mode = .ul → AccBecomes s t (readByte s (xmemAddr f s)).toNat) ∧
      (s.mode = .lk8 → AccBecomes s t (readByte s (xmemAddr f s)).toNat) ∧
      (s.mode = .lk16 ∨ s.mode = .spe →
        t.acc = readByte s (xmemAddr f s + 1) ++ readByte s (xmemAddr f s)) ∧
      t = { s with acc := t.acc, ra0 := t.ra0, ra1 := t.ra1 } ∧
      (f.ra1 = true → t.ra0 = s.ra0) ∧ (f.ra1 = false → t.ra1 = s.ra1) ∧ SameMemory s t

/-- R220, R222: an `XMEM` store, for all eight functions and every mode: the bytes stored at the address of
the meaning, every other byte kept, and no register but the address register. The stored addresses are
recorded as written since reset (R98, decision D35; the record is the model's own field, log entry 11). -/
def Obligations.XmemStoreResult : Prop :=
  ∀ (f : XmemFn) (s : State), f.store = true → Writable s (xmemAddrs f s) → s.mem.wf = true →
    ∃ t : State, exec (.xmem f) s = .next t ∧
      (s.mode = .ul → readByte t (xmemAddr f s) =
        (readByte s (xmemAddr f s)).extractLsb' 4 4 ++ s.acc.extractLsb' 0 4) ∧
      (s.mode = .lk8 → readByte t (xmemAddr f s) = s.acc.extractLsb' 0 8) ∧
      (s.mode = .lk16 ∨ s.mode = .spe → readByte t (xmemAddr f s) = s.acc.extractLsb' 0 8 ∧
        readByte t (xmemAddr f s + 1) = s.acc.extractLsb' 8 8) ∧
      SameMemoryOutside (xmemAddrs f s) s t ∧ Recorded (xmemAddrs f s) s t ∧
      t = { s with ra0 := t.ra0, ra1 := t.ra1, mem := t.mem, modified := t.modified } ∧
      (f.ra1 = true → t.ra0 = s.ra0) ∧ (f.ra1 = false → t.ra1 = s.ra1)

/-- R220, R223: the address accessed and the address register after it, by AM and DIR, with the stride of
1 byte in UL and LK8 and 2 bytes in LK16 and SPE, modulo 2^16. -/
def Obligations.XmemAddressing : Prop :=
  ∀ (f : XmemFn) (s t : State) (R R' stride : Word), exec (.xmem f) s = .next t →
    R = (if f.ra1 then s.ra1 else s.ra0) → R' = (if f.ra1 then t.ra1 else t.ra0) →
    stride = (if s.mode = .ul ∨ s.mode = .lk8 then 1 else 2) →
    (f.auto = false → xmemAddr f s = R ∧ R' = R) ∧
    (f.auto = true → f.dec = false → xmemAddr f s = R ∧ R' = R + stride) ∧
    (f.auto = true → f.dec = true → xmemAddr f s = R - stride ∧ R' = R - stride)

/-- R83, R314: an access that `MEMORY_MAP` does not back is refused by name: a load and the fetch of a nibble
from nothing, a store to ROM or to nothing, whichever of its bytes it is; and so are an interrupt entry
whose frame is not all RAM and a `RETI` whose frame is not all readable. -/
def Obligations.UnbackedAccessesRefused : Prop :=
  ∀ (s : State) (f : XmemFn) (a : Word),
    (f.store = false → backingAt s.params.memoryMap (xmemAddr f s).toNat = .nothing →
      exec (.xmem f) s = .refused (.unbackedAddress (xmemAddr f s))) ∧
    (f.store = true → backingAt s.params.memoryMap (xmemAddr f s).toNat = .nothing →
      exec (.xmem f) s = .refused (.unbackedAddress (xmemAddr f s))) ∧
    (f.store = true → backingAt s.params.memoryMap (xmemAddr f s).toNat = .rom →
      exec (.xmem f) s = .refused (.storeToRom (xmemAddr f s))) ∧
    (f.store = false → XmemTouches f s a → backingAt s.params.memoryMap a.toNat = .nothing →
      ∃ b, XmemTouches f s b ∧ backingAt s.params.memoryMap b.toNat = .nothing ∧
        exec (.xmem f) s = .refused (.unbackedAddress b)) ∧
    (f.store = true → XmemTouches f s a → backingAt s.params.memoryMap a.toNat ≠ .ram →
      ∃ b, XmemTouches f s b ∧
        ((backingAt s.params.memoryMap b.toNat = .nothing ∧ exec (.xmem f) s = .refused (.unbackedAddress b)) ∨
          (backingAt s.params.memoryMap b.toNat = .rom ∧ exec (.xmem f) s = .refused (.storeToRom b)))) ∧
    (InFrame s.ia a → backingAt s.params.memoryMap a.toNat ≠ .ram → pcNext s ≠ none →
      (s.nib = true → s.params.intMidByte ≠ .fault) →
      ∃ b, InFrame s.ia b ∧
        ((backingAt s.params.memoryMap b.toNat = .nothing ∧ takeInterrupt s = .refused (.unbackedAddress b)) ∨
          (backingAt s.params.memoryMap b.toNat = .rom ∧ takeInterrupt s = .refused (.storeToRom b)))) ∧
    (InFrame s.iar a → backingAt s.params.memoryMap a.toNat = .nothing →
      ∃ b, InFrame s.iar b ∧ backingAt s.params.memoryMap b.toNat = .nothing ∧
        exec .reti s = .refused (.unbackedAddress b)) ∧
    (backingAt s.params.memoryMap s.pc.toNat = .nothing →
      fetchNibble s 0 = .error (.refusal (.unbackedAddress s.pc)))

/-- R81, R80 and all rules of instructions: among the instructions only an `XMEM` store writes memory. -/
def Obligations.OnlyXmemStoresWriteMemory : Prop :=
  ∀ (i : Instr) (s t : State), exec i s = .next t → (∀ f : XmemFn, i = .xmem f → f.store = false) →
    t.mem = s.mem ∧ t.modified = s.modified ∧ SameMemory s t

/-! ### CSRs -/

/-- R241, R62: `CSRLD` for all sixteen indexes and every profile set; no flag and nothing else is written.
`EVTCTRL` reads bit by bit, absent fields and reserved bits as 0, and as 0 without the Baseline Profile. -/
def Obligations.CsrldReadsTheMap : Prop :=
  ∀ (idx : BitVec 4) (s : State), ∃ t : State, exec (.csrld idx) s = .next t ∧
    t = { s with acc := t.acc } ∧ SameMemory s t ∧
    (idx = 0 → t.acc.toNat = 0x800 * s.params.mad.toNat + 0x400 * (s.params.debug).toNat +
      0x200 * s.params.int.toNat + 0x10 * s.params.cpuidVendor.toNat + s.params.cpuidImpl.toNat) ∧
    (idx = 1 → t.acc.toNat = 0x800 * s.v.toNat + 0x400 * s.n.toNat + 0x200 * s.z.toNat +
      0x100 * s.c.toNat + s.cfg.toNat) ∧
    (idx = 2 → t.acc = if s.params.baseline then s.gpr1 else 0) ∧
    (idx = 3 → t.acc = if s.params.baseline then s.gpr2 else 0) ∧
    (idx = 4 → t.acc = if s.params.baseline then s.gpr3 else 0) ∧
    (idx = 5 → t.acc = if s.params.time then s.timer else 0) ∧
    (idx = 6 → t.acc = if s.params.time then s.timercmp else 0) ∧
    (idx = 7 → t.acc = s.evt ∧ (∀ k < 16, t.acc.getLsbD k = (s.evtctrl.getLsbD k && evtPresent s.params k)) ∧
      (s.params.baseline = false → t.acc = 0)) ∧
    (idx = 8 → t.acc.toNat = if s.params.int then s.ia.toNat else 0) ∧
    (9 ≤ idx.toNat → t.acc = 0)

/-- R242: `CSRST` for all sixteen indexes but 7 and every profile set: the one register written, the flags
and everything else kept. -/
def Obligations.CsrstWritesTheMap : Prop :=
  ∀ (idx : BitVec 4) (s : State), idx ≠ 7 → exec (.csrst idx) s = .next
    (if idx = 1 then { s with cfg := s.acc.extractLsb' 0 8 }
     else if idx = 2 ∧ s.params.baseline then { s with gpr1 := s.acc }
     else if idx = 3 ∧ s.params.baseline then { s with gpr2 := s.acc }
     else if idx = 4 ∧ s.params.baseline then { s with gpr3 := s.acc }
     else if idx = 5 ∧ s.params.time then { s with timer := s.acc }
     else if idx = 6 ∧ s.params.time then { s with timercmp := s.acc }
     else if idx = 8 ∧ s.params.int then { s with ia := s.acc.extractLsb' 0 8 }
     else s)

/-- R66, R62: `CSRST #7` bit by bit: the plain bits take the written value, the pending bits are cleared by
a written 1, `IN_ISR` is kept, the reserved bits read 0, each where its field is present; without the
Baseline Profile the write is ignored. -/
def Obligations.CsrstEvtctrlBitByBit : Prop :=
  ∀ s : State, ∃ t : State, exec (.csrst 7) s = .next t ∧
    t = { s with evtctrl := t.evtctrl } ∧ SameMemory s t ∧ (s.params.baseline = false → t = s) ∧
    (s.params.baseline = true →
      t.evtBit 0 = (s.params.int && s.acc.getLsbD 0) ∧
      t.evtBit 1 = (s.params.int && s.acc.getLsbD 1) ∧
      t.evtBit 2 = (s.params.int && s.params.time && s.acc.getLsbD 2) ∧
      t.evtBit 7 = (s.params.time && s.acc.getLsbD 7) ∧
      t.evtBit 8 = s.evtBit 8 ∧
      t.evtBit 9 = (s.evtBit 9 && !s.acc.getLsbD 9) ∧
      t.evtBit 10 = (s.evtBit 10 && !s.acc.getLsbD 10) ∧
      t.evtBit 11 = (s.evtBit 11 && !s.acc.getLsbD 11) ∧
      t.evtBit 12 = (s.params.debug && s.acc.getLsbD 12)) ∧
    (∀ k, (3 ≤ k ∧ k ≤ 6) ∨ 13 ≤ k → t.evtBit k = false)

/-! ### Interrupts -/

/-- R71, R306: at a boundary the environment's input is the head of the list, which is consumed, or, where the
list has run out, a free value (log entry 3): where it raises the external interrupt, `EXT_P` is set on a
core with the Baseline and Interrupt Profiles. It is never cleared, every other bit of `EVTCTRL` is kept,
and beside `SLEEP` nothing of the machine changes (decision D29). -/
def Obligations.EnvironmentRaisesExtP : Prop :=
  ∀ s : State,
    (∀ e rest, s.env = e :: rest → (boundary s).env = rest ∧ (boundary s).freeCount = s.freeCount ∧
      (boundary s).evtBit 9 = (s.evtBit 9 || (e.ext && s.params.baseline && s.params.int))) ∧
    (s.env = [] → (boundary s).env = [] ∧ (boundary s).freeCount = s.freeCount + 1 ∧
      (boundary s).evtBit 9 =
        (s.evtBit 9 || (Config.freeExt s.freeCount && s.params.baseline && s.params.int))) ∧
    (∀ k, k ≠ 9 → (boundary s).evtBit k = s.evtBit k) ∧
    boundary s =
      { s with
        evtctrl := (boundary s).evtctrl, sleep := (boundary s).sleep
        env := (boundary s).env, freeCount := (boundary s).freeCount }

/-- R44, R304, R306: at the boundary `b` of a step the interrupt is taken exactly where `CFG.IE = 1`, a source is
pending and enabled, no prefix is pending, and `b` starts a byte or `INT_MIDBYTE` is not `defer`; the
step is then the entry and runs no instruction. Where it is not due, an awake core runs an instruction. -/
def Obligations.InterruptTakenExactlyWhenDue : Prop :=
  ∀ (s b : State) (due : Bool), b = boundary s →
    (due = true ↔ b.cfg.getLsbD 4 = true ∧ b.xopp = false ∧ (b.nib = false ∨ b.params.intMidByte ≠ .defer) ∧
      ((b.evtBit 0 = true ∧ b.evtBit 11 = true) ∨ (b.evtBit 1 = true ∧ b.evtBit 9 = true) ∨
        (b.evtBit 2 = true ∧ b.evtBit 7 = false ∧ b.evtBit 10 = true))) →
    (due = true → step s = takeInterrupt b) ∧
    (due = false → asleep b = false → step s = runInstr (envInput s).extraTicks b)

/-- R310, R93, R34: TAKING AN INTERRUPT. The eight frame bytes at `IA << 8`, every other byte kept, and what
`IAR`, `CFG.IE`, `IN_ISR`, `DBGSTEP`, `SLEEP`, `XOPP` and `PC` become (decisions D20, D21, D23, D25). The
eight addresses are recorded as written since reset (R98, D35; the model's own field, log entry 11). -/
def Obligations.InterruptEntry : Prop :=
  ∀ (s : State) (pn base : Word), pcNext s = some pn →
    (s.nib = true → s.params.intMidByte ≠ .fault) → base = BitVec.ofNat 16 (256 * s.ia.toNat) →
    Writable s (addrsFrom base 8) → s.mem.wf = true →
    ∃ t : State, takeInterrupt s = .next t ∧
      readByte t base = pn.extractLsb' 0 8 ∧ readByte t (base + 1) = pn.extractLsb' 8 8 ∧
      readByte t (base + 2) = s.cfg ∧
      (readByte t (base + 3)).toNat = s.c.toNat + 2 * s.z.toNat + 4 * s.n.toNat + 8 * s.v.toNat ∧
      readByte t (base + 4) = s.ia ∧ readByte t (base + 5) = s.iar ∧
      readByte t (base + 6) = s.ra1.extractLsb' 0 8 ∧ readByte t (base + 7) = s.ra1.extractLsb' 8 8 ∧
      SameMemoryOutside (addrsFrom base 8) s t ∧ Recorded (addrsFrom base 8) s t ∧
      t.iar = s.ia ∧ t.cfg = s.cfg &&& 0xEF ∧ t.pc = base + 0x10 ∧
      t.evtBit 8 = (s.params.baseline && s.params.int) ∧ t.evtBit 12 = false ∧
      (∀ k, k ≠ 8 → k ≠ 12 → t.evtBit k = s.evtBit k) ∧
      t = { s with pc := t.pc, nib := false, xopp := false, sleep := false, cfg := t.cfg, iar := t.iar,
                   evtctrl := t.evtctrl, mem := t.mem, modified := t.modified }

/-- R260: `RETI` loads `PC`, `CFG`, the flags, `IA`, `IAR` and `RA1` from the page of the old `IAR`, clears
`IN_ISR` and nothing else (decisions D20, D23, D36). -/
def Obligations.RetiRestoresFrame : Prop :=
  ∀ (s : State) (base : Word), base = BitVec.ofNat 16 (256 * s.iar.toNat) → Readable s (addrsFrom base 8) →
    ∃ t : State, exec .reti s = .next t ∧
      t.pc = readByte s (base + 1) ++ readByte s base ∧ t.cfg = readByte s (base + 2) ∧
      t.c = (readByte s (base + 3)).getLsbD 0 ∧ t.z = (readByte s (base + 3)).getLsbD 1 ∧
      t.n = (readByte s (base + 3)).getLsbD 2 ∧ t.v = (readByte s (base + 3)).getLsbD 3 ∧
      t.ia = readByte s (base + 4) ∧ t.iar = readByte s (base + 5) ∧
      t.ra1 = readByte s (base + 7) ++ readByte s (base + 6) ∧
      t.evtBit 8 = false ∧ (∀ k, k ≠ 8 → t.evtBit k = s.evtBit k) ∧
      t = { s with pc := t.pc, nib := false, cfg := t.cfg, c := t.c, z := t.z, n := t.n, v := t.v,
                   ia := t.ia, iar := t.iar, ra1 := t.ra1, evtctrl := t.evtctrl } ∧ SameMemory s t

/-- R260, R310, R315: a `RETI` that finds the frame of an entry as it was stored, with the `IAR` that entry
latched, resumes exactly where the interrupt was taken at a byte boundary, from any state `u` an ISR may
have made; `ACC`, `RS0`, `RS1`, `RA0` and memory stay as the ISR left them. -/
def Obligations.RetiUndoesInterruptEntry : Prop :=
  ∀ s t u : State, takeInterrupt s = .next t → s.nib = false → s.mem.wf = true →
    u.iar = t.iar → u.params = s.params →
    (∀ a ∈ addrsFrom (pageBase s.ia) 8, readByte u a = readByte t a) →
    ∃ v : State, exec .reti u = .next v ∧
      v.pc = s.pc ∧ v.nib = false ∧ v.cfg = s.cfg ∧ v.c = s.c ∧ v.z = s.z ∧ v.n = s.n ∧ v.v = s.v ∧
      v.ia = s.ia ∧ v.iar = s.iar ∧ v.ra1 = s.ra1 ∧ v.evtBit 8 = false ∧
      v.acc = u.acc ∧ v.rs0 = u.rs0 ∧ v.rs1 = u.rs1 ∧ v.ra0 = u.ra0 ∧ SameMemory u v

/-- R262, R264: `SWI` sets `SW_P` and `WFI` sets `SLEEP`, and nothing else (decisions D24, D26). -/
def Obligations.SwiAndWfiResult : Prop :=
  ∀ s : State, exec .wfi s = .next { s with sleep := true } ∧
    ∃ t : State, exec .swi s = .next t ∧
      t.evtBit 11 = (s.params.baseline && s.params.int) ∧ (∀ k, k ≠ 11 → t.evtBit k = s.evtBit k) ∧
      t = { s with evtctrl := t.evtctrl } ∧ SameMemory s t

/-- R262, R306: after a step that ran `SWI` with `CFG.IE = 1` and `SW_IE = 1`, ending a byte, the next step
is an interrupt entry (decision D24; no watchdog armed). -/
def Obligations.EnabledSwiIsTakenNext : Prop :=
  ∀ (s t : State) (len : Nat), RunsInstr s → Fetches s .swi len → step s = .next t →
    s.params.baseline = true → s.params.int = true → (boundary s).cfg.getLsbD 4 = true →
    (boundary s).evtBit 0 = true → (boundary s).evtBit 7 = false →
    (advance len (boundary s)).nib = false → step t = takeInterrupt (boundary t)

/-- R28, R264, R320, R366: SLEEP AND WAKE, with `p` the state after the environment's input. A sleeping core
whose wake condition holds wakes and the rest of the boundary applies; one whose wake condition does not
hold fetches nothing: with `TIMER_TICK = instruction` the timer stands still, with `cycle` it ticks as
often as the environment chooses, but no further than to the first tick after which the condition holds,
which wakes the core; without the time profile nothing ticks. A `WFI` sleeps exactly if the condition
does not hold when it has retired (decisions D26, D27; log entries 3 and 15). -/
def Obligations.AsleepNothingRetires : Prop :=
  (∀ s p : State, p = pollEnv s → s.sleep = true → s.params.int = true →
    (WakeCondition p → boundary s = { p with sleep := false }) ∧
    (¬ WakeCondition p → s.params.timerTick = .instruction →
      step s = .next p ∧ p.timer = s.timer ∧ p.pc = s.pc ∧ p.sleep = true ∧ SameMemory s p) ∧
    (¬ WakeCondition p → s.params.timerTick = .cycle → s.params.time = false → step s = .next p) ∧
    (∀ extra : Nat, extra = (envInput s).extraTicks → ¬ WakeCondition p → s.params.timerTick = .cycle →
      ¬ WatchdogFires extra p →
      ∃ (t : State) (k : Nat), step s = .next t ∧ (∀ e rest, s.env = e :: rest → extra = e.extraTicks) ∧
        k ≤ extra ∧ (t.sleep = true → k = extra) ∧ (t.sleep = true ↔ ¬ WakeCondition t) ∧
        (∀ j u, j < k → TicksTo j p u → ¬ WakeCondition u) ∧
        (s.params.time = true → TickedBy k p t) ∧ (∀ b, b ≠ 10 → t.evtBit b = p.evtBit b) ∧
        t = { p with timer := t.timer, evtctrl := t.evtctrl, sleep := t.sleep })) ∧
  (∀ (s t : State) (len : Nat), RunsInstr s → Fetches s .wfi len → (boundary s).evtBit 7 = false →
    step s = .next t → (t.sleep = true ↔ ¬ WakeCondition t))

/-! ### Timer, watchdog, single-step -/

/-- R306, R320, R321, R330: THE RETIREMENT of an instruction that left `u`, where the watchdog does not fire. With
`TIMER_TICK = instruction`, `TIMER` counts every retired instruction once, but after `CSRST #5` the written
value stands (decision D27); with `cycle` the environment chooses one or more ticks, after `CSRST #5` too
(log entry 13). A match sets `T_P` whether or not the timer interrupt is enabled. No bit of `EVTCTRL` but
`T_P` and `SW_P` changes, and beside `TIMER` and `SLEEP` nothing else of the machine. -/
def Obligations.TimerCountsRetiredInstructions : Prop :=
  ∀ (s u : State) (i : Instr) (len extra k : Nat), RunsInstr s → Fetches s i len →
    exec i (advance len (boundary s)) = .next u → extra = (envInput s).extraTicks →
    k = (if u.params.timerTick = .cycle then extra + 1 else if i = .csrst 5 then 0 else 1) →
    ¬ WatchdogFires k u →
    ∃ t : State, step s = .next t ∧ (∀ e rest, s.env = e :: rest → extra = e.extraTicks) ∧
      (u.params.time = true → TickedBy k u t) ∧
      (u.params.time = true → k = 0 → t.timer = s.acc ∧ t.evtBit 10 = u.evtBit 10) ∧
      (u.params.time = false → t.timer = u.timer ∧ t.evtBit 10 = u.evtBit 10) ∧
      (∀ b, b ≠ 10 → b ≠ 11 → t.evtBit b = u.evtBit b) ∧
      (t.sleep = true ↔ u.sleep = true ∧ ¬ WakeCondition t) ∧
      t = { u with timer := t.timer, evtctrl := t.evtctrl, sleep := t.sleep }

/-- R321, R322: a match with `WDOG = 1` resets the core: the values that R75 states, memory kept, no frame
written, nothing else of the boundary (decisions D7, D28), after an instruction and asleep. -/
def Obligations.WatchdogResets : Prop :=
  ∀ s : State, s.params.time = true → s.evtBit 7 = true →
    ∃ t : State, t.cfg = 0 ∧ t.pc = s.params.resetPc ∧ t.nib = false ∧
      t.xopp = false ∧ t.sleep = false ∧ t.evtctrl = 0 ∧ t.mem = s.mem ∧ t.params = s.params ∧
      (s.timer + 1 = s.timercmp → tick s = (t, true)) ∧
      (∀ (extra : Nat) (armed : Bool) (i : Instr),
        (s.params.timerTick = .instruction ∧ i ≠ .csrst 5 ∧ s.timer + 1 = s.timercmp) ∨
            (s.params.timerTick = .cycle ∧ WatchdogFires (extra + 1) s) →
          retire extra armed i s = t) ∧
      ∀ extra : Nat, s.params.timerTick = .cycle → WatchdogFires extra s →
        ¬ WakeCondition s ∨ s.timer + 1 = s.timercmp → sleepStep extra s = t

/-- R330: an instruction that starts with `DBGSTEP = 1`, `CFG.IE = 1` and `IN_ISR = 0` leaves `SW_P` set when
it retires; without all three it leaves it as the instruction left it (decision D25). -/
def Obligations.SingleStepTriggersSwi : Prop :=
  ∀ (s u t : State) (i : Instr) (len : Nat), RunsInstr s → Fetches s i len →
    exec i (advance len (boundary s)) = .next u → step s = .next t →
    u.params.baseline = true → u.params.int = true → u.evtBit 7 = false →
    t.evtBit 11 = (u.evtBit 11 ||
      ((boundary s).evtBit 12 && (boundary s).cfg.getLsbD 4 && !(boundary s).evtBit 8))

/-! ### MAD Profile -/

/-- R272 with `SIGN = 0` (decision D32): the sum, exact or wrapped first by `MAD_SUM`, shifted right, then wrapped
or clamped to `0xFFFF`; `C` is the carry of the 16-bit addition; no other flag. -/
def Obligations.MadUnsignedResult : Prop :=
  ∀ (ctl : MadCtl) (s : State), s.cfg.getLsbD 2 = false →
    ∃ (t : State) (o1 o2 x : Nat), exec (.mad ctl) s = .next t ∧
      o1 = (if ctl.lane then s.rs0.toNat / 256 else s.rs0.toNat % 256) ∧
      o2 = (if ctl.lane then s.rs1.toNat / 256 else s.rs1.toNat % 256) ∧
      x = (if s.params.madSum = .exact then s.acc.toNat + o1 * o2 else (s.acc.toNat + o1 * o2) % 65536) /
        2 ^ (if ctl.shift = 0 then 0 else if ctl.shift = 1 then 1 else if ctl.shift = 2 then 2 else 4) ∧
      t.acc.toNat = (if ctl.sat then Nat.min x 0xFFFF else x % 65536) ∧
      t.c = decide (65536 ≤ s.acc.toNat + o1 * o2) ∧
      t = { s with acc := t.acc, c := t.c } ∧ SameMemory s t

/-- R272 with `SIGN = 1` (decision D32): signed lanes and accumulator, the sum exact or wrapped first by
`MAD_SUM`, arithmetic shift, then wrapped or clamped to the signed range. -/
def Obligations.MadSignedResult : Prop :=
  ∀ (ctl : MadCtl) (s : State), s.cfg.getLsbD 2 = true →
    ∃ (t : State) (o1 o2 x : Int), exec (.mad ctl) s = .next t ∧
      o1 = (if ctl.lane then s.rs0.extractLsb' 8 8 else s.rs0.extractLsb' 0 8).toInt ∧
      o2 = (if ctl.lane then s.rs1.extractLsb' 8 8 else s.rs1.extractLsb' 0 8).toInt ∧
      x = (if s.params.madSum = .exact then s.acc.toInt + o1 * o2 else (s.acc.toInt + o1 * o2).bmod 65536).fdiv
        (2 ^ (if ctl.shift = 0 then 0 else if ctl.shift = 1 then 1 else if ctl.shift = 2 then 2 else 4)) ∧
      (ctl.sat = true → t.acc.toInt = if x < -32768 then -32768 else if 32767 < x then 32767 else x) ∧
      (ctl.sat = false → (t.acc.toInt - x) % 65536 = 0) ∧
      (t.c = true ↔ 65536 ≤ (s.acc.toNat : Int) + (o1 * o2) % 65536) ∧
      t = { s with acc := t.acc, c := t.c } ∧ SameMemory s t

/-- R273, R274: `MAX` and `MIN` of `ACC` and `RS0` on 16 bits, signed exactly where `SIGN = 1` (decision
D33); no flag. -/
def Obligations.MaxMinResult : Prop :=
  ∀ s : State, ∃ t u : State, exec .max s = .next t ∧ exec .min s = .next u ∧
    (s.cfg.getLsbD 2 = false → t.acc.toNat = Nat.max s.acc.toNat s.rs0.toNat ∧
      u.acc.toNat = Nat.min s.acc.toNat s.rs0.toNat) ∧
    (s.cfg.getLsbD 2 = true → t.acc.toInt = Max.max s.acc.toInt s.rs0.toInt ∧
      u.acc.toInt = Min.min s.acc.toInt s.rs0.toInt) ∧
    t = { s with acc := t.acc } ∧ u = { s with acc := u.acc } ∧ SameMemory s t ∧ SameMemory s u

/-! ### Reserved encodings -/

/-- R130, R131, R122, R123, R240: extended `0100` always, extended `1100`, `1000`, `0000` exactly on a core with
neither the Interrupt nor the MAD Profile, stop with `ReservedEncoding`; opcode `0110`, default and
extended, stops with `NoCsrInstructions` exactly in LK16 and SPE (bit 1 of `CFG`) without the CSR
instructions; each stop names the address of the instruction's first nibble (decisions D17, D19, D38). -/
def Obligations.ReservedEncodingsStop : Prop :=
  (∀ (p : Params) (cfg : Byte) (rest : List Nibble),
    decode p cfg false (0x8 :: 0x4 :: rest) = .ok (.rsv .op4, rest) ∧
    (decode p cfg false (0x8 :: 0xC :: rest) = .ok (.rsv (.shared .opC), rest) ↔ p.int = false ∧ p.mad = false) ∧
    (decode p cfg false (0x8 :: 0x8 :: rest) = .ok (.rsv (.shared .op8), rest) ↔ p.int = false ∧ p.mad = false) ∧
    (decode p cfg false (0x8 :: 0x0 :: rest) = .ok (.rsv (.shared .op0), rest) ↔ p.int = false ∧ p.mad = false) ∧
    (decode p cfg false (0x6 :: rest) = .ok (.csrAbsent false, rest) ↔
      cfg.getLsbD 1 = true ∧ p.hasCsr = false) ∧
    (decode p cfg false (0x8 :: 0x6 :: rest) = .ok (.csrAbsent true, rest) ↔
      cfg.getLsbD 1 = true ∧ p.hasCsr = false)) ∧
  ∀ s : State,
    (∀ o : ReservedOpcode, exec (.rsv o) (advance 2 s) = .fault (.reservedEncoding s.pc s.nib (reservedNibble o))) ∧
    exec (.csrAbsent false) (advance 1 s) = .fault (.noCsrInstructions s.pc s.nib) ∧
    exec (.csrAbsent true) (advance 2 s) = .fault (.noCsrInstructions s.pc s.nib)

/-! ### The whole machine -/

/-- R75, R350, R76: after power-on `PC` is `RESET_PC`, at the first nibble of its byte, nothing is pending, the core
is awake and `EVTCTRL` is 0, on every implementation; interrupts are off, the link mode is UL, branches
take a 4-bit offset with a 1-byte step, ALU instructions take `RS0`, the carry-in is ignored, and the
first instruction is decoded under `CFG = 0x00` (the values of R75 that the spec states; decision D7). -/
def Obligations.ResetConfiguration : Prop :=
  State.reset.cfg = 0x00 ∧ cfgIE State.reset.cfg = false ∧ State.reset.mode = .ul ∧
  cfgBW State.reset.cfg = false ∧ cfgBRS State.reset.cfg = false ∧ cfgIMM State.reset.cfg = false ∧
  carryIn State.reset = false ∧ (boundary State.reset).cfg = 0x00 ∧
  State.reset.pc = State.reset.params.resetPc ∧ State.reset.pc = 0x0000 ∧ State.reset.nib = false ∧
  State.reset.xopp = false ∧ State.reset.sleep = false ∧ State.reset.evtctrl = 0x0000 ∧
  ∀ (p : Params) (m : Memory) (env : List EnvInput) (k : Nat), ∃ s : State, s = State.afterReset p m env k ∧
    s.params = p ∧ s.mem = m ∧ s.cfg = 0x00 ∧ s.pc = p.resetPc ∧ s.nib = false ∧ s.xopp = false ∧
    s.sleep = false ∧ s.evtctrl = 0x0000

/-- The invariant holds of the machine right after reset. -/
def Obligations.ResetHasInvariant : Prop := StateInv State.reset

/-- Every step keeps the canonical form of memory and of the record of stored bytes, leaves no prefix
pending (R27), keeps the absent and reserved bits of `EVTCTRL` at 0 (R62), and changes no parameter of
the implementation, the constant of `CPUID` among them (R57). -/
def Obligations.StepKeepsInvariant : Prop :=
  ∀ s t : State, StateInv s → step s = .next t → StateInv t ∧ t.params = s.params

/-- R31, R32: which instruction writes which flag. Every other instruction keeps it. -/
def Obligations.OnlyListedInstructionsWriteFlags : Prop :=
  ∀ (i : Instr) (s t : State), exec i s = .next t →
    (t.v ≠ s.v → i = .inc ∨ i = .dec ∨ i = .reti ∨ ∃ o, i = .add o ∨ i = .sub o ∨ i = .cmp o) ∧
    (t.n ≠ s.n → i = .inc ∨ i = .dec ∨ i = .reti ∨ i = .shl ∨ i = .shr ∨ i = .inv ∨
      ∃ o, i = .add o ∨ i = .sub o ∨ i = .cmp o ∨ i = .and o ∨ i = .or o ∨ i = .xor o ∨ i = .tst o) ∧
    (t.z ≠ s.z → i = .inc ∨ i = .dec ∨ i = .reti ∨ i = .shl ∨ i = .shr ∨ i = .inv ∨ (∃ x, i = .btst x) ∨
      ∃ o, i = .add o ∨ i = .sub o ∨ i = .cmp o ∨ i = .and o ∨ i = .or o ∨ i = .xor o ∨ i = .tst o) ∧
    (t.c ≠ s.c → i = .inc ∨ i = .dec ∨ i = .reti ∨ i = .shl ∨ i = .shr ∨ (∃ x, i = .btst x) ∨
      (∃ m, i = .mad m) ∨ (∃ o, i = .add o ∨ i = .sub o ∨ i = .cmp o) ∨
      ∃ o, i = .tst o ∧ s.params.tstWritesC = true)

/-- R48, R50, R51, R22: among the instructions only `CFG`, `CSRST #1` and `RETI` write `CFG`, only `CSRST #8`
and `RETI` write `IA`, only `RETI` writes `IAR`, only `RSS` writes `RS1`, and only the control flow
instructions and `RETI` write the fetch position. -/
def Obligations.OnlyListedInstructionsWriteControl : Prop :=
  ∀ (i : Instr) (s t : State), exec i s = .next t →
    (t.cfg ≠ s.cfg → i = .reti ∨ i = .csrst 1 ∨ ∃ v, i = .cfg v) ∧
    (t.ia ≠ s.ia → i = .reti ∨ i = .csrst 8) ∧
    (t.iar ≠ s.iar → i = .reti) ∧
    (t.rs1 ≠ s.rs1 → i = .rss) ∧
    (t.pc ≠ s.pc ∨ t.nib ≠ s.nib → i = .reti ∨ i = .jal ∨ i = .jmp ∨
      ∃ off, i = .beqz off ∨ i = .bc off)

/-- With the default `MEMORY_MAP` (all RAM), `FETCH_SEES_STORES = true`, `PCNEXT_MIDBYTE = round_up` and
`INT_MIDBYTE` not `fault`, the only stops of a step are the reserved encodings: R300, no instruction
traps. -/
def Obligations.OnlyReservedEncodingsStop : Prop :=
  ∀ s : State, s.params.memoryMap = [] → s.params.fetchSeesStores = true →
    s.params.pcNextMidByte = .roundUp → s.params.intMidByte ≠ .fault →
    (∃ t, step s = .next t) ∨ (∃ pc nib op, step s = .fault (.reservedEncoding pc nib op)) ∨
      (∃ pc nib, step s = .fault (.noCsrInstructions pc nib) ∧ s.params.hasCsr = false)
end

