-- ==== Sys2Proof/Laws/Decode.lean ====
section
/-! SUPPORT. The laws of the decoder and the encoder: immediates there and back (R116), the two columns of
the opcode table (R112), reading the immediate of an entry (R118). -/

namespace Sys2Proof

open Machine

/-! ### Immediates (R116) -/

theorem length_nibblesLsFirst (k v : Nat) : (nibblesLsFirst k v).length = k := by
  induction k generalizing v with
  | zero => rfl
  | succ k ih => rw [nibblesLsFirst, List.length_cons, ih]

theorem length_immNibbles (order : ImmOrder) (k v : Nat) : (immNibbles order k v).length = k := by
  cases order
  · exact length_nibblesLsFirst k v
  · rw [immNibbles, List.length_reverse, length_nibblesLsFirst]

theorem valueLsFirst_nibblesLsFirst (k v : Nat) : valueLsFirst (nibblesLsFirst k v) = v % 16 ^ k := by
  induction k generalizing v with
  | zero => rw [Nat.pow_zero, Nat.mod_one]; rfl
  | succ k ih =>
    have h : v % 16 ^ (k + 1) = v % 16 + 16 * (v / 16 % 16 ^ k) := by rw [Nat.pow_succ', Nat.mod_mul]
    rw [nibblesLsFirst, valueLsFirst, ih, BitVec.toNat_ofNat, h]

/-- The nibbles of a value assemble to the value, in both orders. -/
theorem immValue_immNibbles (order : ImmOrder) (k v : Nat) : immValue order (immNibbles order k v) = v % 16 ^ k := by
  cases order
  · exact valueLsFirst_nibblesLsFirst k v
  · rw [immValue, immNibbles, List.reverse_reverse, valueLsFirst_nibblesLsFirst]

theorem valueLsFirst_lt (l : List Nibble) : valueLsFirst l < 16 ^ l.length := by
  induction l with
  | nil => exact Nat.one_pos
  | cons a r ih =>
    have := a.isLt
    rw [valueLsFirst, List.length_cons, Nat.pow_succ']
    omega

/-- An immediate of `k` nibbles is below `16^k`. -/
theorem immValue_lt (order : ImmOrder) (l : List Nibble) : immValue order l < 16 ^ l.length := by
  cases order
  · exact valueLsFirst_lt l
  · have := valueLsFirst_lt l.reverse
    rwa [List.length_reverse] at this

theorem nibblesLsFirst_valueLsFirst (l : List Nibble) : nibblesLsFirst l.length (valueLsFirst l) = l := by
  induction l with
  | nil => rfl
  | cons a r ih =>
    have ha := a.isLt
    have h : (a.toNat + 16 * valueLsFirst r) / 16 = valueLsFirst r := by omega
    rw [valueLsFirst, List.length_cons, nibblesLsFirst, h, ih]
    congr 1
    apply BitVec.eq_of_toNat_eq
    rw [BitVec.toNat_ofNat]
    omega

/-- The nibbles of the value that nibbles assemble to are those nibbles, in both orders. -/
theorem immNibbles_immValue (order : ImmOrder) (l : List Nibble) : immNibbles order l.length (immValue order l) = l := by
  cases order
  · exact nibblesLsFirst_valueLsFirst l
  · have := nibblesLsFirst_valueLsFirst l.reverse
    rw [List.length_reverse] at this
    rw [immNibbles, immValue, this, List.reverse_reverse]

/-! ### The two columns of the opcode table (R112, R118) -/

/-- A first nibble that is not the prefix selects the Default column. -/
theorem decode_default (p : Params) (cfg : Byte) (n : Nibble) (rest : List Nibble) (h : n ≠ xopNibble) :
    decode p cfg false (n :: rest) = decodeEntry p cfg (defaultEntry p cfg n) rest := by
  have : (n == xopNibble) = false := beq_eq_false_iff_ne.mpr h
  simp only [decode, this, Bool.not_false, Bool.and_false, Bool.false_eq_true, if_false, lookupEntry]

/-- The nibble after the prefix selects the Extended column. -/
theorem decode_extended (p : Params) (cfg : Byte) (n : Nibble) (rest : List Nibble) :
    decode p cfg false (xopNibble :: n :: rest) = decodeEntry p cfg (extendedEntry p cfg n) rest := by
  simp only [decode, beq_self_eq_true, Bool.not_false, Bool.and_true, if_true, lookupEntry]

/-- An entry followed by as many nibbles as it takes is decoded, and the nibbles after them are left. -/
theorem decodeEntry_append (p : Params) (cfg : Byte) (e : Entry) (l rest : List Nibble)
    (h : l.length = immCount p cfg e) :
    decodeEntry p cfg e (l ++ rest) = .ok (buildInstr p cfg e l, rest) := by
  rw [decodeEntry, if_neg (by rw [List.length_append, h]; omega), ← h, List.take_left, List.drop_left]

/-- What decoding an entry can answer: the instruction built from exactly the nibbles it takes. -/
theorem decodeEntry_ok {p : Params} {cfg : Byte} {e : Entry} {nibs rest : List Nibble} {i : Instr}
    (h : decodeEntry p cfg e nibs = .ok (i, rest)) :
    ∃ l, l.length = immCount p cfg e ∧ nibs = l ++ rest ∧ i = buildInstr p cfg e l := by
  unfold decodeEntry at h
  split at h
  · cases h
  · rename_i hl
    cases h
    exact ⟨_, by rw [List.length_take]; omega, (List.take_append_drop _ _).symm, rfl⟩

/-! ### Fields of an instruction there and back -/

/-- One immediate nibble comes back (R116). -/
theorem nibbleOfNibbles_immNibbles (p : Params) (v : Nibble) :
    nibbleOfNibbles p (immNibbles p.immOrder 1 v.toNat) = v := by
  apply BitVec.eq_of_toNat_eq
  have := v.isLt
  rw [nibbleOfNibbles, immValue_immNibbles, BitVec.toNat_ofNat]
  omega

/-- The function nibble of `XMEM` comes back from its bits and its bits from it (R220). -/
theorem xmemFnOfNibble_nibbleOfXmemFn (f : XmemFn) : xmemFnOfNibble (nibbleOfXmemFn f) = f := by
  rcases f with ⟨a, b, c, d⟩
  cases a <;> cases b <;> cases c <;> cases d <;> rfl

theorem nibbleOfXmemFn_xmemFnOfNibble (n : Nibble) : nibbleOfXmemFn (xmemFnOfNibble n) = n := by
  revert n
  decide

/-- The control nibble of `MAD` comes back from its fields and its fields from it (R272). -/
theorem madCtlOfNibble_nibbleOfMadCtl (c : MadCtl) : madCtlOfNibble (nibbleOfMadCtl c) = c := by
  rcases c with ⟨a, b, d⟩
  revert a
  cases b <;> cases d <;> decide

theorem nibbleOfMadCtl_madCtlOfNibble (n : Nibble) : nibbleOfMadCtl (madCtlOfNibble n) = n := by
  revert n
  decide

end Sys2Proof
end

