-- ==== Sys2Proof/Laws/Fields.lean ====
section
/-! SUPPORT. Lemmas about bit fields and active widths: what they read as numbers and bit by bit. -/

namespace Sys2Proof.Machine

/-- The active width is 4, 8 or 16 bits (R9). -/
theorem modeBits_cases (m : LinkMode) : modeBits m = 4 ∨ modeBits m = 8 ∨ modeBits m = 16 := by
  cases m <;> simp [modeBits]

/-- The active width of a state is 4, 8 or 16 bits (R9). -/
theorem width_cases (s : State) : s.width = 4 ∨ s.width = 8 ∨ s.width = 16 := modeBits_cases s.mode

/-- `Wn` nibbles are `Wd` bits (R9). -/
theorem modeBits_eq (m : LinkMode) : modeBits m = 4 * modeNibbles m := by cases m <;> rfl

/-- Reading a bit of a word one bit of which was replaced. -/
theorem getLsbD_withBit {n : Nat} (v : BitVec n) (i k : Nat) (b : Bool) :
    (withBit v i b).getLsbD k = if k = i ∧ k < n then b else v.getLsbD k := by
  by_cases hk : k < n
  · unfold withBit
    by_cases hi : k = i
    · subst hi; cases b <;> simp [hk]
    · cases b <;> simp [hk, hi] <;> omega
  · rw [BitVec.getLsbD_of_ge _ _ (by omega), BitVec.getLsbD_of_ge _ _ (by omega)]
    simp [hk]

/-- The mask of the low `w` bits (R9). -/
theorem getLsbD_widthMask (w k : Nat) (hw : w ≤ 16) :
    (widthMask w).getLsbD k = decide (k < w) := by
  by_cases h : k < 16
  · rw [widthMask, BitVec.getLsbD_ofNat, Nat.testBit_two_pow_sub_one]
    simp [h]
  · rw [BitVec.getLsbD_of_ge _ _ (by omega)]
    simp; omega

/-- The low `w` bits of a word, bit by bit. -/
theorem getLsbD_lowBits (w k : Nat) (v : Word) (hw : w ≤ 16) :
    (lowBits w v).getLsbD k = (v.getLsbD k && decide (k < w)) := by
  rw [lowBits, BitVec.getLsbD_and, getLsbD_widthMask w k hw]

/-- The low `w` bits of a word as a number. -/
theorem toNat_lowBits (w : Nat) (v : Word) (hw : w ≤ 16) : (lowBits w v).toNat = v.toNat % 2 ^ w := by
  apply Nat.eq_of_testBit_eq
  intro k
  rw [← BitVec.getLsbD, getLsbD_lowBits w k v hw, Nat.testBit_mod_two_pow, BitVec.getLsbD, Bool.and_comm]

/-- Replacing the low `w` bits of a word, bit by bit (R21). -/
theorem getLsbD_setLowBits (w k : Nat) (old r : Word) (hw : w ≤ 16) :
    (setLowBits w old r).getLsbD k = if k < w then r.getLsbD k else old.getLsbD k := by
  unfold setLowBits
  simp only [BitVec.getLsbD_or, BitVec.getLsbD_and, BitVec.getLsbD_not, getLsbD_widthMask w k hw]
  by_cases h : k < w
  · simp [h]
  · by_cases h' : k < 16
    · simp [h, h']
    · simp [h, BitVec.getLsbD_of_ge _ k (by omega : 16 ≤ k)]

/-- Replacing the low `w` bits of a word: the low bits are those of the new value (R21). -/
theorem toNat_setLowBits_mod (w : Nat) (old r : Word) (hw : w ≤ 16) :
    (setLowBits w old r).toNat % 2 ^ w = r.toNat % 2 ^ w := by
  apply Nat.eq_of_testBit_eq
  intro k
  rw [Nat.testBit_mod_two_pow, Nat.testBit_mod_two_pow]
  by_cases h : k < w
  · have := getLsbD_setLowBits w k old r hw
    simp only [BitVec.getLsbD, h, if_true] at this
    simp [h, this]
  · simp [h]

/-- Replacing the low `w` bits of a word: the bits above are kept (R21). -/
theorem toNat_setLowBits_div (w : Nat) (old r : Word) (hw : w ≤ 16) :
    (setLowBits w old r).toNat / 2 ^ w = old.toNat / 2 ^ w := by
  apply Nat.eq_of_testBit_eq
  intro k
  rw [Nat.testBit_div_two_pow, Nat.testBit_div_two_pow]
  have := getLsbD_setLowBits w (k + w) old r hw
  simp only [BitVec.getLsbD] at this
  rw [this, if_neg (by omega)]

/-- The active accumulator as a number (R9, R21). -/
theorem toNat_active (s : State) : s.active.toNat = s.acc.toNat % 2 ^ s.width :=
  toNat_lowBits _ _ (by rcases width_cases s with h | h | h <;> omega)

/-- The bits of a byte above 7 are 0 in its 16-bit reading (R10). -/
theorem toNat_zextByte (b : Byte) : (zextByte b).toNat = b.toNat := by
  simp only [zextByte, BitVec.toNat_setWidth]
  have := b.isLt
  omega

/-- The two bytes of a word joined are the word (R84). -/
theorem mkWord_hiByte_loByte (w : Word) : mkWord (hiByte w) (loByte w) = w := by
  apply BitVec.eq_of_getLsbD_eq
  intro k hk
  simp only [mkWord, hiByte, loByte, BitVec.getLsbD_append, BitVec.getLsbD_extractLsb']
  by_cases h : k < 8
  · simp [h]
  · have h1 : k - 8 < 8 := by omega
    have h2 : 8 + (k - 8) = k := by omega
    simp [h, h1, h2]

/-- The flags come back from the `FLAGS` byte made of them (R34). -/
theorem getLsbD_flagsByte (c z n v : Bool) :
    (flagsByte c z n v).getLsbD 0 = c ∧ (flagsByte c z n v).getLsbD 1 = z ∧
    (flagsByte c z n v).getLsbD 2 = n ∧ (flagsByte c z n v).getLsbD 3 = v := by
  cases c <;> cases z <;> cases n <;> cases v <;> decide

/-- What `EVTCTRL` reads at a bit is what is stored there where the field is present (R62). -/
theorem evtBit_eq (s : State) (i : Nat) : s.evtBit i = (s.evtctrl.getLsbD i && (evtMask s.params).getLsbD i) := by
  simp [State.evtBit, State.evt]

/-- Writing one bit of `EVTCTRL` (R62): that bit where it is present, no other. -/
theorem evtBit_setEvtBit (s : State) (i k : Nat) (b : Bool) :
    (setEvtBit i b s).evtBit k =
      if k = i then b && (evtMask s.params).getLsbD i else s.evtBit k := by
  simp only [evtBit_eq, setEvtBit, BitVec.getLsbD_and, getLsbD_withBit]
  by_cases hk : k = i
  · subst hk
    by_cases h16 : k < 16
    · simp [h16]
    · simp [BitVec.getLsbD_of_ge _ k (by omega : 16 ≤ k)]
  · simp [hk]

/-- The bit of `EVTCTRL` just written, where its field is present (R62). -/
theorem evtBit_setEvtBit_self (s : State) (i k : Nat) (b : Bool) (h : k = i) :
    (setEvtBit i b s).evtBit k = (b && (evtMask s.params).getLsbD i) := by
  rw [evtBit_setEvtBit, if_pos h]

/-- Every other bit of `EVTCTRL` is kept (R62). -/
theorem evtBit_setEvtBit_ne (s : State) (i k : Nat) (b : Bool) (h : k ≠ i) :
    (setEvtBit i b s).evtBit k = s.evtBit k := by
  rw [evtBit_setEvtBit, if_neg h]

/-- Which fields of `EVTCTRL` are present (R62, the *present when* column). -/
theorem getLsbD_evtMask (p : Params) (k : Nat) (hk : k < 16) :
    (evtMask p).getLsbD k =
      (p.baseline &&
        if k = 0 ∨ k = 1 ∨ k = 8 ∨ k = 9 ∨ k = 11 then p.int
        else if k = 2 then p.int && p.time
        else if k = 7 ∨ k = 10 then p.time
        else if k = 12 then p.debug
        else false) := by
  unfold evtMask
  cases p.baseline <;> cases p.int <;> cases p.time <;> cases p.debug <;> interval_cases k <;> rfl

end Sys2Proof.Machine
end

