-- ==== Sys2Proof/Laws/State.lean ====
section
/-! SUPPORT. What each update of the state does to each field: one lemma per field per update. -/

namespace Sys2Proof.Machine

/-! ### `setActive` -/

@[simp] theorem setActive_params (r : Word) (s : State) : (setActive r s).params = s.params := rfl
@[simp] theorem setActive_pc (r : Word) (s : State) : (setActive r s).pc = s.pc := rfl
@[simp] theorem setActive_nib (r : Word) (s : State) : (setActive r s).nib = s.nib := rfl
@[simp] theorem setActive_xopp (r : Word) (s : State) : (setActive r s).xopp = s.xopp := rfl
@[simp] theorem setActive_sleep (r : Word) (s : State) : (setActive r s).sleep = s.sleep := rfl
@[simp] theorem setActive_acc (r : Word) (s : State) : (setActive r s).acc = setLowBits s.width s.acc r := rfl
@[simp] theorem setActive_rs0 (r : Word) (s : State) : (setActive r s).rs0 = s.rs0 := rfl
@[simp] theorem setActive_rs1 (r : Word) (s : State) : (setActive r s).rs1 = s.rs1 := rfl
@[simp] theorem setActive_ra0 (r : Word) (s : State) : (setActive r s).ra0 = s.ra0 := rfl
@[simp] theorem setActive_ra1 (r : Word) (s : State) : (setActive r s).ra1 = s.ra1 := rfl
@[simp] theorem setActive_c (r : Word) (s : State) : (setActive r s).c = s.c := rfl
@[simp] theorem setActive_z (r : Word) (s : State) : (setActive r s).z = s.z := rfl
@[simp] theorem setActive_n (r : Word) (s : State) : (setActive r s).n = s.n := rfl
@[simp] theorem setActive_v (r : Word) (s : State) : (setActive r s).v = s.v := rfl
@[simp] theorem setActive_cfg (r : Word) (s : State) : (setActive r s).cfg = s.cfg := rfl
@[simp] theorem setActive_ia (r : Word) (s : State) : (setActive r s).ia = s.ia := rfl
@[simp] theorem setActive_iar (r : Word) (s : State) : (setActive r s).iar = s.iar := rfl
@[simp] theorem setActive_gpr1 (r : Word) (s : State) : (setActive r s).gpr1 = s.gpr1 := rfl
@[simp] theorem setActive_gpr2 (r : Word) (s : State) : (setActive r s).gpr2 = s.gpr2 := rfl
@[simp] theorem setActive_gpr3 (r : Word) (s : State) : (setActive r s).gpr3 = s.gpr3 := rfl
@[simp] theorem setActive_timer (r : Word) (s : State) : (setActive r s).timer = s.timer := rfl
@[simp] theorem setActive_timercmp (r : Word) (s : State) : (setActive r s).timercmp = s.timercmp := rfl
@[simp] theorem setActive_evtctrl (r : Word) (s : State) : (setActive r s).evtctrl = s.evtctrl := rfl
@[simp] theorem setActive_mem (r : Word) (s : State) : (setActive r s).mem = s.mem := rfl
@[simp] theorem setActive_modified (r : Word) (s : State) : (setActive r s).modified = s.modified := rfl
@[simp] theorem setActive_env (r : Word) (s : State) : (setActive r s).env = s.env := rfl
@[simp] theorem setActive_freeCount (r : Word) (s : State) : (setActive r s).freeCount = s.freeCount := rfl

/-! ### `setZN` -/

@[simp] theorem setZN_params (w : Nat) (r : Word) (s : State) : (setZN w r s).params = s.params := rfl
@[simp] theorem setZN_pc (w : Nat) (r : Word) (s : State) : (setZN w r s).pc = s.pc := rfl
@[simp] theorem setZN_nib (w : Nat) (r : Word) (s : State) : (setZN w r s).nib = s.nib := rfl
@[simp] theorem setZN_xopp (w : Nat) (r : Word) (s : State) : (setZN w r s).xopp = s.xopp := rfl
@[simp] theorem setZN_sleep (w : Nat) (r : Word) (s : State) : (setZN w r s).sleep = s.sleep := rfl
@[simp] theorem setZN_acc (w : Nat) (r : Word) (s : State) : (setZN w r s).acc = s.acc := rfl
@[simp] theorem setZN_rs0 (w : Nat) (r : Word) (s : State) : (setZN w r s).rs0 = s.rs0 := rfl
@[simp] theorem setZN_rs1 (w : Nat) (r : Word) (s : State) : (setZN w r s).rs1 = s.rs1 := rfl
@[simp] theorem setZN_ra0 (w : Nat) (r : Word) (s : State) : (setZN w r s).ra0 = s.ra0 := rfl
@[simp] theorem setZN_ra1 (w : Nat) (r : Word) (s : State) : (setZN w r s).ra1 = s.ra1 := rfl
@[simp] theorem setZN_c (w : Nat) (r : Word) (s : State) : (setZN w r s).c = s.c := rfl
@[simp] theorem setZN_z (w : Nat) (r : Word) (s : State) : (setZN w r s).z = zeroOf r := rfl
@[simp] theorem setZN_n (w : Nat) (r : Word) (s : State) : (setZN w r s).n = negOf w r := rfl
@[simp] theorem setZN_v (w : Nat) (r : Word) (s : State) : (setZN w r s).v = s.v := rfl
@[simp] theorem setZN_cfg (w : Nat) (r : Word) (s : State) : (setZN w r s).cfg = s.cfg := rfl
@[simp] theorem setZN_ia (w : Nat) (r : Word) (s : State) : (setZN w r s).ia = s.ia := rfl
@[simp] theorem setZN_iar (w : Nat) (r : Word) (s : State) : (setZN w r s).iar = s.iar := rfl
@[simp] theorem setZN_gpr1 (w : Nat) (r : Word) (s : State) : (setZN w r s).gpr1 = s.gpr1 := rfl
@[simp] theorem setZN_gpr2 (w : Nat) (r : Word) (s : State) : (setZN w r s).gpr2 = s.gpr2 := rfl
@[simp] theorem setZN_gpr3 (w : Nat) (r : Word) (s : State) : (setZN w r s).gpr3 = s.gpr3 := rfl
@[simp] theorem setZN_timer (w : Nat) (r : Word) (s : State) : (setZN w r s).timer = s.timer := rfl
@[simp] theorem setZN_timercmp (w : Nat) (r : Word) (s : State) : (setZN w r s).timercmp = s.timercmp := rfl
@[simp] theorem setZN_evtctrl (w : Nat) (r : Word) (s : State) : (setZN w r s).evtctrl = s.evtctrl := rfl
@[simp] theorem setZN_mem (w : Nat) (r : Word) (s : State) : (setZN w r s).mem = s.mem := rfl
@[simp] theorem setZN_modified (w : Nat) (r : Word) (s : State) : (setZN w r s).modified = s.modified := rfl
@[simp] theorem setZN_env (w : Nat) (r : Word) (s : State) : (setZN w r s).env = s.env := rfl
@[simp] theorem setZN_freeCount (w : Nat) (r : Word) (s : State) : (setZN w r s).freeCount = s.freeCount := rfl

/-! ### `setCVZN` -/

@[simp] theorem setCVZN_params (w : Nat) (res : AluResult) (s : State) : (setCVZN w res s).params = s.params := rfl
@[simp] theorem setCVZN_pc (w : Nat) (res : AluResult) (s : State) : (setCVZN w res s).pc = s.pc := rfl
@[simp] theorem setCVZN_nib (w : Nat) (res : AluResult) (s : State) : (setCVZN w res s).nib = s.nib := rfl
@[simp] theorem setCVZN_xopp (w : Nat) (res : AluResult) (s : State) : (setCVZN w res s).xopp = s.xopp := rfl
@[simp] theorem setCVZN_sleep (w : Nat) (res : AluResult) (s : State) : (setCVZN w res s).sleep = s.sleep := rfl
@[simp] theorem setCVZN_acc (w : Nat) (res : AluResult) (s : State) : (setCVZN w res s).acc = s.acc := rfl
@[simp] theorem setCVZN_rs0 (w : Nat) (res : AluResult) (s : State) : (setCVZN w res s).rs0 = s.rs0 := rfl
@[simp] theorem setCVZN_rs1 (w : Nat) (res : AluResult) (s : State) : (setCVZN w res s).rs1 = s.rs1 := rfl
@[simp] theorem setCVZN_ra0 (w : Nat) (res : AluResult) (s : State) : (setCVZN w res s).ra0 = s.ra0 := rfl
@[simp] theorem setCVZN_ra1 (w : Nat) (res : AluResult) (s : State) : (setCVZN w res s).ra1 = s.ra1 := rfl
@[simp] theorem setCVZN_c (w : Nat) (res : AluResult) (s : State) : (setCVZN w res s).c = res.c := rfl
@[simp] theorem setCVZN_z (w : Nat) (res : AluResult) (s : State) : (setCVZN w res s).z = zeroOf res.r := rfl
@[simp] theorem setCVZN_n (w : Nat) (res : AluResult) (s : State) : (setCVZN w res s).n = negOf w res.r := rfl
@[simp] theorem setCVZN_v (w : Nat) (res : AluResult) (s : State) : (setCVZN w res s).v = res.v := rfl
@[simp] theorem setCVZN_cfg (w : Nat) (res : AluResult) (s : State) : (setCVZN w res s).cfg = s.cfg := rfl
@[simp] theorem setCVZN_ia (w : Nat) (res : AluResult) (s : State) : (setCVZN w res s).ia = s.ia := rfl
@[simp] theorem setCVZN_iar (w : Nat) (res : AluResult) (s : State) : (setCVZN w res s).iar = s.iar := rfl
@[simp] theorem setCVZN_gpr1 (w : Nat) (res : AluResult) (s : State) : (setCVZN w res s).gpr1 = s.gpr1 := rfl
@[simp] theorem setCVZN_gpr2 (w : Nat) (res : AluResult) (s : State) : (setCVZN w res s).gpr2 = s.gpr2 := rfl
@[simp] theorem setCVZN_gpr3 (w : Nat) (res : AluResult) (s : State) : (setCVZN w res s).gpr3 = s.gpr3 := rfl
@[simp] theorem setCVZN_timer (w : Nat) (res : AluResult) (s : State) : (setCVZN w res s).timer = s.timer := rfl
@[simp] theorem setCVZN_timercmp (w : Nat) (res : AluResult) (s : State) : (setCVZN w res s).timercmp = s.timercmp := rfl
@[simp] theorem setCVZN_evtctrl (w : Nat) (res : AluResult) (s : State) : (setCVZN w res s).evtctrl = s.evtctrl := rfl
@[simp] theorem setCVZN_mem (w : Nat) (res : AluResult) (s : State) : (setCVZN w res s).mem = s.mem := rfl
@[simp] theorem setCVZN_modified (w : Nat) (res : AluResult) (s : State) : (setCVZN w res s).modified = s.modified := rfl
@[simp] theorem setCVZN_env (w : Nat) (res : AluResult) (s : State) : (setCVZN w res s).env = s.env := rfl
@[simp] theorem setCVZN_freeCount (w : Nat) (res : AluResult) (s : State) : (setCVZN w res s).freeCount = s.freeCount := rfl

/-! ### `setFlags` -/

@[simp] theorem setFlags_params (b : Byte) (s : State) : (setFlags b s).params = s.params := rfl
@[simp] theorem setFlags_pc (b : Byte) (s : State) : (setFlags b s).pc = s.pc := rfl
@[simp] theorem setFlags_nib (b : Byte) (s : State) : (setFlags b s).nib = s.nib := rfl
@[simp] theorem setFlags_xopp (b : Byte) (s : State) : (setFlags b s).xopp = s.xopp := rfl
@[simp] theorem setFlags_sleep (b : Byte) (s : State) : (setFlags b s).sleep = s.sleep := rfl
@[simp] theorem setFlags_acc (b : Byte) (s : State) : (setFlags b s).acc = s.acc := rfl
@[simp] theorem setFlags_rs0 (b : Byte) (s : State) : (setFlags b s).rs0 = s.rs0 := rfl
@[simp] theorem setFlags_rs1 (b : Byte) (s : State) : (setFlags b s).rs1 = s.rs1 := rfl
@[simp] theorem setFlags_ra0 (b : Byte) (s : State) : (setFlags b s).ra0 = s.ra0 := rfl
@[simp] theorem setFlags_ra1 (b : Byte) (s : State) : (setFlags b s).ra1 = s.ra1 := rfl
@[simp] theorem setFlags_c (b : Byte) (s : State) : (setFlags b s).c = b.getLsbD 0 := rfl
@[simp] theorem setFlags_z (b : Byte) (s : State) : (setFlags b s).z = b.getLsbD 1 := rfl
@[simp] theorem setFlags_n (b : Byte) (s : State) : (setFlags b s).n = b.getLsbD 2 := rfl
@[simp] theorem setFlags_v (b : Byte) (s : State) : (setFlags b s).v = b.getLsbD 3 := rfl
@[simp] theorem setFlags_cfg (b : Byte) (s : State) : (setFlags b s).cfg = s.cfg := rfl
@[simp] theorem setFlags_ia (b : Byte) (s : State) : (setFlags b s).ia = s.ia := rfl
@[simp] theorem setFlags_iar (b : Byte) (s : State) : (setFlags b s).iar = s.iar := rfl
@[simp] theorem setFlags_gpr1 (b : Byte) (s : State) : (setFlags b s).gpr1 = s.gpr1 := rfl
@[simp] theorem setFlags_gpr2 (b : Byte) (s : State) : (setFlags b s).gpr2 = s.gpr2 := rfl
@[simp] theorem setFlags_gpr3 (b : Byte) (s : State) : (setFlags b s).gpr3 = s.gpr3 := rfl
@[simp] theorem setFlags_timer (b : Byte) (s : State) : (setFlags b s).timer = s.timer := rfl
@[simp] theorem setFlags_timercmp (b : Byte) (s : State) : (setFlags b s).timercmp = s.timercmp := rfl
@[simp] theorem setFlags_evtctrl (b : Byte) (s : State) : (setFlags b s).evtctrl = s.evtctrl := rfl
@[simp] theorem setFlags_mem (b : Byte) (s : State) : (setFlags b s).mem = s.mem := rfl
@[simp] theorem setFlags_modified (b : Byte) (s : State) : (setFlags b s).modified = s.modified := rfl
@[simp] theorem setFlags_env (b : Byte) (s : State) : (setFlags b s).env = s.env := rfl
@[simp] theorem setFlags_freeCount (b : Byte) (s : State) : (setFlags b s).freeCount = s.freeCount := rfl

/-! ### `jumpTo` -/

@[simp] theorem jumpTo_params (target : Word) (s : State) : (jumpTo target s).params = s.params := rfl
@[simp] theorem jumpTo_pc (target : Word) (s : State) : (jumpTo target s).pc = target := rfl
@[simp] theorem jumpTo_nib (target : Word) (s : State) : (jumpTo target s).nib = false := rfl
@[simp] theorem jumpTo_xopp (target : Word) (s : State) : (jumpTo target s).xopp = s.xopp := rfl
@[simp] theorem jumpTo_sleep (target : Word) (s : State) : (jumpTo target s).sleep = s.sleep := rfl
@[simp] theorem jumpTo_acc (target : Word) (s : State) : (jumpTo target s).acc = s.acc := rfl
@[simp] theorem jumpTo_rs0 (target : Word) (s : State) : (jumpTo target s).rs0 = s.rs0 := rfl
@[simp] theorem jumpTo_rs1 (target : Word) (s : State) : (jumpTo target s).rs1 = s.rs1 := rfl
@[simp] theorem jumpTo_ra0 (target : Word) (s : State) : (jumpTo target s).ra0 = s.ra0 := rfl
@[simp] theorem jumpTo_ra1 (target : Word) (s : State) : (jumpTo target s).ra1 = s.ra1 := rfl
@[simp] theorem jumpTo_c (target : Word) (s : State) : (jumpTo target s).c = s.c := rfl
@[simp] theorem jumpTo_z (target : Word) (s : State) : (jumpTo target s).z = s.z := rfl
@[simp] theorem jumpTo_n (target : Word) (s : State) : (jumpTo target s).n = s.n := rfl
@[simp] theorem jumpTo_v (target : Word) (s : State) : (jumpTo target s).v = s.v := rfl
@[simp] theorem jumpTo_cfg (target : Word) (s : State) : (jumpTo target s).cfg = s.cfg := rfl
@[simp] theorem jumpTo_ia (target : Word) (s : State) : (jumpTo target s).ia = s.ia := rfl
@[simp] theorem jumpTo_iar (target : Word) (s : State) : (jumpTo target s).iar = s.iar := rfl
@[simp] theorem jumpTo_gpr1 (target : Word) (s : State) : (jumpTo target s).gpr1 = s.gpr1 := rfl
@[simp] theorem jumpTo_gpr2 (target : Word) (s : State) : (jumpTo target s).gpr2 = s.gpr2 := rfl
@[simp] theorem jumpTo_gpr3 (target : Word) (s : State) : (jumpTo target s).gpr3 = s.gpr3 := rfl
@[simp] theorem jumpTo_timer (target : Word) (s : State) : (jumpTo target s).timer = s.timer := rfl
@[simp] theorem jumpTo_timercmp (target : Word) (s : State) : (jumpTo target s).timercmp = s.timercmp := rfl
@[simp] theorem jumpTo_evtctrl (target : Word) (s : State) : (jumpTo target s).evtctrl = s.evtctrl := rfl
@[simp] theorem jumpTo_mem (target : Word) (s : State) : (jumpTo target s).mem = s.mem := rfl
@[simp] theorem jumpTo_modified (target : Word) (s : State) : (jumpTo target s).modified = s.modified := rfl
@[simp] theorem jumpTo_env (target : Word) (s : State) : (jumpTo target s).env = s.env := rfl
@[simp] theorem jumpTo_freeCount (target : Word) (s : State) : (jumpTo target s).freeCount = s.freeCount := rfl

/-! ### `setEvtBit` -/

@[simp] theorem setEvtBit_params (i : Nat) (b : Bool) (s : State) : (setEvtBit i b s).params = s.params := rfl
@[simp] theorem setEvtBit_pc (i : Nat) (b : Bool) (s : State) : (setEvtBit i b s).pc = s.pc := rfl
@[simp] theorem setEvtBit_nib (i : Nat) (b : Bool) (s : State) : (setEvtBit i b s).nib = s.nib := rfl
@[simp] theorem setEvtBit_xopp (i : Nat) (b : Bool) (s : State) : (setEvtBit i b s).xopp = s.xopp := rfl
@[simp] theorem setEvtBit_sleep (i : Nat) (b : Bool) (s : State) : (setEvtBit i b s).sleep = s.sleep := rfl
@[simp] theorem setEvtBit_acc (i : Nat) (b : Bool) (s : State) : (setEvtBit i b s).acc = s.acc := rfl
@[simp] theorem setEvtBit_rs0 (i : Nat) (b : Bool) (s : State) : (setEvtBit i b s).rs0 = s.rs0 := rfl
@[simp] theorem setEvtBit_rs1 (i : Nat) (b : Bool) (s : State) : (setEvtBit i b s).rs1 = s.rs1 := rfl
@[simp] theorem setEvtBit_ra0 (i : Nat) (b : Bool) (s : State) : (setEvtBit i b s).ra0 = s.ra0 := rfl
@[simp] theorem setEvtBit_ra1 (i : Nat) (b : Bool) (s : State) : (setEvtBit i b s).ra1 = s.ra1 := rfl
@[simp] theorem setEvtBit_c (i : Nat) (b : Bool) (s : State) : (setEvtBit i b s).c = s.c := rfl
@[simp] theorem setEvtBit_z (i : Nat) (b : Bool) (s : State) : (setEvtBit i b s).z = s.z := rfl
@[simp] theorem setEvtBit_n (i : Nat) (b : Bool) (s : State) : (setEvtBit i b s).n = s.n := rfl
@[simp] theorem setEvtBit_v (i : Nat) (b : Bool) (s : State) : (setEvtBit i b s).v = s.v := rfl
@[simp] theorem setEvtBit_cfg (i : Nat) (b : Bool) (s : State) : (setEvtBit i b s).cfg = s.cfg := rfl
@[simp] theorem setEvtBit_ia (i : Nat) (b : Bool) (s : State) : (setEvtBit i b s).ia = s.ia := rfl
@[simp] theorem setEvtBit_iar (i : Nat) (b : Bool) (s : State) : (setEvtBit i b s).iar = s.iar := rfl
@[simp] theorem setEvtBit_gpr1 (i : Nat) (b : Bool) (s : State) : (setEvtBit i b s).gpr1 = s.gpr1 := rfl
@[simp] theorem setEvtBit_gpr2 (i : Nat) (b : Bool) (s : State) : (setEvtBit i b s).gpr2 = s.gpr2 := rfl
@[simp] theorem setEvtBit_gpr3 (i : Nat) (b : Bool) (s : State) : (setEvtBit i b s).gpr3 = s.gpr3 := rfl
@[simp] theorem setEvtBit_timer (i : Nat) (b : Bool) (s : State) : (setEvtBit i b s).timer = s.timer := rfl
@[simp] theorem setEvtBit_timercmp (i : Nat) (b : Bool) (s : State) : (setEvtBit i b s).timercmp = s.timercmp := rfl
@[simp] theorem setEvtBit_evtctrl (i : Nat) (b : Bool) (s : State) : (setEvtBit i b s).evtctrl = withBit s.evtctrl i b &&& evtMask s.params := rfl
@[simp] theorem setEvtBit_mem (i : Nat) (b : Bool) (s : State) : (setEvtBit i b s).mem = s.mem := rfl
@[simp] theorem setEvtBit_modified (i : Nat) (b : Bool) (s : State) : (setEvtBit i b s).modified = s.modified := rfl
@[simp] theorem setEvtBit_env (i : Nat) (b : Bool) (s : State) : (setEvtBit i b s).env = s.env := rfl
@[simp] theorem setEvtBit_freeCount (i : Nat) (b : Bool) (s : State) : (setEvtBit i b s).freeCount = s.freeCount := rfl

/-! ### `storeByte` -/

@[simp] theorem storeByte_params (s : State) (a : Word) (b : Byte) : (storeByte s a b).params = s.params := rfl
@[simp] theorem storeByte_pc (s : State) (a : Word) (b : Byte) : (storeByte s a b).pc = s.pc := rfl
@[simp] theorem storeByte_nib (s : State) (a : Word) (b : Byte) : (storeByte s a b).nib = s.nib := rfl
@[simp] theorem storeByte_xopp (s : State) (a : Word) (b : Byte) : (storeByte s a b).xopp = s.xopp := rfl
@[simp] theorem storeByte_sleep (s : State) (a : Word) (b : Byte) : (storeByte s a b).sleep = s.sleep := rfl
@[simp] theorem storeByte_acc (s : State) (a : Word) (b : Byte) : (storeByte s a b).acc = s.acc := rfl
@[simp] theorem storeByte_rs0 (s : State) (a : Word) (b : Byte) : (storeByte s a b).rs0 = s.rs0 := rfl
@[simp] theorem storeByte_rs1 (s : State) (a : Word) (b : Byte) : (storeByte s a b).rs1 = s.rs1 := rfl
@[simp] theorem storeByte_ra0 (s : State) (a : Word) (b : Byte) : (storeByte s a b).ra0 = s.ra0 := rfl
@[simp] theorem storeByte_ra1 (s : State) (a : Word) (b : Byte) : (storeByte s a b).ra1 = s.ra1 := rfl
@[simp] theorem storeByte_c (s : State) (a : Word) (b : Byte) : (storeByte s a b).c = s.c := rfl
@[simp] theorem storeByte_z (s : State) (a : Word) (b : Byte) : (storeByte s a b).z = s.z := rfl
@[simp] theorem storeByte_n (s : State) (a : Word) (b : Byte) : (storeByte s a b).n = s.n := rfl
@[simp] theorem storeByte_v (s : State) (a : Word) (b : Byte) : (storeByte s a b).v = s.v := rfl
@[simp] theorem storeByte_cfg (s : State) (a : Word) (b : Byte) : (storeByte s a b).cfg = s.cfg := rfl
@[simp] theorem storeByte_ia (s : State) (a : Word) (b : Byte) : (storeByte s a b).ia = s.ia := rfl
@[simp] theorem storeByte_iar (s : State) (a : Word) (b : Byte) : (storeByte s a b).iar = s.iar := rfl
@[simp] theorem storeByte_gpr1 (s : State) (a : Word) (b : Byte) : (storeByte s a b).gpr1 = s.gpr1 := rfl
@[simp] theorem storeByte_gpr2 (s : State) (a : Word) (b : Byte) : (storeByte s a b).gpr2 = s.gpr2 := rfl
@[simp] theorem storeByte_gpr3 (s : State) (a : Word) (b : Byte) : (storeByte s a b).gpr3 = s.gpr3 := rfl
@[simp] theorem storeByte_timer (s : State) (a : Word) (b : Byte) : (storeByte s a b).timer = s.timer := rfl
@[simp] theorem storeByte_timercmp (s : State) (a : Word) (b : Byte) : (storeByte s a b).timercmp = s.timercmp := rfl
@[simp] theorem storeByte_evtctrl (s : State) (a : Word) (b : Byte) : (storeByte s a b).evtctrl = s.evtctrl := rfl
@[simp] theorem storeByte_mem (s : State) (a : Word) (b : Byte) : (storeByte s a b).mem = memInsert s.mem a.toNat b := rfl
@[simp] theorem storeByte_modified (s : State) (a : Word) (b : Byte) : (storeByte s a b).modified = markAddress s.modified a.toNat := rfl
@[simp] theorem storeByte_env (s : State) (a : Word) (b : Byte) : (storeByte s a b).env = s.env := rfl
@[simp] theorem storeByte_freeCount (s : State) (a : Word) (b : Byte) : (storeByte s a b).freeCount = s.freeCount := rfl

/-! ### `advance` -/

@[simp] theorem advance_params (k : Nat) (s : State) : (advance k s).params = s.params := rfl
@[simp] theorem advance_pc (k : Nat) (s : State) : (advance k s).pc = nibbleAddr s k := rfl
@[simp] theorem advance_nib (k : Nat) (s : State) : (advance k s).nib = (nibbleIndex s k % 2 == 1) := rfl
@[simp] theorem advance_xopp (k : Nat) (s : State) : (advance k s).xopp = false := rfl
@[simp] theorem advance_sleep (k : Nat) (s : State) : (advance k s).sleep = s.sleep := rfl
@[simp] theorem advance_acc (k : Nat) (s : State) : (advance k s).acc = s.acc := rfl
@[simp] theorem advance_rs0 (k : Nat) (s : State) : (advance k s).rs0 = s.rs0 := rfl
@[simp] theorem advance_rs1 (k : Nat) (s : State) : (advance k s).rs1 = s.rs1 := rfl
@[simp] theorem advance_ra0 (k : Nat) (s : State) : (advance k s).ra0 = s.ra0 := rfl
@[simp] theorem advance_ra1 (k : Nat) (s : State) : (advance k s).ra1 = s.ra1 := rfl
@[simp] theorem advance_c (k : Nat) (s : State) : (advance k s).c = s.c := rfl
@[simp] theorem advance_z (k : Nat) (s : State) : (advance k s).z = s.z := rfl
@[simp] theorem advance_n (k : Nat) (s : State) : (advance k s).n = s.n := rfl
@[simp] theorem advance_v (k : Nat) (s : State) : (advance k s).v = s.v := rfl
@[simp] theorem advance_cfg (k : Nat) (s : State) : (advance k s).cfg = s.cfg := rfl
@[simp] theorem advance_ia (k : Nat) (s : State) : (advance k s).ia = s.ia := rfl
@[simp] theorem advance_iar (k : Nat) (s : State) : (advance k s).iar = s.iar := rfl
@[simp] theorem advance_gpr1 (k : Nat) (s : State) : (advance k s).gpr1 = s.gpr1 := rfl
@[simp] theorem advance_gpr2 (k : Nat) (s : State) : (advance k s).gpr2 = s.gpr2 := rfl
@[simp] theorem advance_gpr3 (k : Nat) (s : State) : (advance k s).gpr3 = s.gpr3 := rfl
@[simp] theorem advance_timer (k : Nat) (s : State) : (advance k s).timer = s.timer := rfl
@[simp] theorem advance_timercmp (k : Nat) (s : State) : (advance k s).timercmp = s.timercmp := rfl
@[simp] theorem advance_evtctrl (k : Nat) (s : State) : (advance k s).evtctrl = s.evtctrl := rfl
@[simp] theorem advance_mem (k : Nat) (s : State) : (advance k s).mem = s.mem := rfl
@[simp] theorem advance_modified (k : Nat) (s : State) : (advance k s).modified = s.modified := rfl
@[simp] theorem advance_env (k : Nat) (s : State) : (advance k s).env = s.env := rfl
@[simp] theorem advance_freeCount (k : Nat) (s : State) : (advance k s).freeCount = s.freeCount := rfl

/-! ### `pollEnv` -/

@[simp] theorem pollEnv_params (s : State) : (pollEnv s).params = s.params := rfl
@[simp] theorem pollEnv_pc (s : State) : (pollEnv s).pc = s.pc := rfl
@[simp] theorem pollEnv_nib (s : State) : (pollEnv s).nib = s.nib := rfl
@[simp] theorem pollEnv_xopp (s : State) : (pollEnv s).xopp = s.xopp := rfl
@[simp] theorem pollEnv_sleep (s : State) : (pollEnv s).sleep = s.sleep := rfl
@[simp] theorem pollEnv_acc (s : State) : (pollEnv s).acc = s.acc := rfl
@[simp] theorem pollEnv_rs0 (s : State) : (pollEnv s).rs0 = s.rs0 := rfl
@[simp] theorem pollEnv_rs1 (s : State) : (pollEnv s).rs1 = s.rs1 := rfl
@[simp] theorem pollEnv_ra0 (s : State) : (pollEnv s).ra0 = s.ra0 := rfl
@[simp] theorem pollEnv_ra1 (s : State) : (pollEnv s).ra1 = s.ra1 := rfl
@[simp] theorem pollEnv_c (s : State) : (pollEnv s).c = s.c := rfl
@[simp] theorem pollEnv_z (s : State) : (pollEnv s).z = s.z := rfl
@[simp] theorem pollEnv_n (s : State) : (pollEnv s).n = s.n := rfl
@[simp] theorem pollEnv_v (s : State) : (pollEnv s).v = s.v := rfl
@[simp] theorem pollEnv_cfg (s : State) : (pollEnv s).cfg = s.cfg := rfl
@[simp] theorem pollEnv_ia (s : State) : (pollEnv s).ia = s.ia := rfl
@[simp] theorem pollEnv_iar (s : State) : (pollEnv s).iar = s.iar := rfl
@[simp] theorem pollEnv_gpr1 (s : State) : (pollEnv s).gpr1 = s.gpr1 := rfl
@[simp] theorem pollEnv_gpr2 (s : State) : (pollEnv s).gpr2 = s.gpr2 := rfl
@[simp] theorem pollEnv_gpr3 (s : State) : (pollEnv s).gpr3 = s.gpr3 := rfl
@[simp] theorem pollEnv_timer (s : State) : (pollEnv s).timer = s.timer := rfl
@[simp] theorem pollEnv_timercmp (s : State) : (pollEnv s).timercmp = s.timercmp := rfl
@[simp] theorem pollEnv_evtctrl (s : State) : (pollEnv s).evtctrl = (if (envInput s).ext then (setEvtBit evtExtP true s).evtctrl else s.evtctrl) := rfl
@[simp] theorem pollEnv_mem (s : State) : (pollEnv s).mem = s.mem := rfl
@[simp] theorem pollEnv_modified (s : State) : (pollEnv s).modified = s.modified := rfl
@[simp] theorem pollEnv_env (s : State) : (pollEnv s).env = s.env.tail := rfl
@[simp] theorem pollEnv_freeCount (s : State) : (pollEnv s).freeCount = nextFree s := rfl

/-! ### What the derived readings depend on -/

@[simp] theorem mode_setActive (r : Word) (s : State) : (setActive r s).mode = s.mode := rfl
@[simp] theorem width_setActive (r : Word) (s : State) : (setActive r s).width = s.width := rfl
@[simp] theorem width_setZN (w : Nat) (r : Word) (s : State) : (setZN w r s).width = s.width := rfl
@[simp] theorem width_setCVZN (w : Nat) (res : AluResult) (s : State) : (setCVZN w res s).width = s.width := rfl
@[simp] theorem evt_setActive (r : Word) (s : State) : (setActive r s).evt = s.evt := rfl
@[simp] theorem evt_jumpTo (target : Word) (s : State) : (jumpTo target s).evt = s.evt := rfl
@[simp] theorem evt_storeByte (s : State) (a : Word) (b : Byte) : (storeByte s a b).evt = s.evt := rfl
@[simp] theorem evt_advance (k : Nat) (s : State) : (advance k s).evt = s.evt := rfl
@[simp] theorem evtBit_jumpTo (target : Word) (s : State) (i : Nat) : (jumpTo target s).evtBit i = s.evtBit i := rfl
@[simp] theorem evtBit_storeByte (s : State) (a : Word) (b : Byte) (i : Nat) :
    (storeByte s a b).evtBit i = s.evtBit i := rfl
@[simp] theorem evtBit_advance (k : Nat) (s : State) (i : Nat) : (advance k s).evtBit i = s.evtBit i := rfl

/-- Reading a byte looks at memory alone. -/
theorem readByte_congr {s t : State} (h : t.mem = s.mem) (a : Word) : readByte t a = readByte s a := by
  rw [readByte, readByte, h]

end Sys2Proof.Machine
end

