-- ==== Sys2Proof/Laws/Flags.lean ====
section
/-! SUPPORT. What the ALU computes, as numbers: `AddW` (R12), `SubW` (R13), `SetZN` (R33), signed readings
(R10), and the writing of results to the active accumulator (R21). -/

namespace Sys2Proof.Machine

/-- The active width is at most 16. -/
theorem width_le (s : State) : s.width ≤ 16 := by rcases width_cases s with h | h | h <;> omega

/-- The active width is at least 1. -/
theorem width_pos (s : State) : 0 < s.width := by rcases width_cases s with h | h | h <;> omega

/-- `2^Wd` is at most `2^16`. -/
theorem two_pow_width_le (s : State) : 2 ^ s.width ≤ 65536 :=
  Nat.pow_le_pow_right (n := 2) (by omega) (width_le s)

/-- The result of `AddW` as a number (R12). -/
theorem toNat_addW_r (w : Nat) (a b : Word) (cin : Bool) (hw : w ≤ 16) :
    (addW w a b cin).r.toNat = (a.toNat + b.toNat + cin.toNat) % 2 ^ w := by
  have h1 : (a.toNat + b.toNat + cin.toNat) % 2 ^ w < 2 ^ w := Nat.mod_lt _ (Nat.two_pow_pos w)
  have h2 : 2 ^ w ≤ 2 ^ 16 := Nat.pow_le_pow_right (by omega) hw
  simp only [addW, BitVec.toNat_ofNat]
  exact Nat.mod_eq_of_lt (by omega)

/-- The result of `SubW` as a number (R13). -/
theorem toNat_subW_r (w : Nat) (a b : Word) (bin : Bool) (hw : w ≤ 16) :
    ((subW w a b bin).r.toNat : Int) = ((a.toNat : Int) - b.toNat - bin.toNat) % 2 ^ w := by
  have h0 : (0 : Int) < 2 ^ w := by positivity
  have h1 := Int.emod_lt_of_pos ((a.toNat : Int) - b.toNat - bin.toNat) h0
  have h2 := Int.emod_nonneg ((a.toNat : Int) - b.toNat - bin.toNat) (Int.ne_of_gt h0)
  have h3 : (2 : Int) ^ w ≤ 2 ^ 16 := pow_le_pow_right₀ (by omega) hw
  simp only [subW, BitVec.toNat_ofInt]
  rw [Int.emod_eq_of_lt h2 (by norm_num at h3 ⊢; omega)]
  exact Int.toNat_of_nonneg h2

/-- The signed reading of a `w`-bit value held in a word is the two's-complement reading of its number
(R10). -/
theorem signedValue_eq (w : Nat) (v : Word) (hw : 0 < w) (hv : v.toNat < 2 ^ w) :
    signedValue w v = sintOf w v.toNat := by
  rw [signedValue, sintOf, BitVec.toInt_eq_msb_cond, BitVec.msb_eq_getLsbD_last, BitVec.getLsbD_ofNat,
    BitVec.toNat_ofNat, Nat.mod_eq_of_lt hv, BitVec.getLsbD]
  have : w - 1 < w := by omega
  simp only [this, decide_true, Bool.true_and]
  norm_cast

/-- `Z` says that the number is 0 (R33). -/
theorem zeroOf_eq (r : Word) : zeroOf r = decide (r.toNat = 0) := by
  simp only [zeroOf, ← BitVec.toNat_inj, beq_eq_decide]
  rfl

/-- `N` of a result given as a number modulo `2^w` is bit `w - 1` of the number (R33). -/
theorem negOf_eq (w : Nat) (r : Word) (k : Nat) (hw : 0 < w) (h : r.toNat = k % 2 ^ w) :
    negOf w r = k.testBit (w - 1) := by
  rw [negOf, BitVec.getLsbD, h, Nat.testBit_mod_two_pow]
  simp; omega

/-- `v` of `AddW` and `SubW` says that the exact signed result does not fit the width (R12, R13). -/
theorem signedOverflow_iff (s : State) (x : Int) : signedOverflow s.width x = true ↔ OutOfRange s x := by
  simp only [signedOverflow, OutOfRange, Bool.or_eq_true, decide_eq_true_eq, gt_iff_lt]

/-- Writing the active accumulator, as numbers (R21). -/
theorem accBecomes_setActive (s : State) (r : Word) (k : Nat) (h : r.toNat % 2 ^ s.width = k % 2 ^ s.width) :
    AccBecomes s (setActive r s) k :=
  ⟨by rw [setActive_acc, toNat_setLowBits_mod _ _ _ (width_le s), h],
   by rw [setActive_acc, toNat_setLowBits_div _ _ _ (width_le s)]⟩

/-- `AccBecomes` looks at the accumulators alone. -/
theorem AccBecomes.congr {s t u : State} {k : Nat} (h : AccBecomes s t k) (hu : u.acc = t.acc) :
    AccBecomes s u k := by
  rw [AccBecomes, hu]; exact h

/-- `OP2` as a number (R45, R150). -/
theorem toNat_op2Value (s : State) (o : Operand) : (op2Value s o).toNat = op2Nat s o := by
  cases o with
  | rs0 => exact toNat_lowBits _ _ (width_le s)
  | imm v =>
    rw [op2Value, op2Nat, toNat_lowBits _ _ (width_le s)]
    cases v with
    | w4 v => simp only [immWord, immNat, BitVec.toNat_setWidth]; rw [Nat.mod_eq_of_lt (a := v.toNat) (by omega)]
    | w8 v => simp only [immWord, immNat, BitVec.toNat_setWidth]; rw [Nat.mod_eq_of_lt (a := v.toNat) (by omega)]
    | w16 v => rfl

/-- The active accumulator is a `Wd`-bit number. -/
theorem accNat_lt (s : State) : accNat s < 2 ^ s.width := Nat.mod_lt _ (Nat.two_pow_pos _)

/-- `OP2` is a `Wd`-bit number. -/
theorem op2Nat_lt (s : State) (o : Operand) : op2Nat s o < 2 ^ s.width := by
  cases o <;> exact Nat.mod_lt _ (Nat.two_pow_pos _)

/-- The carry-in as a number (R41). -/
theorem toNat_carryIn (s : State) : (carryIn s).toNat = carryNat s := by
  simp only [carryIn, cfgCI, carryNat]
  cases s.cfg.getLsbD 7 <;> cases s.c <;> rfl

end Sys2Proof.Machine
end

