-- ==== Sys2Proof/Laws/Memory.lean ====
section
/-! SUPPORT. The laws of memory: reads after writes, and that every memory operation keeps the canonical
form of memory and of the record of stored addresses. -/

namespace Sys2Proof.Machine

/-! ### Reads after writes -/

/-- An address below every listed one reads as an unlisted address does. -/
theorem memLookup_below (m : Memory) (lo k : Nat) (h : memWfFrom lo m = true) (hk : k < lo) :
    memLookup m k = unlistedByte := by
  induction m generalizing lo with
  | nil => rfl
  | cons cell rest ih =>
    simp only [memWfFrom, Bool.and_eq_true, decide_eq_true_eq] at h
    rw [memLookup, if_neg (by omega)]
    exact ih (cell.1 + 1) h.2 (by omega)

/-- What a one-cell list, or the empty one in its place, adds to a lookup. -/
theorem memLookup_memCell_append (m : Memory) (lo a k : Nat) (b : Byte) (h : memWfFrom lo m = true)
    (ha : a < lo) : memLookup (memCell a b ++ m) k = if k = a then b else memLookup m k := by
  unfold memCell
  by_cases hb : b = unlistedByte
  · simp only [hb, if_true, List.nil_append]
    by_cases hk : k = a
    · rw [if_pos hk, memLookup_below m lo k h (by omega)]
    · rw [if_neg hk]
  · rw [if_neg hb]
    simp only [List.cons_append, List.nil_append, memLookup]
    by_cases hk : k = a
    · rw [if_pos hk.symm, if_pos hk]
    · rw [if_neg (fun e => hk e.symm), if_neg hk]

/-- A byte reads as what was written there last, every other byte as before (R82, R83). -/
theorem memLookup_memInsert (m : Memory) (lo a k : Nat) (b : Byte) (h : memWfFrom lo m = true) :
    memLookup (memInsert m a b) k = if k = a then b else memLookup m k := by
  induction m generalizing lo with
  | nil =>
    have := memLookup_memCell_append [] (a + 1) a k b rfl (by omega)
    rwa [List.append_nil] at this
  | cons cell rest ih =>
    have h' := h
    simp only [memWfFrom, Bool.and_eq_true, decide_eq_true_eq] at h'
    unfold memInsert
    by_cases h1 : a < cell.1
    · rw [if_pos h1]
      have hw : memWfFrom cell.1 (cell :: rest) = true := by
        simp only [memWfFrom, Bool.and_eq_true, decide_eq_true_eq]
        exact ⟨⟨⟨Nat.le_refl _, h'.1.1.2⟩, h'.1.2⟩, h'.2⟩
      exact memLookup_memCell_append _ cell.1 a k b hw h1
    · rw [if_neg h1]
      by_cases h2 : a = cell.1
      · rw [if_pos h2, memLookup_memCell_append rest (cell.1 + 1) a k b h'.2 (by omega)]
        by_cases hk : k = a
        · rw [if_pos hk, if_pos hk]
        · rw [if_neg hk, if_neg hk, memLookup, if_neg (by omega)]
      · rw [if_neg h2]
        simp only [memLookup]
        by_cases hk : cell.1 = k
        · rw [if_pos hk, if_pos hk, if_neg (by omega)]
        · rw [if_neg hk, if_neg hk, ih (cell.1 + 1) h'.2]

/-! ### The canonical form -/

/-- A canonical list stays canonical from any lower start. -/
theorem memWfFrom_mono (m : Memory) (lo lo' : Nat) (h : memWfFrom lo m = true) (hl : lo' ≤ lo) :
    memWfFrom lo' m = true := by
  cases m with
  | nil => rfl
  | cons cell rest =>
    simp only [memWfFrom, Bool.and_eq_true, decide_eq_true_eq] at h ⊢
    exact ⟨⟨⟨by omega, h.1.1.2⟩, h.1.2⟩, h.2⟩

/-- Putting one byte before a canonical list keeps the form. -/
theorem memWfFrom_memCell_append (m : Memory) (lo a : Nat) (b : Byte) (h : memWfFrom (a + 1) m = true)
    (hlo : lo ≤ a) (ha : a < 65536) : memWfFrom lo (memCell a b ++ m) = true := by
  unfold memCell
  by_cases hb : b = unlistedByte
  · rw [if_pos hb, List.nil_append]
    exact memWfFrom_mono m (a + 1) lo h (by omega)
  · rw [if_neg hb]
    simp only [List.cons_append, List.nil_append, memWfFrom, Bool.and_eq_true, decide_eq_true_eq]
    exact ⟨⟨⟨hlo, ha⟩, hb⟩, h⟩

/-- Writing a byte keeps the canonical form. -/
theorem memWfFrom_memInsert (m : Memory) (lo a : Nat) (b : Byte) (h : memWfFrom lo m = true)
    (hlo : lo ≤ a) (ha : a < 65536) : memWfFrom lo (memInsert m a b) = true := by
  induction m generalizing lo with
  | nil =>
    have := memWfFrom_memCell_append [] lo a b rfl hlo ha
    rwa [List.append_nil] at this
  | cons cell rest ih =>
    have h' := h
    simp only [memWfFrom, Bool.and_eq_true, decide_eq_true_eq] at h'
    unfold memInsert
    by_cases h1 : a < cell.1
    · rw [if_pos h1]
      refine memWfFrom_memCell_append _ lo a b ?_ hlo ha
      simp only [memWfFrom, Bool.and_eq_true, decide_eq_true_eq]
      exact ⟨⟨⟨by omega, h'.1.1.2⟩, h'.1.2⟩, h'.2⟩
    · rw [if_neg h1]
      by_cases h2 : a = cell.1
      · rw [if_pos h2]
        exact memWfFrom_memCell_append rest lo a b (h2 ▸ h'.2) hlo ha
      · rw [if_neg h2]
        simp only [memWfFrom, Bool.and_eq_true, decide_eq_true_eq]
        exact ⟨h'.1, ih (cell.1 + 1) h'.2 (by omega)⟩

/-- Writing a byte at a 16-bit address keeps the canonical form. -/
theorem memInsert_wf (m : Memory) (a : Word) (b : Byte) (h : m.wf = true) :
    Memory.wf (memInsert m a.toNat b) = true :=
  memWfFrom_memInsert m 0 a.toNat b h (Nat.zero_le _) a.isLt

/-- The memory of the reset state is canonical. -/
theorem reset_mem_wf : State.reset.mem.wf = true := rfl

/-- `storeByte` keeps the canonical form. -/
theorem storeByte_mem_wf (s : State) (a : Word) (b : Byte) (h : s.mem.wf = true) :
    (storeByte s a b).mem.wf = true := memInsert_wf s.mem a b h

/-- `storeWord` keeps the canonical form. -/
theorem storeWord_mem_wf (s : State) (a w : Word) (h : s.mem.wf = true) : (storeWord s a w).mem.wf = true :=
  storeByte_mem_wf _ _ _ (storeByte_mem_wf _ _ _ h)

/-- `storeBytes` keeps the canonical form. -/
theorem storeBytes_mem_wf (s : State) (a : Word) (bs : List Byte) (h : s.mem.wf = true) :
    (storeBytes s a bs).mem.wf = true := by
  induction bs generalizing s a with
  | nil => exact h
  | cons b rest ih => exact ih _ _ (storeByte_mem_wf s a b h)

/-- `placeByte` keeps the canonical form. -/
theorem placeByte_mem_wf (s : State) (a : Word) (b : Byte) (h : s.mem.wf = true) :
    (placeByte a b s).mem.wf = true := memInsert_wf s.mem a b h

/-- Reading a byte after a byte was stored (R82, R83). -/
theorem readByte_storeByte (s : State) (a k : Word) (b : Byte) (h : s.mem.wf = true) :
    readByte (storeByte s a b) k = if k = a then b else readByte s k := by
  simp only [readByte, storeByte_mem, memLookup_memInsert s.mem 0 a.toNat k.toNat b h, BitVec.toNat_inj]

/-- Reading a byte after a word was stored, low byte first (R84). -/
theorem readByte_storeWord (s : State) (a k w : Word) (h : s.mem.wf = true) :
    readByte (storeWord s a w) k =
      if k = a + 1 then hiByte w else if k = a then loByte w else readByte s k := by
  rw [storeWord, readByte_storeByte _ _ _ _ (storeByte_mem_wf s a _ h), readByte_storeByte s a k _ h]

/-- A byte outside the addresses stored to reads as before. -/
theorem readByte_storeBytes_frame (s : State) (a k : Word) (bs : List Byte) (h : s.mem.wf = true)
    (hk : k ∉ addrsFrom a bs.length) : readByte (storeBytes s a bs) k = readByte s k := by
  induction bs generalizing s a with
  | nil => rfl
  | cons b rest ih =>
    simp only [List.length_cons, addrsFrom, List.mem_cons, not_or] at hk
    rw [storeBytes, ih _ _ (storeByte_mem_wf s a b h) hk.2, readByte_storeByte s a k b h, if_neg hk.1]

/-- The addresses of a run of `n` bytes from `a` on, modulo 2^16. -/
theorem mem_addrsFrom (a k : Word) (n : Nat) :
    k ∈ addrsFrom a n ↔ ∃ i, i < n ∧ k = a + BitVec.ofNat 16 i := by
  induction n generalizing a with
  | zero => simp [addrsFrom]
  | succ n ih =>
    simp only [addrsFrom, List.mem_cons, ih]
    have hs : ∀ i, a + 1 + BitVec.ofNat 16 i = a + BitVec.ofNat 16 (i + 1) := by
      intro i
      rw [BitVec.add_assoc, BitVec.ofNat_add, BitVec.add_comm (BitVec.ofNat 16 i)]
      rfl
    constructor
    · rintro (h | ⟨i, hi, h⟩)
      · exact ⟨0, by omega, by rw [h]; simp⟩
      · exact ⟨i + 1, by omega, by rw [h, hs]⟩
    · rintro ⟨i, hi, h⟩
      cases i with
      | zero => exact .inl (by rw [h]; simp)
      | succ i => exact .inr ⟨i, by omega, by rw [h, hs]⟩

/-- The bytes stored from an address on read back, each at its place. -/
theorem readByte_storeBytes (s : State) (a : Word) (bs : List Byte) (i : Nat) (hi : i < bs.length)
    (h : s.mem.wf = true) (hl : bs.length ≤ 65536) :
    readByte (storeBytes s a bs) (a + BitVec.ofNat 16 i) = bs[i] := by
  induction bs generalizing s a i with
  | nil => exact absurd hi (Nat.not_lt_zero i)
  | cons b rest ih =>
    rw [List.length_cons] at hi hl
    cases i with
    | zero =>
      have hn : a ∉ addrsFrom (a + 1) rest.length := by
        rw [mem_addrsFrom]
        rintro ⟨j, hj, e⟩
        have := congrArg BitVec.toNat e
        have ha := a.isLt
        simp only [BitVec.toNat_add, BitVec.toNat_ofNat, show (1 : Word).toNat = 1 from rfl] at this
        omega
      rw [storeBytes, show a + BitVec.ofNat 16 0 = a by simp,
        readByte_storeBytes_frame _ _ _ _ (storeByte_mem_wf s a b h) hn, readByte_storeByte s a a b h, if_pos rfl]
      rfl
    | succ i =>
      have hs : a + BitVec.ofNat 16 (i + 1) = a + 1 + BitVec.ofNat 16 i := by
        rw [BitVec.add_assoc, BitVec.ofNat_add, BitVec.add_comm (BitVec.ofNat 16 i)]
        rfl
      rw [storeBytes, hs, ih _ _ i (by omega) (storeByte_mem_wf s a b h) (by omega)]
      rfl

/-- Storing bytes changes memory and the record of stored addresses, nothing else. -/
theorem storeBytes_eq (s : State) (a : Word) (bs : List Byte) :
    storeBytes s a bs =
      { s with mem := (storeBytes s a bs).mem, modified := (storeBytes s a bs).modified } := by
  induction bs generalizing s a with
  | nil => rfl
  | cons b rest ih => exact ih (storeByte s a b) (a + 1)

/-! ### The record of stored addresses (R98) -/

/-- Marking an address keeps the record rising. -/
theorem risingFrom_markAddress (l : List Nat) (lo a : Nat) (h : risingFrom lo l = true) (hlo : lo ≤ a)
    (ha : a < 65536) : risingFrom lo (markAddress l a) = true := by
  induction l generalizing lo with
  | nil => simp [markAddress, risingFrom, hlo, ha]
  | cons k rest ih =>
    simp only [risingFrom, Bool.and_eq_true, decide_eq_true_eq] at h
    unfold markAddress
    by_cases h1 : a < k
    · simp only [if_pos h1, risingFrom, Bool.and_eq_true, decide_eq_true_eq]
      exact ⟨⟨hlo, ha⟩, ⟨by omega, h.1.2⟩, h.2⟩
    · by_cases h2 : a = k
      · simp only [if_neg h1, if_pos h2, risingFrom, Bool.and_eq_true, decide_eq_true_eq]
        exact h
      · simp only [if_neg h1, if_neg h2, risingFrom, Bool.and_eq_true, decide_eq_true_eq]
        exact ⟨h.1, ih (k + 1) h.2 (by omega)⟩

/-- What is marked is the address and what was marked before. -/
theorem mem_markAddress (l : List Nat) (a k : Nat) : k ∈ markAddress l a ↔ k = a ∨ k ∈ l := by
  induction l with
  | nil => simp [markAddress]
  | cons j rest ih =>
    unfold markAddress
    split
    · simp
    · split
      · rename_i h; subst h; simp
      · rw [List.mem_cons, List.mem_cons, ih]
        exact or_left_comm

/-- `storeByte` keeps the record of stored addresses rising. -/
theorem storeByte_modified_rising (s : State) (a : Word) (b : Byte) (h : risingFrom 0 s.modified = true) :
    risingFrom 0 (storeByte s a b).modified = true :=
  risingFrom_markAddress _ 0 _ h (Nat.zero_le _) a.isLt

/-- `storeBytes` keeps the record of stored addresses rising. -/
theorem storeBytes_modified_rising (s : State) (a : Word) (bs : List Byte)
    (h : risingFrom 0 s.modified = true) : risingFrom 0 (storeBytes s a bs).modified = true := by
  induction bs generalizing s a with
  | nil => exact h
  | cons b rest ih => exact ih _ _ (storeByte_modified_rising s a b h)

/-- A stored byte is recorded as stored to, and nothing else is (R98). -/
theorem mem_storeByte_modified (s : State) (a : Word) (b : Byte) (k : Nat) :
    k ∈ (storeByte s a b).modified ↔ k = a.toNat ∨ k ∈ s.modified := mem_markAddress _ _ _

/-- `storeWord` records its two addresses (R98). -/
theorem mem_storeWord_modified (s : State) (a w : Word) (k : Nat) :
    k ∈ (storeWord s a w).modified ↔ k = (a + 1).toNat ∨ k = a.toNat ∨ k ∈ s.modified := by
  rw [storeWord, mem_storeByte_modified, mem_storeByte_modified]

/-- `storeBytes` records the address of every byte of its list (R98). -/
theorem mem_storeBytes_modified (s : State) (a : Word) (bs : List Byte) (k : Nat) :
    k ∈ (storeBytes s a bs).modified ↔ k ∈ s.modified ∨ ∃ x ∈ addrsFrom a bs.length, k = x.toNat := by
  induction bs generalizing s a with
  | nil => simp [storeBytes, addrsFrom]
  | cons b rest ih =>
    rw [storeBytes, ih, mem_storeByte_modified]
    simp only [List.length_cons, addrsFrom, List.mem_cons, exists_eq_or_imp]
    tauto

end Sys2Proof.Machine
end

