-- ==== Sys2Proof/Laws/Ops.lean ====
section
/-! SUPPORT. One lemma for each shared operation that says once everything it can do. -/

namespace Sys2Proof.Machine

/-! ### Guards of `MEMORY_MAP` (R83) -/

/-- A guarded read goes on where every address may be read. -/
theorem guardReads_of_readable {s : State} {as : List Word} (r : Result) (h : Readable s as) :
    guardReads s as r = r := by
  have : as.findSome? (readRefusal s) = none := List.findSome?_eq_none_iff.mpr h
  rw [guardReads, this]

/-- A guarded store goes on where every address may be stored to. -/
theorem guardStores_of_writable {s : State} {as : List Word} (r : Result) (h : Writable s as) :
    guardStores s as r = r := by
  have : as.findSome? (storeRefusal s) = none := List.findSome?_eq_none_iff.mpr h
  rw [guardStores, this]

/-- A guarded read goes on, or is refused by an address of its own that nothing backs (R83). -/
theorem guardReads_cases (s : State) (as : List Word) (r : Result) :
    (Readable s as ∧ guardReads s as r = r) ∨
    ∃ a ∈ as, backingAt s.params.memoryMap a.toNat = .nothing ∧
      guardReads s as r = .refused (.unbackedAddress a) := by
  unfold guardReads
  cases h : as.findSome? (readRefusal s) with
  | none => exact .inl ⟨List.findSome?_eq_none_iff.1 h, rfl⟩
  | some why =>
    obtain ⟨a, ha, hw⟩ := List.exists_of_findSome?_eq_some h
    unfold readRefusal at hw
    split at hw <;> cases hw
    exact .inr ⟨a, ha, ‹_›, rfl⟩

/-- A guarded store goes on, or is refused by an address of its own that nothing or ROM backs (R83). -/
theorem guardStores_cases (s : State) (as : List Word) (r : Result) :
    (Writable s as ∧ guardStores s as r = r) ∨
    ∃ a ∈ as,
      (backingAt s.params.memoryMap a.toNat = .nothing ∧ guardStores s as r = .refused (.unbackedAddress a)) ∨
      (backingAt s.params.memoryMap a.toNat = .rom ∧ guardStores s as r = .refused (.storeToRom a)) := by
  unfold guardStores
  cases h : as.findSome? (storeRefusal s) with
  | none => exact .inl ⟨List.findSome?_eq_none_iff.1 h, rfl⟩
  | some why =>
    obtain ⟨a, ha, hw⟩ := List.exists_of_findSome?_eq_some h
    unfold storeRefusal at hw
    split at hw <;> cases hw
    · exact .inr ⟨a, ha, .inr ⟨‹_›, rfl⟩⟩
    · exact .inr ⟨a, ha, .inl ⟨‹_›, rfl⟩⟩

/-- If a guarded read answers a next state, every address may be read and the answer is the guarded one. -/
theorem guardReads_next {s t : State} {as : List Word} {r : Result} (h : guardReads s as r = .next t) :
    Readable s as ∧ r = .next t := by
  unfold guardReads at h
  split at h
  · cases h
  · rename_i hn
    exact ⟨List.findSome?_eq_none_iff.mp hn, h⟩

/-- If a guarded store answers a next state, every address may be stored to and the answer is the guarded
one. -/
theorem guardStores_next {s t : State} {as : List Word} {r : Result} (h : guardStores s as r = .next t) :
    Writable s as ∧ r = .next t := by
  unfold guardStores at h
  split at h
  · cases h
  · rename_i hn
    exact ⟨List.findSome?_eq_none_iff.mp hn, h⟩

/-! ### Control transfer (R24, R25, R190) -/

/-- `PC_next` where it has a value: rounded up in the middle of a byte. -/
theorem pcNext_eq (s : State) (h : s.nib = true → s.params.pcNextMidByte = .roundUp) :
    pcNext s = some (s.pc + BitVec.ofNat 16 s.nib.toNat) := by
  unfold pcNext
  cases hn : s.nib
  · simp
  · simp [h hn]

/-- If a branch answers a next state, it was not taken and nothing changed, or it went to its target. -/
theorem branchIf_next {cond : Bool} {off : BranchImm} {s t : State} (h : branchIf cond off s = .next t) :
    (cond = false ∧ t = s) ∨
    (cond = true ∧ ∃ pn, pcNext s = some pn ∧ t = jumpTo (pn + branchOffset s off) s) := by
  unfold branchIf at h
  cases cond
  · exact .inl ⟨rfl, (Host.Outcome.next.inj h).symm⟩
  · simp only [if_true] at h
    cases hp : pcNext s with
    | none => rw [hp] at h; cases h
    | some pn => rw [hp] at h; exact .inr ⟨rfl, pn, rfl, (Host.Outcome.next.inj h).symm⟩

/-! ### The CSR bank (R242) -/

/-- What `CsrWrite` may change: one of seven registers. -/
theorem csrWrite_eq (idx : BitVec 4) (w : Word) (s : State) :
    csrWrite idx w s =
      { s with
        cfg := (csrWrite idx w s).cfg
        ia := (csrWrite idx w s).ia
        gpr1 := (csrWrite idx w s).gpr1
        gpr2 := (csrWrite idx w s).gpr2
        gpr3 := (csrWrite idx w s).gpr3
        timer := (csrWrite idx w s).timer
        timercmp := (csrWrite idx w s).timercmp
        evtctrl := (csrWrite idx w s).evtctrl } := by
  unfold csrWrite
  cases csrName idx <;> dsimp only <;> first | rfl | (split <;> rfl)

/-- Only index 1 writes `CFG` and only index 8 writes `IA`. -/
theorem csrWrite_cfg_ia (idx : BitVec 4) (w : Word) (s : State) :
    ((csrWrite idx w s).cfg ≠ s.cfg → idx = 1) ∧ ((csrWrite idx w s).ia ≠ s.ia → idx = 8) := by
  unfold csrWrite csrName
  revert idx
  intro idx
  have hx : idx.toNat < 16 := idx.isLt
  constructor
  · intro h
    apply BitVec.eq_of_toNat_eq
    generalize idx.toNat = k at *
    interval_cases k <;> simp_all <;> (split at h <;> simp_all)
  · intro h
    apply BitVec.eq_of_toNat_eq
    generalize idx.toNat = k at *
    interval_cases k <;> simp_all <;> (split at h <;> simp_all)

/-! ### Interrupt entry and return (R260, R310) -/

/-- If interrupt entry answers a next state, `PC_next` had a value, the page could be stored to, and the
frame is stored and the ISR entered. -/
theorem takeInterrupt_next {s t : State} (h : takeInterrupt s = .next t) :
    (s.nib = true → s.params.intMidByte ≠ .fault) ∧
    ∃ pn, pcNext s = some pn ∧ Writable s (addrsFrom (pageBase s.ia) 8) ∧ t = saveAndEnter pn s := by
  unfold takeInterrupt at h
  split at h
  · cases h
  · rename_i hm
    split at h
    · cases h
    · rename_i pn hp
      obtain ⟨hw, ht⟩ := guardStores_next h
      refine ⟨fun hn hf => hm ?_, pn, hp, hw, (Host.Outcome.next.inj ht).symm⟩
      simp [hn, hf]

/-- Interrupt entry answers a next state where `PC_next` has a value and the page may be stored to. -/
theorem takeInterrupt_eq {s : State} {pn : Word} (hm : s.nib = true → s.params.intMidByte ≠ .fault)
    (hp : pcNext s = some pn) (hw : Writable s (addrsFrom (pageBase s.ia) 8)) :
    takeInterrupt s = .next (saveAndEnter pn s) := by
  have : (s.nib && s.params.intMidByte == .fault) = false := by
    cases hn : s.nib
    · rfl
    · simp [hm hn]
  unfold takeInterrupt
  rw [this, hp]
  exact guardStores_of_writable _ hw

/-- If the return answers a next state, the page could be read and the frame is restored. -/
theorem returnFromInterrupt_next {s t : State} (h : returnFromInterrupt s = .next t) :
    Readable s (addrsFrom (pageBase s.iar) 8) ∧ t = restoreFrame s := by
  obtain ⟨hr, ht⟩ := guardReads_next h
  exact ⟨hr, (Host.Outcome.next.inj ht).symm⟩

/-- What the return may change: the fetch position, `CFG`, the flags, `IA`, `IAR`, `RA1`, `EVTCTRL`. -/
theorem restoreFrame_eq (s : State) :
    restoreFrame s =
      { s with
        pc := (restoreFrame s).pc
        nib := false
        cfg := (restoreFrame s).cfg
        c := (restoreFrame s).c
        z := (restoreFrame s).z
        n := (restoreFrame s).n
        v := (restoreFrame s).v
        ia := (restoreFrame s).ia
        iar := (restoreFrame s).iar
        ra1 := (restoreFrame s).ra1
        evtctrl := (restoreFrame s).evtctrl } := rfl

/-- What entering the ISR may change once the frame is stored. -/
theorem enterIsr_eq (s : State) :
    enterIsr s =
      { s with
        pc := pageBase s.ia + 0x10
        nib := false
        xopp := false
        sleep := false
        iar := s.ia
        cfg := cfgSetIE s.cfg false
        evtctrl := (enterIsr s).evtctrl } := rfl

/-! ### Timer and watchdog (R320 to R322) -/

/-- One tick: nothing without the timer; else a count, a count with `T_P`, or a watchdog reset. -/
theorem tick_cases (s : State) :
    (s.params.time = false ∧ tick s = (s, false)) ∨
    (s.params.time = true ∧ s.timer + 1 ≠ s.timercmp ∧ tick s = ({ s with timer := s.timer + 1 }, false)) ∨
    (s.params.time = true ∧ s.timer + 1 = s.timercmp ∧ s.evtBit evtWdog = false ∧
      tick s = (setEvtBit evtTP true { s with timer := s.timer + 1 }, false)) ∨
    (s.params.time = true ∧ s.timer + 1 = s.timercmp ∧ s.evtBit evtWdog = true ∧
      tick s = (coreReset s, true)) := by
  have hne : s.timer + 1 = s.timercmp → s.timer ≠ s.timercmp := by
    intro h e
    rw [e] at h
    exact absurd h (by bv_omega)
  cases ht : s.params.time
  · exact .inl ⟨rfl, by rw [tick, if_neg (by simp [ht])]⟩
  · by_cases hm : s.timer + 1 = s.timercmp
    · have hc : s.timer ≠ s.timercmp ∧ s.timer + 1 = s.timercmp := ⟨hne hm, hm⟩
      cases hw : s.evtBit evtWdog
      · exact .inr (.inr (.inl ⟨rfl, hm, rfl, by rw [tick, if_pos ht, if_pos hc, if_neg (by simp [hw])]⟩))
      · exact .inr (.inr (.inr ⟨rfl, hm, rfl, by rw [tick, if_pos ht, if_pos hc, if_pos hw]⟩))
    · exact .inr (.inl ⟨rfl, hm, by rw [tick, if_pos ht, if_neg (fun hc => hm hc.2)]⟩)

/-- Ticks that end without a reset change `TIMER` and `EVTCTRL` alone. -/
theorem tickTimes_eq (k : Nat) (s t : State) (h : tickTimes k s = (t, false)) :
    t = { s with timer := t.timer, evtctrl := t.evtctrl } := by
  induction k generalizing s with
  | zero => cases h; rfl
  | succ k ih =>
    unfold tickTimes at h
    rcases tick_cases s with ⟨_, e⟩ | ⟨_, _, e⟩ | ⟨_, _, _, e⟩ | ⟨_, _, _, e⟩ <;> rw [e] at h <;> dsimp only at h
    · have := ih _ h
      exact this
    · have := ih _ h
      exact this
    · have := ih _ h
      exact this
    · cases h

/-- Ticks that end in a reset leave the state of a reset, memory kept. -/
theorem tickTimes_reset (k : Nat) (s t : State) (h : tickTimes k s = (t, true)) : t = coreReset s := by
  induction k generalizing s with
  | zero => cases h
  | succ k ih =>
    unfold tickTimes at h
    rcases tick_cases s with ⟨_, e⟩ | ⟨_, _, e⟩ | ⟨_, _, _, e⟩ | ⟨_, _, _, e⟩ <;> rw [e] at h <;> dsimp only at h
    · have := ih _ h
      exact this
    · have := ih _ h
      exact this
    · have := ih _ h
      exact this
    · cases h; rfl

/-- Ticks keep every bit of `EVTCTRL` but `T_P` where they end without a reset. -/
theorem tickTimes_evtBit (k i : Nat) (s t : State) (h : tickTimes k s = (t, false)) (hi : i ≠ evtTP) :
    t.evtBit i = s.evtBit i := by
  induction k generalizing s with
  | zero => cases h; rfl
  | succ k ih =>
    unfold tickTimes at h
    rcases tick_cases s with ⟨_, e⟩ | ⟨_, _, e⟩ | ⟨_, _, _, e⟩ | ⟨_, _, _, e⟩ <;> rw [e] at h <;> dsimp only at h
    · have := ih _ h
      exact this
    · have := ih _ h
      exact this
    · rw [ih _ h, evtBit_setEvtBit, if_neg hi]; rfl
    · cases h

/-- One tick and then `j` more are `j + 1` ticks of `TIMER`. -/
theorem timer_succ_add (w : Word) (j : Nat) : w + 1 + BitVec.ofNat 16 j = w + BitVec.ofNat 16 (j + 1) := by
  rw [BitVec.ofNat_add]; ac_rfl

/-- A match within `k + 1` ticks is the first one or a match within the `k` after it. -/
theorem watchdogFires_succ (k : Nat) (s : State) (ht : s.params.time = true) (hw : s.evtBit 7 = true) :
    WatchdogFires (k + 1) s ↔
      s.timer + 1 = s.timercmp ∨ ∃ j, 1 ≤ j ∧ j ≤ k ∧ s.timer + 1 + BitVec.ofNat 16 j = s.timercmp := by
  simp only [WatchdogFires, ht, hw, true_and, timer_succ_add]
  constructor
  · rintro ⟨j, h1, h2, h⟩
    by_cases hj : j = 1
    · subst hj; exact .inl h
    · exact .inr ⟨j - 1, by omega, by omega, by rw [Nat.sub_add_cancel h1]; exact h⟩
  · rintro (h | ⟨j, _, h2, h⟩)
    · exact ⟨1, Nat.le_refl 1, by omega, h⟩
    · exact ⟨j + 1, by omega, by omega, h⟩

/-- Ticks end in a reset exactly where the watchdog fires within them (R321, R322). -/
theorem tickTimes_reset_iff (k : Nat) (s : State) : (tickTimes k s).2 = true ↔ WatchdogFires k s := by
  induction k generalizing s with
  | zero => exact iff_of_false (by simp [tickTimes]) (fun ⟨_, _, j, h1, h2, _⟩ => by omega)
  | succ k ih =>
    unfold tickTimes
    rcases tick_cases s with ⟨ht, e⟩ | ⟨ht, hm, e⟩ | ⟨_, _, hw, e⟩ | ⟨ht, hm, hw, e⟩ <;> rw [e] <;> dsimp only
    · rw [ih]
      exact iff_of_false (fun h => absurd (ht.symm.trans h.1) (by decide)) (fun h => absurd (ht.symm.trans h.1) (by decide))
    · rw [ih]
      cases hw : s.evtBit 7
      · exact iff_of_false (fun h => absurd (hw.symm.trans h.2.1) (by decide)) (fun h => absurd (hw.symm.trans h.2.1) (by decide))
      · rw [watchdogFires_succ k s ht hw]
        exact ⟨fun ⟨_, _, h⟩ => .inr h, fun h => ⟨ht, hw, h.resolve_left hm⟩⟩
    · rw [ih]
      refine iff_of_false (fun h => ?_) (fun h => absurd (hw.symm.trans h.2.1) (by decide))
      have h7 := h.2.1
      rw [evtBit_setEvtBit, if_neg (by decide)] at h7
      exact absurd (hw.symm.trans h7) (by decide)
    · exact iff_of_true rfl ((watchdogFires_succ k s ht hw).2 (.inl hm))

/-- Without `WDOG` no number of ticks resets the core. -/
theorem tickTimes_no_reset (k : Nat) (s : State) (h : s.evtBit evtWdog = false) :
    (tickTimes k s).2 = false :=
  Bool.eq_false_iff.mpr fun hr => absurd (h.symm.trans ((tickTimes_reset_iff k s).1 hr).2.1) (by decide)

/-- Ticks that end without a reset count `TIMER` on and set `T_P` at a match (R320, R321). -/
theorem tickTimes_ticked (k : Nat) (s t : State) (ht : s.params.time = true) (h : tickTimes k s = (t, false)) :
    TickedBy k s t := by
  induction k generalizing s with
  | zero =>
    cases h
    refine ⟨by simp, fun _ => ⟨.inl, ?_⟩⟩
    rintro (h | ⟨j, h1, h2, _⟩)
    · exact h
    · omega
  | succ k ih =>
    have split : ∀ s' : State, s'.params = s.params → s'.timer = s.timer + 1 → s'.timercmp = s.timercmp →
        (s.params.baseline = true →
          (s'.evtBit 10 = true ↔ s.evtBit 10 = true ∨ s.timer + 1 = s.timercmp)) →
        TickedBy k s' t → TickedBy (k + 1) s t := by
      intro s' hp h1 h2 h3 ⟨h4, h5⟩
      have e := timer_succ_add s.timer
      refine ⟨by rw [h4, h1, e], fun hb => ?_⟩
      rw [h5 (by rw [hp, hb]), h3 hb, h1, h2]
      constructor
      · rintro ((h | h) | ⟨j, hj1, hj2, hj⟩)
        · exact .inl h
        · exact .inr ⟨1, by omega, by omega, h⟩
        · exact .inr ⟨j + 1, by omega, by omega, by rw [← e]; exact hj⟩
      · rintro (h | ⟨j, hj1, hj2, hj⟩)
        · exact .inl (.inl h)
        · by_cases hj' : j = 1
          · subst hj'; exact .inl (.inr hj)
          · refine .inr ⟨j - 1, by omega, by omega, ?_⟩
            rw [e, Nat.sub_add_cancel (by omega)]; exact hj
    unfold tickTimes at h
    rcases tick_cases s with ⟨h0, e⟩ | ⟨_, hm, e⟩ | ⟨_, hm, _, e⟩ | ⟨_, _, _, e⟩ <;> rw [e] at h <;> dsimp only at h
    · rw [ht] at h0; cases h0
    · exact split { s with timer := s.timer + 1 } rfl rfl rfl
        (fun _ => ⟨.inl, fun h => h.resolve_right hm⟩) (ih _ ht h)
    · refine split (setEvtBit evtTP true { s with timer := s.timer + 1 }) rfl rfl rfl (fun hb => ?_) (ih _ ht h)
      rw [evtBit_setEvtBit_self _ evtTP 10 _ rfl, getLsbD_evtMask _ _ (by decide)]
      exact iff_of_true (by simp [evtTP, hb, ht]) (.inr hm)
    · cases h

/-- Without the time profile ticks change nothing. -/
theorem tickTimes_no_timer (k : Nat) (s : State) (ht : s.params.time = false) : tickTimes k s = (s, false) := by
  induction k with
  | zero => rfl
  | succ k ih => rw [tickTimes, tick, if_neg (by simp [ht])]; exact ih

/-- Everything ticks that end without a reset do (R320, R321). -/
theorem tickTimes_ticksTo (k : Nat) (s t : State) (h : tickTimes k s = (t, false)) : TicksTo k s t :=
  ⟨fun ht => tickTimes_ticked k s t ht h,
    fun ht => by rw [tickTimes_no_timer k s ht] at h; exact (Prod.mk.inj h).1.symm,
    fun b hb => tickTimes_evtBit k b s t h hb, tickTimes_eq k s t h⟩

/-- Everything the ticks asleep can do, from a state whose wake condition does not hold (R264, R320): a
watchdog reset, or the ticks up to the first after which the condition holds, or all of them. -/
theorem sleepTicks_cases (k : Nat) (s : State) (h : wakes s = false) :
    (∃ j r, j ≤ k ∧ tickTimes j s = (r, true) ∧ sleepTicks k s = r) ∨
    ∃ j r, j ≤ k ∧ tickTimes j s = (r, false) ∧ sleepTicks k s = wakeIfDue r ∧ (wakes r = false → j = k) ∧
      ∀ i < j, ∀ u, tickTimes i s = (u, false) → wakes u = false := by
  induction k generalizing s with
  | zero => exact .inr ⟨0, s, Nat.le_refl 0, rfl, by rw [wakeIfDue, h]; rfl, fun _ => rfl, fun i hi => by omega⟩
  | succ k ih =>
    have none : ∀ u, tickTimes 0 s = (u, false) → wakes u = false := fun u hu => by cases hu; exact h
    obtain ⟨s', b, ht⟩ : ∃ s' b, tick s = (s', b) := ⟨_, _, rfl⟩
    have hs : ∀ j, tickTimes (j + 1) s = if b then (s', true) else tickTimes j s' := by
      intro j; rw [tickTimes, ht]; cases b <;> rfl
    cases b
    · simp only [Bool.false_eq_true, if_false] at hs
      have hk : sleepTicks (k + 1) s = if wakes s' then { s' with sleep := false } else sleepTicks k s' := by
        rw [sleepTicks, ht]
      cases hw : wakes s'
      · rw [hw] at hk
        rcases ih s' hw with ⟨j, r, hj, h1, h2⟩ | ⟨j, r, hj, h1, h2, h3, h4⟩
        · exact .inl ⟨j + 1, r, by omega, (hs j).trans h1, hk.trans h2⟩
        · refine .inr ⟨j + 1, r, by omega, (hs j).trans h1, hk.trans h2, fun e => by rw [h3 e], ?_⟩
          intro i hi u hu
          cases i with
          | zero => exact none u hu
          | succ i => rw [hs] at hu; exact h4 i (by omega) u hu
      · refine .inr ⟨1, s', by omega, hs 0, by rw [hk, wakeIfDue, hw, if_pos rfl, if_pos rfl], fun e => absurd (hw.symm.trans e) (by decide), ?_⟩
        intro i hi u hu
        cases i with
        | zero => exact none u hu
        | succ i => omega
    · exact .inl ⟨1, s', by omega, hs 0, by rw [sleepTicks, ht]⟩

/-! ### The boundary (R264, R306) -/

/-- Waking changes `SLEEP` alone. -/
theorem wakeIfDue_eq (s : State) : wakeIfDue s = { s with sleep := (wakeIfDue s).sleep } := by
  unfold wakeIfDue
  split <;> rfl

/-- The pending and enabled sources, in the bits of `EVTCTRL` (R63, R264). -/
theorem sourceReady_iff (s : State) : sourceReady s = true ↔ SourceEnabled s := by
  simp only [sourceReady, SourceEnabled, evtSwIe, evtSwP, evtExtIe, evtExtP, evtTIe, evtWdog, evtTP,
    Bool.or_eq_true, Bool.and_eq_true, Bool.not_eq_true', or_assoc, and_assoc]

/-- The wake condition in the bits of `EVTCTRL` and `CFG.IE` (R264). -/
theorem wakes_iff (s : State) : wakes s = true ↔ WakeCondition s := by
  unfold wakes WakeCondition
  rw [← sourceReady_iff]
  cases s.params.wfiWake
  · simp [takeable, cfgIE, and_comm]
  · simp

/-- No interrupt is due where the wake condition does not hold. -/
theorem not_due_of_not_wakes (s : State) (h : wakes s = false) : interruptDue s = false := by
  unfold wakes at h
  split at h
  · simp [interruptDue, h]
  · simp [interruptDue, takeable, h]

/-- The environment's input changes `EVTCTRL`, the list of inputs and the free-value index alone. -/
theorem pollEnv_eq (s : State) :
    pollEnv s =
      { s with evtctrl := (pollEnv s).evtctrl, env := (pollEnv s).env, freeCount := (pollEnv s).freeCount } := rfl

/-- What the environment's input leaves in `EVTCTRL` (R71): `EXT_P` set where the input raises it and the
field is present, every other bit kept. -/
theorem evtBit_pollEnv_ite (s : State) (i : Nat) :
    (pollEnv s).evtBit i =
      if i = evtExtP then s.evtBit i || ((envInput s).ext && (evtMask s.params).getLsbD i) else s.evtBit i := by
  have h : (pollEnv s).evtBit i = (if (envInput s).ext then setEvtBit evtExtP true s else s).evtBit i := by
    cases he : (envInput s).ext <;> simp [evtBit_eq, pollEnv, setEvtBit, he]
  rw [h]
  cases he : (envInput s).ext
  · simp
  · rw [if_pos rfl, evtBit_setEvtBit]
    by_cases hi : i = evtExtP
    · subst hi
      rw [if_pos rfl, if_pos rfl, evtBit_eq]
      cases (evtMask s.params).getLsbD evtExtP <;> simp
    · rw [if_neg hi, if_neg hi]

/-- The environment's input keeps every bit of `EVTCTRL` but `EXT_P`. -/
theorem evtBit_pollEnv (s : State) (i : Nat) (hi : i ≠ evtExtP) : (pollEnv s).evtBit i = s.evtBit i := by
  rw [evtBit_pollEnv_ite, if_neg hi]

/-- The boundary of a step changes `EVTCTRL`, `SLEEP`, the list of inputs and the free-value index alone. -/
theorem boundary_eq (s : State) :
    boundary s =
      { s with
        evtctrl := (boundary s).evtctrl
        sleep := (boundary s).sleep
        env := (boundary s).env
        freeCount := (boundary s).freeCount } := by
  unfold boundary
  rw [wakeIfDue_eq, pollEnv_eq]

/-- Everything a step that answers a next state can have been: an interrupt entry, a step asleep, or one
instruction and its retirement. -/
theorem step_cases {s t : State} (h : step s = .next t) :
    (interruptDue (boundary s) = true ∧ takeInterrupt (boundary s) = .next t) ∨
    (interruptDue (boundary s) = false ∧ asleep (boundary s) = true ∧
      t = sleepStep (envInput s).extraTicks (boundary s)) ∨
    (RunsInstr s ∧ ∃ i len u, Fetches s i len ∧ exec i (advance len (boundary s)) = .next u ∧
      t = retire (envInput s).extraTicks (stepArmed (boundary s)) i u) := by
  unfold step stepOnce at h
  split at h
  · rename_i hd; exact .inl ⟨hd, h⟩
  · rename_i hd
    have hd : interruptDue (boundary s) = false := by simpa using hd
    split at h
    · rename_i ha; exact .inr (.inl ⟨hd, ha, (Host.Outcome.next.inj h).symm⟩)
    · rename_i ha
      have ha : asleep (boundary s) = false := by simpa using ha
      refine .inr (.inr ⟨⟨hd, ha⟩, ?_⟩)
      unfold runInstr at h
      split at h
      · rename_i why _; cases why <;> cases h
      · rename_i i len hf
        split at h
        · rename_i u hu
          exact ⟨i, len, u, hf, hu, (Host.Outcome.next.inj h).symm⟩
        · cases h
        · cases h

end Sys2Proof.Machine
end

