-- ==== Sys2Proof/Laws/PerInstr.lean ====
section
/-! SUPPORT. One family of per-instruction laws: the encoder writes as many nibbles as the table of R114
gives the instruction. -/

namespace Sys2Proof.Laws

open Sys2Proof.Machine

/-- The immediate nibbles of an instruction that takes `OP2` (R114). -/
def op2Nibbles (takesImm : Bool) (m : LinkMode) : Nat := if takesImm then modeNibbles m else 0

/-- The length of an instruction in nibbles as the table of R114 gives it under `CFG`, with the rows of R123,
R131 and R240 beside it. -/
def tableLength (p : Params) (cfg : Byte) : Instr → Nat
  | .add _ | .and _ | .or _ => 1 + op2Nibbles (cfgIMM cfg) (linkMode cfg)
  | .sub _ | .xor _ | .tst _ => 2 + op2Nibbles (cfgIMM cfg) (linkMode cfg)
  | .cmp _ => 2 + op2Nibbles (cfgIMM cfg && p.cmpTakesImm) (linkMode cfg)
  | .btst _ => if cfgIMM cfg then 2 else 1
  | .beqz _ => if cfgBW cfg then 3 else 2
  | .bc _ => if cfgBW cfg then 4 else 3
  | .ldi _ => 1 + modeNibbles (linkMode cfg)
  | .cfg _ | .csrst _ | .mad _ => 3
  | .xmem _ | .csrld _ => 2
  | .inc | .shl | .jal | .racc | .rss | .ss | .nop | .xop => 1
  | .dec | .inv | .shr | .jmp | .rrs | .rsa | .sa | .reti | .swi | .wfi | .max | .min => 2
  | .madNop _ | .rsv _ => 2
  | .csrAbsent extended => if extended then 2 else 1

/-- `OP2` has as many nibbles as its form takes. -/
theorem length_encodeOperand (p : Params) (takesImm : Bool) (m : LinkMode) (o : Operand)
    (h : o.fits takesImm m = true) : (encodeOperand p o).length = op2Nibbles takesImm m := by
  cases o with
  | rs0 =>
    cases takesImm
    · rfl
    · cases h
  | imm v =>
    cases takesImm
    · cases h
    · cases v <;> cases m <;> first | exact length_immNibbles _ _ _ | cases h

/-- A branch immediate has as many nibbles as `CFG.BW` says. -/
theorem length_encodeBranch (p : Params) (bw : Bool) (o : BranchImm) (h : o.fits bw = true) :
    (encodeBranch p o).length = if bw then 2 else 1 := by
  cases o <;> cases bw <;> first | exact length_immNibbles _ _ _ | cases h

/-- The encoder writes the nibbles that R114 counts, for every well-formed form of the instruction. -/
def EncodeLength.Statement (i : Instr) : Prop :=
  ∀ (p : Params) (cfg : Byte), i.wf p cfg = true → (encode p i).length = tableLength p cfg i

theorem EncodeLength.add (o : Operand) : EncodeLength.Statement (.add o) := by
  intro p cfg h
  show (encodeOperand p o).length + 1 = 1 + _
  rw [length_encodeOperand p (cfgIMM cfg) (linkMode cfg) o h, Nat.add_comm]

theorem EncodeLength.sub (o : Operand) : EncodeLength.Statement (.sub o) := by
  intro p cfg h
  show (encodeOperand p o).length + 2 = 2 + _
  rw [length_encodeOperand p (cfgIMM cfg) (linkMode cfg) o h, Nat.add_comm]

theorem EncodeLength.inc : EncodeLength.Statement .inc := fun _ _ _ => rfl

theorem EncodeLength.dec : EncodeLength.Statement .dec := fun _ _ _ => rfl

theorem EncodeLength.cmp (o : Operand) : EncodeLength.Statement (.cmp o) := by
  intro p cfg h
  show (encodeOperand p o).length + 2 = 2 + _
  rw [length_encodeOperand p (cfgIMM cfg && p.cmpTakesImm) (linkMode cfg) o h, Nat.add_comm]

theorem EncodeLength.and (o : Operand) : EncodeLength.Statement (.and o) := by
  intro p cfg h
  show (encodeOperand p o).length + 1 = 1 + _
  rw [length_encodeOperand p (cfgIMM cfg) (linkMode cfg) o h, Nat.add_comm]

theorem EncodeLength.inv : EncodeLength.Statement .inv := fun _ _ _ => rfl

theorem EncodeLength.or (o : Operand) : EncodeLength.Statement (.or o) := by
  intro p cfg h
  show (encodeOperand p o).length + 1 = 1 + _
  rw [length_encodeOperand p (cfgIMM cfg) (linkMode cfg) o h, Nat.add_comm]

theorem EncodeLength.xor (o : Operand) : EncodeLength.Statement (.xor o) := by
  intro p cfg h
  show (encodeOperand p o).length + 2 = 2 + _
  rw [length_encodeOperand p (cfgIMM cfg) (linkMode cfg) o h, Nat.add_comm]

theorem EncodeLength.shl : EncodeLength.Statement .shl := fun _ _ _ => rfl

theorem EncodeLength.shr : EncodeLength.Statement .shr := fun _ _ _ => rfl

theorem EncodeLength.btst (o : BitIndex) : EncodeLength.Statement (.btst o) := by
  intro p cfg h
  have h : o.fits (cfgIMM cfg) = true := h
  show _ = if cfgIMM cfg then 2 else 1
  cases o with
  | rs0 =>
    cases hi : cfgIMM cfg
    · rfl
    · rw [hi] at h; cases h
  | imm v =>
    cases hi : cfgIMM cfg
    · rw [hi] at h; cases h
    · exact congrArg (· + 1) (length_immNibbles p.immOrder 1 v.toNat)

theorem EncodeLength.tst (o : Operand) : EncodeLength.Statement (.tst o) := by
  intro p cfg h
  show (encodeOperand p o).length + 2 = 2 + _
  rw [length_encodeOperand p (cfgIMM cfg) (linkMode cfg) o h, Nat.add_comm]

theorem EncodeLength.beqz (o : BranchImm) : EncodeLength.Statement (.beqz o) := by
  intro p cfg h
  show (encodeBranch p o).length + 1 = if cfgBW cfg then 3 else 2
  rw [length_encodeBranch p (cfgBW cfg) o h]
  cases cfgBW cfg <;> rfl

theorem EncodeLength.bc (o : BranchImm) : EncodeLength.Statement (.bc o) := by
  intro p cfg h
  show (encodeBranch p o).length + 2 = if cfgBW cfg then 4 else 3
  rw [length_encodeBranch p (cfgBW cfg) o h]
  cases cfgBW cfg <;> rfl

theorem EncodeLength.jal : EncodeLength.Statement .jal := fun _ _ _ => rfl

theorem EncodeLength.jmp : EncodeLength.Statement .jmp := fun _ _ _ => rfl

theorem EncodeLength.cfg (o : BitVec 8) : EncodeLength.Statement (.cfg o) := by
  intro p cfg h
  exact congrArg (· + 1) (length_immNibbles p.immOrder 2 _)

theorem EncodeLength.racc : EncodeLength.Statement .racc := fun _ _ _ => rfl

theorem EncodeLength.rrs : EncodeLength.Statement .rrs := fun _ _ _ => rfl

theorem EncodeLength.rss : EncodeLength.Statement .rss := fun _ _ _ => rfl

theorem EncodeLength.rsa : EncodeLength.Statement .rsa := fun _ _ _ => rfl

theorem EncodeLength.ss : EncodeLength.Statement .ss := fun _ _ _ => rfl

theorem EncodeLength.sa : EncodeLength.Statement .sa := fun _ _ _ => rfl

theorem EncodeLength.ldi (o : Imm) : EncodeLength.Statement (.ldi o) := by
  intro p cfg h
  have := length_encodeOperand p true (linkMode cfg) (.imm o) h
  show (encodeImm p o).length + 1 = 1 + modeNibbles (linkMode cfg)
  rw [Nat.add_comm]
  exact congrArg (1 + ·) this

theorem EncodeLength.xop : EncodeLength.Statement .xop := fun _ _ _ => rfl

theorem EncodeLength.nop : EncodeLength.Statement .nop := fun _ _ _ => rfl

theorem EncodeLength.xmem (o : XmemFn) : EncodeLength.Statement (.xmem o) := by
  intro p cfg h
  exact congrArg (· + 1) (length_immNibbles p.immOrder 1 _)

theorem EncodeLength.csrld (o : BitVec 4) : EncodeLength.Statement (.csrld o) := by
  intro p cfg h
  exact congrArg (· + 1) (length_immNibbles p.immOrder 1 _)

theorem EncodeLength.csrst (o : BitVec 4) : EncodeLength.Statement (.csrst o) := by
  intro p cfg h
  exact congrArg (· + 2) (length_immNibbles p.immOrder 1 _)

theorem EncodeLength.reti : EncodeLength.Statement .reti := fun _ _ _ => rfl

theorem EncodeLength.swi : EncodeLength.Statement .swi := fun _ _ _ => rfl

theorem EncodeLength.wfi : EncodeLength.Statement .wfi := fun _ _ _ => rfl

theorem EncodeLength.mad (o : MadCtl) : EncodeLength.Statement (.mad o) := by
  intro p cfg h
  exact congrArg (· + 2) (length_immNibbles p.immOrder 1 _)

theorem EncodeLength.max : EncodeLength.Statement .max := fun _ _ _ => rfl

theorem EncodeLength.min : EncodeLength.Statement .min := fun _ _ _ => rfl

theorem EncodeLength.madNop (o : ProfileOpcode) : EncodeLength.Statement (.madNop o) := fun _ _ _ => rfl

theorem EncodeLength.rsv (o : ReservedOpcode) : EncodeLength.Statement (.rsv o) := fun _ _ _ => rfl

theorem EncodeLength.csrAbsent (o : Bool) : EncodeLength.Statement (.csrAbsent o) := by
  intro p cfg h
  cases o <;> rfl

end Sys2Proof.Laws
end

