-- ==== Sys2Proof/Tests/Slice0.lean ====
section
/-! SUPPORT. Tests: words and results written out from the spec (`95_test_vectors.md` unless a comment says
otherwise), ill-formed terms that `WellFormed` refuses, and for each obligation with hypotheses a state and
operands that meet them. -/

namespace Sys2Proof.Tests

open Sys2Proof.Machine

/-! ### Helpers -/

/-- The start state of the vectors: every register 0, the default parameters, a quiet environment at the
first boundary. -/
def start : State := { State.reset with env := [⟨false, 0⟩] }

/-- A core with the MAD Profile beside the default ones. -/
def madParams : Params := { defaultParams with mad := true }

/-- A core with the Debug Profile beside the default ones. -/
def debugParams : Params := { defaultParams with debug := true }

/-- Launch contents: bytes at rising addresses. -/
def code (a : Word) : List Byte → State → State
  | [], s => s
  | b :: rest, s => code (a + 1) rest { s with mem := memInsert s.mem a.toNat b }

/-- The state after one step, where the step answers one. -/
def after (s : State) : Option State :=
  match step s with
  | .next t => some t
  | .fault _ => none
  | .refused _ => none

/-- A sleeping core with `TIMER_TICK = cycle` whose first tick matches, given five. -/
def sleeper : State :=
  { start with
    sleep := true, cfg := 0x11, evtctrl := 0x0004, timer := 0xFFFF, env := [⟨false, 5⟩]
    params := { defaultParams with timerTick := .cycle } }

/-- One step leaves this `ACC`, these flags (`CZNV`) and this fetch position. -/
def shows (s : State) (acc : Word) (cznv : Nibble) (pc : Word) (nib : Bool) : Bool :=
  match step s with
  | .next t =>
    t.acc == acc && (t.c == cznv.getLsbD 3) && (t.z == cznv.getLsbD 2) && (t.n == cznv.getLsbD 1) &&
      (t.v == cznv.getLsbD 0) && t.pc == pc && t.nib == nib
  | .fault _ => false
  | .refused _ => false

/-- These nibbles, and no more, are this instruction. -/
def decodesTo (p : Params) (cfg : Byte) (nibs : List Nibble) (i : Instr) : Bool :=
  match decode p cfg false nibs with
  | .ok (j, rest) => j == i && rest.isEmpty
  | .error _ => false

/-! ### Ill-formed terms (R114, R122, R123, R130) -/

theorem test_illformed_add_register_form_while_imm : Instr.wf defaultParams 0x08 (.add .rs0) = false := by decide
theorem test_illformed_sub_byte_immediate_in_ul : Instr.wf defaultParams 0x08 (.sub (.imm (.w8 1))) = false := by decide
theorem test_illformed_cmp_immediate : Instr.wf defaultParams 0x08 (.cmp (.imm (.w4 1))) = false := by decide
theorem test_illformed_and_immediate_while_register_form : Instr.wf defaultParams 0x00 (.and (.imm (.w4 1))) = false := by decide
theorem test_illformed_or_nibble_immediate_in_lk8 : Instr.wf defaultParams 0x09 (.or (.imm (.w4 1))) = false := by decide
theorem test_illformed_xor_byte_immediate_in_lk16 : Instr.wf defaultParams 0x0A (.xor (.imm (.w8 1))) = false := by decide
theorem test_illformed_btst_immediate_while_register_form : Instr.wf defaultParams 0x00 (.btst (.imm 1)) = false := by decide
theorem test_illformed_btst_register_form_while_imm : Instr.wf defaultParams 0x08 (.btst .rs0) = false := by decide
theorem test_illformed_tst_register_form_while_imm : Instr.wf defaultParams 0x08 (.tst .rs0) = false := by decide
theorem test_illformed_beqz_byte_offset_while_bw_0 : Instr.wf defaultParams 0x00 (.beqz (.w8 1)) = false := by decide
theorem test_illformed_bc_nibble_offset_while_bw_1 : Instr.wf defaultParams 0x40 (.bc (.w4 1)) = false := by decide
theorem test_illformed_racc_in_lk16 : Instr.wf defaultParams 0x02 (.racc) = false := by decide
theorem test_illformed_rrs_in_spe : Instr.wf defaultParams 0x03 (.rrs) = false := by decide
theorem test_illformed_ldi_word_in_ul : Instr.wf defaultParams 0x00 (.ldi (.w16 1)) = false := by decide
theorem test_illformed_csrld_in_ul : Instr.wf defaultParams 0x00 (.csrld 0) = false := by decide
theorem test_illformed_csrst_without_csr : Instr.wf ({ defaultParams with hasCsr := false }) 0x02 (.csrst 0) = false := by decide
theorem test_illformed_reti_in_spe_with_mad : Instr.wf madParams 0x03 (.reti) = false := by decide
theorem test_illformed_swi_without_int : Instr.wf ({ defaultParams with int := false }) 0x00 (.swi) = false := by decide
theorem test_illformed_wfi_without_int : Instr.wf ({ defaultParams with int := false }) 0x00 (.wfi) = false := by decide
theorem test_illformed_mad_in_lk16 : Instr.wf madParams 0x02 (.mad ⟨0, false, false⟩) = false := by decide
theorem test_illformed_max_without_mad : Instr.wf defaultParams 0x03 (.max) = false := by decide
theorem test_illformed_min_without_mad : Instr.wf defaultParams 0x03 (.min) = false := by decide
theorem test_illformed_madNop_with_int : Instr.wf madParams 0x00 (.madNop .opC) = false := by decide
theorem test_illformed_rsv_shared_with_int : Instr.wf defaultParams 0x00 (.rsv (.shared .op0)) = false := by decide
theorem test_illformed_csrAbsent_with_csr : Instr.wf defaultParams 0x02 (.csrAbsent false) = false := by decide

/-! ### Words written out from the encodings (R113, R116, R120 to R123, R130, R240) -/

theorem test_decode_add : decodesTo defaultParams 0x00 [0x1] (.add .rs0) = true := by decide
theorem test_decode_sub : decodesTo defaultParams 0x09 [0x8, 0x1, 0xF, 0x2] (.sub (.imm (.w8 0x2F))) = true := by decide
theorem test_decode_inc : decodesTo defaultParams 0x00 [0x9] (.inc) = true := by decide
theorem test_decode_dec : decodesTo defaultParams 0x00 [0x8, 0x9] (.dec) = true := by decide
theorem test_decode_cmp : decodesTo defaultParams 0x08 [0x8, 0x2] (.cmp .rs0) = true := by decide
theorem test_decode_and : decodesTo defaultParams 0x0A [0x5, 0x0, 0x0, 0x8, 0x0] (.and (.imm (.w16 0x0800))) = true := by decide
theorem test_decode_inv : decodesTo defaultParams 0x08 [0x8, 0x5] (.inv) = true := by decide
theorem test_decode_or : decodesTo defaultParams 0x08 [0xD, 0x8] (.or (.imm (.w4 8))) = true := by decide
theorem test_decode_xor : decodesTo defaultParams 0x00 [0x8, 0xD] (.xor .rs0) = true := by decide
theorem test_decode_shl : decodesTo defaultParams 0x00 [0x3] (.shl) = true := by decide
theorem test_decode_shr : decodesTo defaultParams 0x00 [0x8, 0x3] (.shr) = true := by decide
theorem test_decode_btst : decodesTo defaultParams 0x0A [0xB, 0xF] (.btst (.imm 15)) = true := by decide
theorem test_decode_tst : decodesTo defaultParams 0x08 [0x8, 0xB, 0x4] (.tst (.imm (.w4 4))) = true := by decide
theorem test_decode_beqz : decodesTo defaultParams 0x40 [0x7, 0x0, 0x8] (.beqz (.w8 0x80)) = true := by decide
theorem test_decode_bc : decodesTo defaultParams 0x00 [0x8, 0x7, 0x1] (.bc (.w4 1)) = true := by decide
theorem test_decode_jal : decodesTo defaultParams 0x00 [0xF] (.jal) = true := by decide
theorem test_decode_jmp : decodesTo defaultParams 0x00 [0x8, 0xF] (.jmp) = true := by decide
theorem test_decode_cfg : decodesTo defaultParams 0x00 [0x2, 0xA, 0x4] (.cfg 0x4A) = true := by decide
theorem test_decode_racc : decodesTo defaultParams 0x01 [0x6] (.racc) = true := by decide
theorem test_decode_rrs : decodesTo defaultParams 0x00 [0x8, 0x6] (.rrs) = true := by decide
theorem test_decode_rss : decodesTo defaultParams 0x00 [0xA] (.rss) = true := by decide
theorem test_decode_rsa : decodesTo defaultParams 0x00 [0x8, 0xA] (.rsa) = true := by decide
theorem test_decode_ss : decodesTo defaultParams 0x00 [0xE] (.ss) = true := by decide
theorem test_decode_sa : decodesTo defaultParams 0x00 [0x8, 0xE] (.sa) = true := by decide
theorem test_decode_ldi : decodesTo defaultParams 0x02 [0x4, 0x0, 0x0, 0x8, 0x0] (.ldi (.w16 0x0800)) = true := by decide
theorem test_decode_xop : decodesTo defaultParams 0x00 [0x8] (.xop) = true := by decide
theorem test_decode_nop : decodesTo defaultParams 0x00 [0x0] (.nop) = true := by decide
theorem test_decode_xmem : decodesTo defaultParams 0x00 [0xC, 0xA] (.xmem ⟨true, false, true, false⟩) = true := by decide
theorem test_decode_csrld : decodesTo defaultParams 0x02 [0x6, 0x5] (.csrld 5) = true := by decide
theorem test_decode_csrst : decodesTo defaultParams 0x03 [0x8, 0x6, 0x8] (.csrst 8) = true := by decide
theorem test_decode_reti : decodesTo defaultParams 0x03 [0x8, 0xC] (.reti) = true := by decide
theorem test_decode_swi : decodesTo defaultParams 0x00 [0x8, 0x8] (.swi) = true := by decide
theorem test_decode_wfi : decodesTo defaultParams 0x00 [0x8, 0x0] (.wfi) = true := by decide
theorem test_decode_mad : decodesTo madParams 0x03 [0x8, 0xC, 0xE] (.mad ⟨3, true, false⟩) = true := by decide
theorem test_decode_max : decodesTo madParams 0x03 [0x8, 0x8] (.max) = true := by decide
theorem test_decode_min : decodesTo madParams 0x03 [0x8, 0x0] (.min) = true := by decide
theorem test_decode_madNop : decodesTo ({ madParams with int := false }) 0x02 [0x8, 0xC] (.madNop .opC) = true := by decide
theorem test_decode_rsv : decodesTo defaultParams 0x00 [0x8, 0x4] (.rsv .op4) = true := by decide
theorem test_decode_rsv_shared : decodesTo ({ defaultParams with int := false }) 0x00 [0x8, 0x8] (.rsv (.shared .op8)) = true := by decide
theorem test_decode_csrAbsent : decodesTo ({ defaultParams with hasCsr := false }) 0x02 [0x8, 0x6] (.csrAbsent true) = true := by decide

/-- R118: a stream that ends before the immediate does is rejected by name. -/
theorem test_decode_stream_ends : decode defaultParams 0x02 false [0x4, 0x0] = .error .streamEnds := rfl

/-- R111: with `NIBBLE_FIRST = low` the byte `0x91` holds the nibble of `ADD` first and of `INC` second. -/
theorem test_fetch_order : nibbleOfByte .low 0x91 false = 0x1 ∧ nibbleOfByte .low 0x91 true = 0x9 := by decide

/-- R113: the word of `ADD` in the opcode table. -/
theorem test_table_word_add : decodeTableWord 4 0x01 = some (.add .rs0) := by decide

/-- R113: the word of `JMP` in the opcode table. -/
theorem test_table_word_jmp : decodeTableWord 8 0xF8 = some .jmp := by decide

/-! ### One step (95_test_vectors.md) -/

/-- V1: ADD UL 9+8: carry, signed overflow, upper bits kept. -/
theorem test_add_ul_carry_and_overflow :
    shows (code 0x0000 [0x01] { start with acc := 0x1239, rs0 := 0xFFF8 })
      0x1231 0b1001 0x0000 true = true := by decide

/-- V8: ADD LK16 immediate 0x1234 (nibbles 4 3 2 1). -/
theorem test_add_lk16_immediate :
    shows (code 0x0000 [0x41, 0x23, 0x01] { start with cfg := 0x0A, acc := 0xF000 })
      0x0234 0b1000 0x0002 true = true := by decide

/-- V12: SUB LK8 00-00-C, CI=1. -/
theorem test_sub_borrow_in :
    shows (code 0x0000 [0x18] { start with cfg := 0x81, c := true })
      0x00FF 0b1010 0x0001 false = true := by decide

/-- V14: SUB LK16 immediate 1. -/
theorem test_sub_lk16_immediate :
    shows (code 0x0000 [0x18, 0x01, 0x00] { start with cfg := 0x0A, acc := 0x1000 })
      0x0FFF 0b0000 0x0003 false = true := by decide

/-- V17: INC UL 7: V=1. -/
theorem test_inc_overflow :
    shows (code 0x0000 [0x09] { start with acc := 0x0007 })
      0x0008 0b0011 0x0000 true = true := by decide

/-- V19: INC ignores CI=1, C=1. -/
theorem test_inc_ignores_carry_in :
    shows (code 0x0000 [0x09] { start with cfg := 0x81, acc := 0x0010, c := true })
      0x0011 0b0000 0x0000 true = true := by decide

/-- V20: DEC UL 0: borrow. -/
theorem test_dec_borrow :
    shows (code 0x0000 [0x98] { start with acc := 0x5550 })
      0x555F 0b1010 0x0001 false = true := by decide

/-- V21: DEC LK8 80: V=1. -/
theorem test_dec_overflow :
    shows (code 0x0000 [0x98] { start with cfg := 0x01, acc := 0x0080 })
      0x007F 0b0001 0x0001 false = true := by decide

/-- V24: CMP LK8 3 vs 5: borrow. -/
theorem test_cmp_keeps_acc :
    shows (code 0x0000 [0x28] { start with cfg := 0x01, acc := 0x0003, rs0 := 0x0005 })
      0x0003 0b1010 0x0001 false = true := by decide

/-- V26: CMP LK8 5 vs 4 with CI=1, C=1: borrow-in makes them equal. -/
theorem test_cmp_borrow_in :
    shows (code 0x0000 [0x28] { start with cfg := 0x81, acc := 0x0005, rs0 := 0x0004, c := true })
      0x0005 0b0100 0x0001 false = true := by decide

/-- V30: AND LK8: C and V untouched. -/
theorem test_and_keeps_c_and_v :
    shows (code 0x0000 [0x05] { start with cfg := 0x01, acc := 0x12F0, rs0 := 0xFF3C, c := true, v := true })
      0x1230 0b1001 0x0000 true = true := by decide

/-- V32: AND LK16 immediate 0x0800 (the CPUID mask). -/
theorem test_and_immediate :
    shows (code 0x0000 [0x05, 0x80, 0x00] { start with cfg := 0x0A, acc := 0x0A00 })
      0x0800 0b0000 0x0002 true = true := by decide

/-- V33: INV UL: only ACC[3:0]. -/
theorem test_inv_active_bits_only :
    shows (code 0x0000 [0x58] { start with acc := 0x1235, c := true })
      0x123A 0b1010 0x0001 false = true := by decide

/-- V34: INV LK8 FF -> 00. -/
theorem test_inv_zero :
    shows (code 0x0000 [0x58] { start with cfg := 0x01, acc := 0x12FF })
      0x1200 0b0100 0x0001 false = true := by decide

/-- V37: OR LK8. -/
theorem test_or_lk8 :
    shows (code 0x0000 [0x0D] { start with cfg := 0x01, acc := 0x0081, rs0 := 0x0102 })
      0x0083 0b0010 0x0000 true = true := by decide

/-- V38: OR UL immediate. -/
theorem test_or_immediate :
    shows (code 0x0000 [0x8D] { start with cfg := 0x08, acc := 0x0001 })
      0x0009 0b0010 0x0001 false = true := by decide

/-- V40: XOR LK8 equal low bytes. -/
theorem test_xor_low_byte_only :
    shows (code 0x0000 [0xD8] { start with cfg := 0x01, acc := 0x00A5, rs0 := 0x77A5 })
      0x0000 0b0100 0x0001 false = true := by decide

/-- V42: XOR LK8 immediate 0xFF. -/
theorem test_xor_immediate :
    shows (code 0x0000 [0xD8, 0xFF] { start with cfg := 0x09, acc := 0x000F })
      0x00F0 0b0010 0x0002 false = true := by decide

/-- V52: SHL UL 8. -/
theorem test_shl_within_width :
    shows (code 0x0000 [0x03] { start with acc := 0x1238 })
      0x1230 0b1100 0x0000 true = true := by decide

/-- V54: SHL LK8 40: V untouched. -/
theorem test_shl_keeps_v :
    shows (code 0x0000 [0x03] { start with cfg := 0x01, acc := 0xFF40, v := true })
      0xFF80 0b0011 0x0000 true = true := by decide

/-- V56: SHR LK8 81. -/
theorem test_shr_expelled_bit :
    shows (code 0x0000 [0x38] { start with cfg := 0x01, acc := 0xAB81 })
      0xAB40 0b1000 0x0001 false = true := by decide

/-- V57: SHR LK16 8000 with SIGN=1: still logical. -/
theorem test_shr_logical_when_signed :
    shows (code 0x0000 [0x38] { start with cfg := 0x06, acc := 0x8000 })
      0x4000 0b0000 0x0001 false = true := by decide

/-- V60: BTST in UL reaches bit 12 of ACC. -/
theorem test_btst_reaches_bit_12 :
    shows (code 0x0000 [0x0B] { start with acc := 0x1000, rs0 := 0x000C })
      0x1000 0b1000 0x0000 true = true := by decide

/-- V61: BTST #15 in LK16 IMM=1: one index nibble, bit clear. -/
theorem test_btst_immediate :
    shows (code 0x0000 [0xFB] { start with cfg := 0x0A, acc := 0x7FFF })
      0x7FFF 0b0100 0x0001 false = true := by decide

/-- V64: TST LK8 zero: C cleared (TST_WRITES_C=true). -/
theorem test_tst_clears_c :
    shows (code 0x0000 [0xB8] { start with cfg := 0x01, acc := 0x01F0, rs0 := 0xFF0F, c := true })
      0x01F0 0b0100 0x0001 false = true := by decide

/-- V66: TST LK16 immediate 0x8000. -/
theorem test_tst_immediate :
    shows (code 0x0000 [0xB8, 0x00, 0x80] { start with cfg := 0x0A, acc := 0xFFFF })
      0xFFFF 0b1010 0x0003 false = true := by decide

/-- V75: BEQz BRS=1 imm4=F: offset -4. -/
theorem test_beqz_scaled_backward :
    shows (code 0x0000 [0xF7] { start with cfg := 0x20, z := true })
      0x0000 0b0100 0xFFFD false = true := by decide

/-- V76: BEQz BW=1 imm8=0x80 (-128); instruction ends mid-byte, PC_next rounds up to 0002. -/
theorem test_beqz_mid_byte_rounds_up :
    shows (code 0x0000 [0x07, 0x08] { start with cfg := 0x40, z := true })
      0x0000 0b0100 0xFF82 false = true := by decide

/-- V80: BC BW=1 taken imm8=0x10. -/
theorem test_bc_imm8 :
    shows (code 0x0000 [0x78, 0x10] { start with cfg := 0x40, c := true })
      0x0000 0b1000 0x0012 false = true := by decide

/-- V81: BC not taken. -/
theorem test_bc_not_taken :
    shows (code 0x0000 [0x78, 0x01] start)
      0x0000 0b0000 0x0001 true = true := by decide

/-- V85: JAL in the first nibble of a byte: link rounds up. -/
theorem test_jal_links_and_jumps :
    (after (code 0x0000 [0x0F] { start with ra0 := 0x1234, ra1 := 0xAAAA })).map (fun t => (t.ra1, t.pc))
      = some (0x0001, 0x1234) := by decide

/-- V86: JMP: RA1 untouched. -/
theorem test_jmp_goes_to_ra0 :
    shows (code 0x0000 [0xF8] { start with ra0 := 0xFFFF, ra1 := 0xAAAA })
      0x0000 0b0000 0xFFFF false = true := by decide

/-- V90: CFG #0x4A (nibbles A then 4). -/
theorem test_cfg_loads_the_byte :
    (after (code 0x0000 [0xA2, 0x04] start)).map (fun t => (t.cfg, t.pc))
      = some (0x4A, 0x0001) := by decide

/-- V92: RACC UL: rotate right by 4. -/
theorem test_racc_ul_right :
    shows (code 0x0000 [0x06] { start with acc := 0x1234 })
      0x4123 0b0000 0x0000 true = true := by decide

/-- R203, example with `ROT_DIR = left`. -/
theorem test_racc_ul_left :
    (after (code 0x0000 [0x06] { start with acc := 0x1234, params := { defaultParams with rotDir := .left } })).map (fun t => t.acc)
      = some (0x2341) := by decide

/-- V94: RRS UL. -/
theorem test_rrs_ul :
    (after (code 0x0000 [0x68] { start with rs0 := 0xABCD })).map (fun t => t.rs0)
      = some (0xDABC) := by decide

/-- V95: RRS LK8. -/
theorem test_rrs_lk8 :
    (after (code 0x0000 [0x68] { start with cfg := 0x01, rs0 := 0xABCD })).map (fun t => t.rs0)
      = some (0xCDAB) := by decide

/-- V97: RSS. -/
theorem test_rss_exchanges :
    (after (code 0x0000 [0x0A] { start with rs0 := 0x1111, rs1 := 0x2222 })).map (fun t => (t.rs0, t.rs1))
      = some (0x2222, 0x1111) := by decide

/-- V98: RSA. -/
theorem test_rsa_exchanges :
    (after (code 0x0000 [0xA8] { start with ra0 := 0x1111, ra1 := 0x2222 })).map (fun t => (t.ra0, t.ra1))
      = some (0x2222, 0x1111) := by decide

/-- V99: SS UL: low nibbles only. -/
theorem test_ss_ul_low_nibbles :
    (after (code 0x0000 [0x0E] { start with acc := 0x1234, rs0 := 0xABCD })).map (fun t => (t.acc, t.rs0))
      = some (0x123D, 0xABC4) := by decide

/-- V100: SS LK8: low bytes only. -/
theorem test_ss_lk8_low_bytes :
    (after (code 0x0000 [0x0E] { start with cfg := 0x01, acc := 0x1234, rs0 := 0xABCD })).map (fun t => (t.acc, t.rs0))
      = some (0x12CD, 0xAB34) := by decide

/-- V102: SA in UL: always 16 bits. -/
theorem test_sa_always_16_bits :
    (after (code 0x0000 [0xE8] { start with acc := 0x1234, ra0 := 0xABCD })).map (fun t => (t.acc, t.ra0))
      = some (0xABCD, 0x1234) := by decide

/-- V103: LDi UL: flags untouched. -/
theorem test_ldi_ul_keeps_flags :
    shows (code 0x0000 [0xA4] { start with acc := 0x1234, z := true })
      0x123A 0b0100 0x0001 false = true := by decide

/-- V105: LDi LK16 0x0800 (nibbles 0 0 8 0). -/
theorem test_ldi_lk16 :
    shows (code 0x0000 [0x04, 0x80, 0x00] { start with cfg := 0x02, acc := 0x1234 })
      0x0800 0b0000 0x0002 true = true := by decide

/-- V107: NOP. -/
theorem test_nop_changes_nothing :
    shows (code 0x0000 [0x00] { start with acc := 0x1234, c := true, z := true, n := true, v := true })
      0x1234 0b1111 0x0000 true = true := by decide

/-- V121: LK16 post-increment at FFFF wraps RA0 to 0001. -/
theorem test_xmem_load_wraps_at_the_top :
    (after (code 0xFFFF [0x34] (code 0x0000 [0x4C] { start with cfg := 0x02, ra0 := 0xFFFF }))).map (fun t => (t.acc, t.ra0))
      = some (0x4C34, 0x0001) := by decide

/-- V123: UL store keeps the high nibble of the byte. -/
theorem test_xmem_ul_store_keeps_high_nibble :
    (after (code 0x0200 [0x55] (code 0x0000 [0x9C] { start with acc := 0x000D, ra1 := 0x0200 }))).map (fun t => readByte t 0x0200)
      = some (0x5D) := by decide

/-- V131: CSRLD #1 CORECFG = {0000,V,N,Z,C,CFG}. -/
theorem test_csrld_corecfg :
    shows (code 0x0000 [0x16] { start with cfg := 0x8A, acc := 0x1234, c := true, n := true, v := true })
      0x0D8A 0b1011 0x0001 false = true := by decide

/-- V135: CSRLD #9 reserved reads 0. -/
theorem test_csrld_reserved_reads_zero :
    shows (code 0x0000 [0x96] { start with cfg := 0x02, acc := 0x1234 })
      0x0000 0b0000 0x0001 false = true := by decide

/-- V136: CSRST #5: TIMER takes the value, no tick for that instruction; the CSRLD reads before its own tick. -/
theorem test_csrst_timer_does_not_tick :
    (after (code 0x0000 [0x68, 0x65, 0x05] { start with cfg := 0x02, acc := 0x0010, timer := 0x7777 })).map (fun t => t.timer)
      = some (0x0010) := by decide

/-- V141: CSRST #7 with 0x0007: pending bits kept. -/
theorem test_csrst_evtctrl_keeps_pending :
    (after (code 0x0000 [0x68, 0x07] { start with cfg := 0x02, acc := 0x0007, evtctrl := 0x0E00 })).map (fun t => t.evtctrl)
      = some (0x0E07) := by decide

/-- V155: RETI from the frame of V152 (frame bytes given as start memory). -/
theorem test_reti_restores_the_frame :
    (after (code 0x0300 [0x02, 0x00, 0x11, 0x05, 0x03, 0x7E, 0xEF, 0xBE] (code 0x0310 [0xC8] { start with cfg := 0x02, ia := 0x03, iar := 0x03, evtctrl := 0x0900, pc := 0x0310 }))).map (fun t => (t.pc, t.cfg, t.ra1))
      = some (0x0002, 0x11, 0xBEEF) := by decide

/-- V162: the page of `IAR`, not of `IA`, is read. -/
theorem test_reti_reads_the_page_of_iar :
    (after (code 0x0300 [0x02, 0x00, 0x11, 0x05, 0x03, 0x7E, 0xEF, 0xBE] (code 0x0310 [0xC8] { start with cfg := 0x02, iar := 0x03, evtctrl := 0x0900, pc := 0x0310, ia := 0x05 }))).map (fun t => (t.ia, t.iar, t.evtctrl))
      = some (0x03, 0x7E, 0x0800) := by decide

/-- V153: SWI with IE=0: SW_P stays pending. -/
theorem test_swi_stays_pending :
    (after (code 0x0000 [0x88, 0x00] { start with cfg := 0x01, ia := 0x03, evtctrl := 0x0001 })).map (fun t => (t.evtctrl, t.pc))
      = some (0x0801, 0x0001) := by decide

/-- V156: WFI: sleeps; nothing retires, TIMER stands. -/
theorem test_wfi_sleeps :
    (after (code 0x0000 [0x08, 0x00] { start with cfg := 0x11, ia := 0x03, evtctrl := 0x0002 })).map (fun t => (t.sleep, t.timer, t.pc))
      = some (true, 0x0001, 0x0001) := by decide

/-- V174: MAD unsigned, shift field 11. -/
theorem test_mad_unsigned_shift :
    shows (code 0x0000 [0xC8, 0x0C] { start with params := madParams, cfg := 0x03, acc := 0xFFFF, rs0 := 0x00FF, rs1 := 0x00FF })
      0x1FE0 0b1000 0x0001 true = true := by decide

/-- V178: MAD signed, saturate low. -/
theorem test_mad_signed_saturates_low :
    shows (code 0x0000 [0xC8, 0x02] { start with params := madParams, cfg := 0x07, acc := 0x8000, rs0 := 0x0080, rs1 := 0x007F })
      0x8000 0b1000 0x0001 true = true := by decide

/-- V182: MAX unsigned. -/
theorem test_max_unsigned :
    shows (code 0x0000 [0x88] { start with params := madParams, cfg := 0x03, acc := 0x8000, rs0 := 0x7FFF })
      0x8000 0b0000 0x0001 false = true := by decide

/-- V183: MAX signed. -/
theorem test_max_signed :
    shows (code 0x0000 [0x88] { start with params := madParams, cfg := 0x07, acc := 0x8000, rs0 := 0x7FFF })
      0x7FFF 0b0000 0x0001 false = true := by decide

/-- V184: MIN unsigned. -/
theorem test_min_unsigned :
    shows (code 0x0000 [0x08] { start with params := madParams, cfg := 0x03, acc := 0x8000, rs0 := 0x7FFF })
      0x7FFF 0b0000 0x0001 false = true := by decide

/-- V185: MIN signed. -/
theorem test_min_signed :
    shows (code 0x0000 [0x08] { start with params := madParams, cfg := 0x07, acc := 0x8000, rs0 := 0x7FFF })
      0x8000 0b0000 0x0001 false = true := by decide

/-- R265: on a MAD core without the Interrupt Profile, `8 8` outside SPE is a two-nibble `NOP`. -/
theorem test_madNop_advances :
    shows (code 0x0000 [0x88] { start with params := { madParams with int := false }, cfg := 0x02, acc := 0x1234 })
      0x1234 0b0000 0x0001 false = true := by decide

/-- R131: a reserved encoding stops with its address. -/
theorem test_rsv_stops : exec (.rsv .op4) (advance 2 start) = .fault (.reservedEncoding 0x0000 false 0x4) := rfl

/-- R240: opcode `0110` in LK16 without the CSR instructions stops with its address. -/
theorem test_csrAbsent_stops :
    exec (.csrAbsent false) (advance 1 start) = .fault (.noCsrInstructions 0x0000 false) := rfl

/-- R27: the prefix alone sets `XOPP`. -/
theorem test_xop_sets_xopp : exec .xop start = .next { start with xopp := true } := rfl

/-- V157: the environment sets `EXT_P` while the core sleeps, and the interrupt is entered. -/
theorem test_external_interrupt_wakes :
    (after { start with
        cfg := 0x11, ia := 0x03, evtctrl := 0x0002, sleep := true, pc := 0x0001, env := [⟨true, 0⟩] }).map
      (fun t => (t.pc, t.cfg, t.evtctrl)) = some (0x0310, 0x01, 0x0302) := by decide

/-- R71: the environment sets `EXT_P` of an awake core whose external interrupt is not enabled. -/
theorem test_environment_sets_ext_p :
    (after { start with env := [⟨true, 0⟩] }).map (fun t => (t.evtctrl, t.pc, t.nib))
      = some (0x0200, 0x0000, true) := by decide

/-- V152: what the entry after `SWI` stores of `PC_next`, `CFG` and the flags. -/
theorem test_interrupt_frame :
    (after { start with
        cfg := 0x11, ra1 := 0xBEEF, ia := 0x03, iar := 0x7E, evtctrl := 0x0801, pc := 0x0002, c := true
        n := true }).map
      (fun t => (readByte t 0x0300, readByte t 0x0302, readByte t 0x0303)) = some (0x02, 0x11, 0x05) := by decide

/-- V160: the match with `WDOG = 1` resets the core. -/
theorem test_watchdog_resets :
    (after { start with cfg := 0x12, evtctrl := 0x0084, timer := 0xFFFF }).map
      (fun t => (t.cfg, t.pc, t.evtctrl)) = some (0x00, 0x0000, 0x0000) := by decide

/-- R264: of the five ticks given to a sleeping core, the one that matches wakes it and is the last. -/
theorem test_match_wakes_at_once :
    (after sleeper).map (fun t => (t.sleep, t.timer, t.evtctrl, t.pc)) = some (false, 0x0000, 0x0404, 0x0000) := by decide

/-- V158: the stepped `DEC` leaves `SW_P` set. -/
theorem test_single_step_sets_sw_p :
    (after (code 0x0000 [0x98] { start with
        params := debugParams, cfg := 0x12, acc := 0x0005, ia := 0x03, evtctrl := 0x1001 })).map
      (fun t => (t.acc, t.evtctrl)) = some (0x0004, 0x1801) := by decide

/-- R98: a byte that a store has written is not fetched by default. -/
theorem test_fetch_of_modified_byte :
    step { start with modified := [0] } = .fault (.fetchOfModifiedByte 0x0000) := rfl

/-- A word of the opcode table placed by the interface is what the next step runs. -/
theorem test_withFetchWord_runs_the_word :
    (after ((State.reset).withFetchWord 8 0xF8)).map (fun t => (t.pc, t.nib)) = some (0x0000, false) := by decide

/-! ### Witnesses: for each obligation with hypotheses, a state and operands that meet them all -/

theorem witness_DecodeOfEncode :
    Instr.wf defaultParams 0x0A (.tst (.imm (.w16 0xFFFF))) = true ∧
    (Instr.tst (.imm (.w16 0xFFFF)) = .xop → [(0x8 : Nibble)] = []) ∧
    Instr.wf defaultParams 0x00 .xop = true := by decide

theorem witness_EncodeOfDecode :
    decode defaultParams 0x40 false [0x8, 0x7, 0x0, 0x1, 0x9] = .ok (.bc (.w8 0x10), [0x9]) := rfl

theorem witness_SixNibblesAlwaysDecode : 6 ≤ ([0x8, 0x4, 0xF, 0xF, 0xF, 0xF] : List Nibble).length := by decide

theorem witness_FetchedNibble :
    readRefusal start start.pc = none ∧ start.pc.toNat ∉ start.modified ∧
    ∃ s : State, readRefusal s s.pc = none ∧ s.pc.toNat ∈ s.modified ∧ s.params.fetchSeesStores = true :=
  ⟨rfl, by decide,
    { start with pc := 0xFFFF, modified := [0xFFFF], params := { defaultParams with fetchSeesStores := true } },
    rfl, by decide, rfl⟩

theorem witness_FetchOfModifiedByteStops :
    ∃ s : State, readRefusal s s.pc = none ∧ s.params.fetchSeesStores = false ∧ s.pc.toNat ∈ s.modified ∧
      RunsInstr s :=
  ⟨{ start with pc := 0xFFFF, modified := [0xFFFF] }, rfl, rfl, by decide, rfl, rfl⟩

theorem witness_StepRunsDecodedInstruction :
    RunsInstr (code 0x0000 [0x18] start) ∧
    (∀ (k : Nat) (h : k < ([0x8, 0x1] : List Nibble).length),
      fetchNibble (boundary (code 0x0000 [0x18] start)) k = .ok ([0x8, 0x1] : List Nibble)[k]) ∧
    decode (boundary (code 0x0000 [0x18] start)).params (boundary (code 0x0000 [0x18] start)).cfg
      (boundary (code 0x0000 [0x18] start)).xopp [0x8, 0x1] = .ok (.sub .rs0, []) ∧ Instr.sub .rs0 ≠ .xop := by
  refine ⟨⟨rfl, rfl⟩, ?_, rfl, by decide⟩
  intro k h
  match k, h with
  | 0, _ => rfl
  | 1, _ => rfl

theorem witness_PrefixThenOpcodeIsOneInstruction :
    ∃ t : State, (code 0x0000 [0x18] start).xopp = false ∧
      fetchNibble (code 0x0000 [0x18] start) 0 = .ok xopNibble ∧
      exec .xop (advance 1 (code 0x0000 [0x18] start)) = .next t := ⟨_, rfl, rfl, rfl⟩

/-- The hypotheses of `EncodedWithOp2`: `RS0` form, and an immediate in UL, LK8, LK16 and SPE. -/
abbrev OperandFormsMet : Prop :=
  (0xF7 : Byte).getLsbD 3 = false ∧
  (∀ cfg ∈ ([0x08, 0x09, 0x0A, 0x0B] : List Byte), cfg.getLsbD 3 = true) ∧
  ([0xF] : List Nibble).length = modeNibbles (linkMode 0x08) ∧
  ([0xF, 0xF] : List Nibble).length = modeNibbles (linkMode 0x09) ∧
  ([0xF, 0xF, 0xF, 0xF] : List Nibble).length = modeNibbles (linkMode 0x0A) ∧
  ([0xF, 0xF, 0xF, 0xF] : List Nibble).length = modeNibbles (linkMode 0x0B)

theorem witness_AddResult : OperandFormsMet := by decide
theorem witness_SubResult : OperandFormsMet := by decide
theorem witness_LogicalResults : OperandFormsMet := by decide
theorem witness_TstResult : OperandFormsMet := by decide

theorem witness_BtstResult : BitIndex.rs0 = .rs0 ∧ BitIndex.imm 15 = .imm 15 := ⟨rfl, rfl⟩

/-- Not taken; taken by each condition, at a byte boundary and in the middle of a byte. -/
theorem witness_BranchResult :
    start.z = false ∧ start.c = false ∧
    ∃ s u : State, s.nib = false ∧ s.z = true ∧ s.c = true ∧
      u.nib = true ∧ u.params.pcNextMidByte = .roundUp ∧ u.z = true ∧ u.c = true :=
  ⟨rfl, rfl, { start with z := true, c := true }, { start with pc := 0xFFFF, nib := true, z := true, c := true },
    rfl, rfl, rfl, rfl, rfl, rfl, rfl⟩

theorem witness_MidBytePcNextStops :
    ∃ s : State, s.nib = true ∧ s.params.pcNextMidByte = .fault ∧ s.z = true ∧ s.c = true ∧
      s.params.intMidByte = .fault :=
  ⟨{ start with
      nib := true, z := true, c := true, params := { defaultParams with pcNextMidByte := .fault, intMidByte := .fault } },
    rfl, rfl, rfl, rfl, rfl⟩

theorem witness_JalLinksAndJumps :
    start.nib = false ∧ ∃ s : State, s.nib = true ∧ s.params.pcNextMidByte = .roundUp :=
  ⟨rfl, { start with nib := true }, rfl, rfl⟩

theorem witness_StoredByteReadsBack : start.mem.wf = true := rfl

theorem witness_XmemLoadResult :
    ∀ cfg ∈ ([0x00, 0x01, 0x02, 0x03] : List Byte), ∃ (f : XmemFn) (s : State),
      f.store = false ∧ s.cfg = cfg ∧ f.ra1 = true ∧ Readable s (xmemAddrs f s) :=
  fun cfg _ => ⟨⟨false, true, true, true⟩, { start with cfg := cfg }, rfl, rfl, rfl, fun _ _ => rfl⟩

theorem witness_XmemStoreResult :
    ∀ cfg ∈ ([0x00, 0x01, 0x02, 0x03] : List Byte), ∃ (f : XmemFn) (s : State),
      f.store = true ∧ s.cfg = cfg ∧ f.ra1 = false ∧ Writable s (xmemAddrs f s) ∧ s.mem.wf = true :=
  fun cfg _ => ⟨⟨true, true, true, false⟩, { start with cfg := cfg }, rfl, rfl, rfl, fun _ _ => rfl, rfl⟩

theorem witness_XmemAddressing :
    (∃ t : State, exec (.xmem ⟨false, false, true, false⟩) start = .next t) ∧
    (∃ t : State, exec (.xmem ⟨false, true, false, true⟩) start = .next t) ∧
    (∃ t : State, exec (.xmem ⟨true, true, true, true⟩) start = .next t) := ⟨⟨_, rfl⟩, ⟨_, rfl⟩, ⟨_, rfl⟩⟩

/-- The last address of a region that nothing backs, and of one that ROM backs; the second byte of a 16-bit
access across the edge of a region; the last byte of a frame in each region. -/
theorem witness_UnbackedAccessesRefused :
    (∃ s : State, backingAt s.params.memoryMap (xmemAddr ⟨false, false, false, false⟩ s).toNat = .nothing ∧
      backingAt s.params.memoryMap (xmemAddr ⟨true, false, false, false⟩ s).toNat = .nothing ∧
      backingAt s.params.memoryMap (xmemAddr ⟨true, false, false, true⟩ s).toNat = .rom ∧
      InFrame s.ia 0x0007 ∧ backingAt s.params.memoryMap (0x0007 : Word).toNat ≠ .ram ∧
      pcNext s ≠ none ∧ s.nib = false ∧
      InFrame s.iar 0xFF07 ∧ backingAt s.params.memoryMap (0xFF07 : Word).toNat = .nothing ∧
      backingAt s.params.memoryMap s.pc.toNat = .nothing) ∧
    ∃ s : State, backingAt s.params.memoryMap (xmemAddr ⟨true, false, false, false⟩ s).toNat = .ram ∧
      XmemTouches ⟨true, false, false, false⟩ s 0xFF00 ∧ XmemTouches ⟨false, false, false, false⟩ s 0xFF00 ∧
      backingAt s.params.memoryMap (0xFF00 : Word).toNat = .nothing :=
  ⟨⟨{ start with
      pc := 0xFFFF, ra0 := 0xFFFF, ra1 := 0x00FF, ia := 0x00, iar := 0xFF
      params := { defaultParams with memoryMap := [⟨0xFF00, 0x100, .nothing⟩, ⟨0, 0x100, .rom⟩] } },
    by decide, by decide, by decide, ⟨7, by decide⟩, by decide, by decide, rfl, ⟨7, by decide⟩, by decide, by decide⟩,
    { start with
      cfg := 0x02, ra0 := 0xFEFF, params := { defaultParams with memoryMap := [⟨0xFF00, 0x100, .nothing⟩] } },
    by decide, .inr ⟨.inl rfl, rfl⟩, .inr ⟨.inl rfl, rfl⟩, by decide⟩

theorem witness_OnlyXmemStoresWriteMemory :
    (∃ t : State, exec (.xmem ⟨false, true, true, true⟩) start = .next t) ∧
    ∀ f : XmemFn, Instr.xmem ⟨false, true, true, true⟩ = .xmem f → f.store = false :=
  ⟨⟨_, rfl⟩, fun f h => by cases h; rfl⟩

theorem witness_CsrldReadsTheMap :
    9 ≤ (9 : BitVec 4).toNat ∧ 9 ≤ (15 : BitVec 4).toNat ∧ 0 < 16 ∧ 15 < 16 ∧
    ({ start with params := { defaultParams with baseline := false } } : State).params.baseline = false := by decide

theorem witness_CsrstWritesTheMap : ∀ idx ∈ ([0, 1, 2, 6, 8, 9, 15] : List (BitVec 4)), idx ≠ 7 := by decide

theorem witness_CsrstEvtctrlBitByBit :
    (start.params.baseline = true ∧ (3 ≤ 3 ∧ 3 ≤ 6) ∧ (3 ≤ 6 ∧ 6 ≤ 6) ∧ 13 ≤ 13) ∧
    ({ start with params := { defaultParams with baseline := false } } : State).params.baseline = false := by decide

/-- An input that raises the external interrupt, and a list that has run out. -/
theorem witness_EnvironmentRaisesExtP :
    (∃ (s : State) (e : EnvInput) (rest : List EnvInput), s.env = e :: rest ∧ e.ext = true ∧
      s.params.baseline = true ∧ s.params.int = true ∧ s.evtBit 9 = false) ∧
    State.reset.env = [] ∧ 8 ≠ 9 :=
  ⟨⟨{ start with env := [⟨true, 0⟩] }, _, _, rfl, rfl, rfl, rfl, rfl⟩, rfl, by decide⟩

/-- The state of V152 at the boundary after its `SWI`. -/
def dueState : State :=
  { start with
    cfg := 0x11, ra1 := 0xBEEF, ia := 0x03, iar := 0x7E, evtctrl := 0x0801, pc := 0x0002, c := true, n := true }

theorem witness_InterruptTakenExactlyWhenDue :
    ((boundary dueState).cfg.getLsbD 4 = true ∧ (boundary dueState).xopp = false ∧
      (boundary dueState).nib = false ∧ (boundary dueState).evtBit 0 = true ∧
      (boundary dueState).evtBit 11 = true) ∧
    ((boundary start).cfg.getLsbD 4 = false ∧ asleep (boundary start) = false) := by decide

/-- Taken at a byte boundary, and in the middle of a byte, in the last page. -/
theorem witness_InterruptEntry :
    (pcNext dueState = some 0x0002 ∧ dueState.nib = false ∧ Writable dueState (addrsFrom 0x0300 8) ∧
      (0x0300 : Word) = BitVec.ofNat 16 (256 * dueState.ia.toNat) ∧ dueState.mem.wf = true) ∧
    ∃ s : State, s.nib = true ∧ pcNext s = some 0x0000 ∧ s.params.intMidByte ≠ .fault ∧
      Writable s (addrsFrom 0xFF00 8) ∧ (0xFF00 : Word) = BitVec.ofNat 16 (256 * s.ia.toNat) ∧ s.mem.wf = true :=
  ⟨⟨rfl, rfl, fun _ _ => rfl, rfl, rfl⟩,
    { start with pc := 0xFFFF, nib := true, ia := 0xFF, params := { defaultParams with intMidByte := .roundUp } },
    rfl, rfl, by decide, fun _ _ => rfl, rfl, rfl⟩

theorem witness_RetiRestoresFrame :
    ∃ s : State, (0xFF00 : Word) = BitVec.ofNat 16 (256 * s.iar.toNat) ∧ Readable s (addrsFrom 0xFF00 8) :=
  ⟨{ start with iar := 0xFF }, rfl, fun _ _ => rfl⟩

theorem witness_RetiUndoesInterruptEntry :
    ∃ t u : State, takeInterrupt dueState = .next t ∧ dueState.nib = false ∧ dueState.mem.wf = true ∧
      u.iar = t.iar ∧ u.params = dueState.params ∧ u.acc ≠ t.acc ∧
      ∀ a ∈ addrsFrom (pageBase dueState.ia) 8, readByte u a = readByte t a :=
  ⟨_, { saveAndEnter 0x0002 dueState with acc := 0x1234 }, rfl, rfl, rfl, rfl, rfl, by decide, fun _ _ => rfl⟩

theorem witness_EnabledSwiIsTakenNext :
    ∃ s t : State, RunsInstr s ∧ Fetches s .swi 2 ∧ step s = .next t ∧ s.params.baseline = true ∧
      s.params.int = true ∧ (boundary s).cfg.getLsbD 4 = true ∧ (boundary s).evtBit 0 = true ∧
      (boundary s).evtBit 7 = false ∧ (advance 2 (boundary s)).nib = false :=
  ⟨code 0x0000 [0x88] { start with cfg := 0x11, ia := 0x03, evtctrl := 0x0001 }, _,
    ⟨rfl, rfl⟩, rfl, rfl, rfl, rfl, rfl, rfl, rfl, rfl⟩

/-- Asleep: a wake condition that holds, for each `WFI_WAKE`; one that does not, for each `TIMER_TICK`, with and
without the time profile. Then a `WFI` that runs. -/
theorem witness_AsleepNothingRetires :
    (∃ s : State, s.sleep = true ∧ s.params.int = true ∧ WakeCondition (pollEnv s) ∧ s.params.wfiWake = .taken) ∧
    (∃ s : State, s.sleep = true ∧ s.params.int = true ∧ WakeCondition (pollEnv s) ∧
      s.params.wfiWake = .pendingEnabled ∧ s.cfg.getLsbD 4 = false) ∧
    (∃ s : State, s.sleep = true ∧ s.params.int = true ∧ ¬ WakeCondition (pollEnv s) ∧
      s.params.timerTick = .instruction) ∧
    (∃ s : State, s.sleep = true ∧ s.params.int = true ∧ ¬ WakeCondition (pollEnv s) ∧
      s.params.timerTick = .cycle ∧ s.params.time = false) ∧
    (sleeper.sleep = true ∧ sleeper.params.int = true ∧ ¬ WakeCondition (pollEnv sleeper) ∧
      sleeper.params.timerTick = .cycle ∧ sleeper.params.time = true ∧ ¬ WatchdogFires 5 (pollEnv sleeper) ∧
      sleeper.env = [⟨false, 5⟩] ∧ (envInput sleeper).extraTicks = 5 ∧
      TicksTo 0 (pollEnv sleeper) (pollEnv sleeper)) ∧
    ∃ s t : State, RunsInstr s ∧ Fetches s .wfi 2 ∧ (boundary s).evtBit 7 = false ∧ step s = .next t :=
  ⟨⟨{ start with sleep := true, cfg := 0x11, evtctrl := 0x0801 }, rfl, rfl, ⟨.inl ⟨rfl, rfl⟩, fun _ => rfl⟩, rfl⟩,
    ⟨{ start with
        sleep := true, evtctrl := 0x0801, params := { defaultParams with wfiWake := .pendingEnabled } },
      rfl, rfl, ⟨.inl ⟨rfl, rfl⟩, fun h => by cases h⟩, rfl, rfl⟩,
    ⟨{ start with sleep := true, cfg := 0x11, evtctrl := 0x0200 }, rfl, rfl,
      by unfold WakeCondition SourceEnabled; decide, rfl⟩,
    ⟨{ start with
        sleep := true, cfg := 0x11, params := { defaultParams with timerTick := .cycle, time := false } },
      rfl, rfl, by unfold WakeCondition SourceEnabled; decide, rfl, rfl⟩,
    ⟨rfl, rfl, by unfold WakeCondition SourceEnabled; decide, rfl, rfl, fun h => absurd h.2.1 (by decide), rfl, rfl,
      tickTimes_ticksTo 0 _ _ rfl⟩,
    code 0x0000 [0x08] start, _, ⟨rfl, rfl⟩, rfl, rfl, rfl⟩

/-- An instruction that counts up to the match, `CSRST #5` with each `TIMER_TICK`, an armed watchdog that does not
fire, and a core without the time profile. -/
theorem witness_TimerCountsRetiredInstructions :
    (∃ s u : State, RunsInstr s ∧ Fetches s .inc 1 ∧ exec .inc (advance 1 (boundary s)) = .next u ∧
      u.params.timerTick = .instruction ∧ u.params.time = true ∧ u.timer + 1 = u.timercmp ∧
      ¬ WatchdogFires 1 u) ∧
    (∃ s u : State, RunsInstr s ∧ Fetches s (.csrst 5) 3 ∧
      exec (.csrst 5) (advance 3 (boundary s)) = .next u ∧ u.params.timerTick = .instruction ∧
      u.params.time = true ∧ u.evtBit 7 = true ∧ ¬ WatchdogFires 0 u) ∧
    (∃ s u : State, RunsInstr s ∧ Fetches s (.csrst 5) 3 ∧
      exec (.csrst 5) (advance 3 (boundary s)) = .next u ∧ u.params.time = true ∧
      u.params.timerTick = .cycle ∧ ¬ WatchdogFires 1 u ∧ s.env = [⟨false, 0⟩] ∧ (envInput s).extraTicks = 0) ∧
    ∃ s u : State, RunsInstr s ∧ Fetches s .inc 1 ∧ exec .inc (advance 1 (boundary s)) = .next u ∧
      u.params.time = false ∧ ¬ WatchdogFires 1 u :=
  ⟨⟨code 0x0000 [0x09] { start with timer := 0xFFFF }, _, ⟨rfl, rfl⟩, rfl, rfl, rfl, rfl, rfl,
      fun h => absurd h.2.1 (by decide)⟩,
    ⟨code 0x0000 [0x68, 0x05] { start with cfg := 0x02, evtctrl := 0x0080 }, _, ⟨rfl, rfl⟩, rfl, rfl, rfl, rfl, rfl,
      fun ⟨_, _, j, h1, h2, _⟩ => by omega⟩,
    ⟨code 0x0000 [0x68, 0x05] { start with cfg := 0x02, params := { defaultParams with timerTick := .cycle } }, _,
      ⟨rfl, rfl⟩, rfl, rfl, rfl, rfl, fun h => absurd h.2.1 (by decide), rfl, rfl⟩,
    code 0x0000 [0x09] { start with params := { defaultParams with time := false } }, _, ⟨rfl, rfl⟩, rfl, rfl, rfl,
    fun h => absurd h.1 (by decide)⟩

/-- A match at the first tick, and at the last of two, asleep with nothing to wake the core. -/
theorem witness_WatchdogResets :
    (∃ s : State, s.params.time = true ∧ s.timer + 1 = s.timercmp ∧ s.evtBit 7 = true ∧
      s.params.timerTick = .instruction ∧ Instr.inc ≠ .csrst 5) ∧
    ∃ s : State, s.params.time = true ∧ s.evtBit 7 = true ∧ s.params.timerTick = .cycle ∧
      WatchdogFires 2 s ∧ ¬ WatchdogFires 1 s ∧ ¬ WakeCondition s :=
  ⟨⟨{ start with evtctrl := 0x0080, timer := 0xFFFF }, rfl, rfl, rfl, rfl, by decide⟩,
    { start with evtctrl := 0x0080, timer := 0xFFFE, params := { defaultParams with timerTick := .cycle } },
    rfl, rfl, rfl, ⟨rfl, rfl, 2, by decide, by decide, rfl⟩,
    fun ⟨_, _, j, h1, h2, h⟩ => by obtain rfl : j = 1 := (by omega); exact absurd h (by decide),
    by unfold WakeCondition SourceEnabled; decide⟩

theorem witness_SingleStepTriggersSwi :
    ∃ s u t : State, RunsInstr s ∧ Fetches s .dec 2 ∧ exec .dec (advance 2 (boundary s)) = .next u ∧
      step s = .next t ∧ u.params.baseline = true ∧ u.params.int = true ∧ u.evtBit 7 = false ∧
      (boundary s).evtBit 12 = true ∧ (boundary s).cfg.getLsbD 4 = true ∧ (boundary s).evtBit 8 = false :=
  ⟨code 0x0000 [0x98] { start with params := debugParams, cfg := 0x12, acc := 0x0005, evtctrl := 0x1001 }, _, _,
    ⟨rfl, rfl⟩, rfl, rfl, rfl, rfl, rfl, rfl, rfl, rfl, rfl⟩

theorem witness_MadUnsignedResult : ({ start with cfg := 0x03 } : State).cfg.getLsbD 2 = false := rfl

theorem witness_MadSignedResult : ({ start with cfg := 0x07 } : State).cfg.getLsbD 2 = true := rfl

theorem witness_MaxMinResult :
    ({ start with cfg := 0x03 } : State).cfg.getLsbD 2 = false ∧
    ({ start with cfg := 0x07 } : State).cfg.getLsbD 2 = true := ⟨rfl, rfl⟩

/-- A core with neither profile, and one without the CSR instructions in LK16 and in SPE. -/
theorem witness_ReservedEncodingsStop :
    (∃ p : Params, p.int = false ∧ p.mad = false) ∧
    ∃ p : Params, p.hasCsr = false ∧ (0x02 : Byte).getLsbD 1 = true ∧ (0x03 : Byte).getLsbD 1 = true :=
  ⟨⟨{ defaultParams with int := false }, rfl, rfl⟩, { defaultParams with hasCsr := false }, rfl, rfl, rfl⟩

theorem witness_StepKeepsInvariant : StateInv start ∧ ∃ t : State, step start = .next t :=
  ⟨⟨rfl, rfl, rfl, rfl⟩, _, rfl⟩

/-- Each flag changed by an instruction, `C` by `TST` among them. -/
theorem witness_OnlyListedInstructionsWriteFlags :
    (∃ s t : State, exec .inc s = .next t ∧ t.v ≠ s.v ∧ t.n ≠ s.n) ∧
    (∃ s t : State, exec .dec s = .next t ∧ t.z ≠ s.z) ∧
    (∃ s t : State, exec (.tst .rs0) s = .next t ∧ t.c ≠ s.c) :=
  ⟨⟨{ start with acc := 0x0007 }, _, rfl, by decide, by decide⟩, ⟨{ start with acc := 0x0001 }, _, rfl, by decide⟩,
    ⟨{ start with acc := 0x0001, rs0 := 0x0001 }, _, rfl, by decide⟩⟩

theorem witness_OnlyListedInstructionsWriteControl :
    (∃ t : State, exec (.cfg 0x4A) start = .next t ∧ t.cfg ≠ start.cfg) ∧
    (∃ s t : State, exec (.csrst 8) s = .next t ∧ t.ia ≠ s.ia) ∧
    (∃ s t : State, exec .reti s = .next t ∧ t.iar ≠ s.iar) ∧
    (∃ s t : State, exec .rss s = .next t ∧ t.rs1 ≠ s.rs1) ∧
    (∃ s t : State, exec .jmp s = .next t ∧ t.pc ≠ s.pc) :=
  ⟨⟨_, rfl, by decide⟩, ⟨{ start with acc := 0x0003 }, _, rfl, by decide⟩, ⟨{ start with iar := 0x03 }, _, rfl, by decide⟩,
    ⟨{ start with rs0 := 0x0001 }, _, rfl, by decide⟩, ⟨{ start with ra0 := 0x0001 }, _, rfl, by decide⟩⟩

theorem witness_OnlyReservedEncodingsStop :
    ∃ s : State, s.params.memoryMap = [] ∧ s.params.fetchSeesStores = true ∧
      s.params.pcNextMidByte = .roundUp ∧ s.params.intMidByte ≠ .fault :=
  ⟨{ start with params := { defaultParams with fetchSeesStores := true } }, rfl, rfl, rfl, by decide⟩


end Sys2Proof.Tests
end

/-! PROOFS. The logical instructions (R170 to R173): the encodings of an instruction that takes `OP2`, the rule
of `writeLogical`, and the obligations of the family assembled from them. -/

namespace Sys2Proof.Machine

/-! ### Encodings of an instruction that takes `OP2` (R45, R113, R114) -/

/-- The immediate read from the stream has the value of its nibbles (R116, R117). -/
theorem immNat_immOfNibbles (p : Params) (m : LinkMode) (l : List Nibble) (h : l.length = modeNibbles m) :
    immNat (immOfNibbles p m l) = immValue p.immOrder l := by
  have hlt := immValue_lt p.immOrder l
  rw [h] at hlt
  cases m <;> simp only [immOfNibbles, immNat, BitVec.toNat_ofNat] <;> exact Nat.mod_eq_of_lt hlt

/-- The immediate read from the stream has the active width (R114). -/
theorem fits_immOfNibbles (p : Params) (m : LinkMode) (l : List Nibble) : (immOfNibbles p m l).fits m = true := by
  cases m <;> rfl

/-- An opcode is encoded with `OP2` where it selects an entry that takes an immediate exactly while
`CFG.IMM = 1` and makes `OP2` of what it reads. -/
theorem encodedWithOp2_of_entry {op : List Nibble} {mk : Operand → Instr} (e : Entry)
    (hdecode : ∀ p cfg rest, decode p cfg false (op ++ rest) = decodeEntry p cfg e rest)
    (hcount : ∀ p cfg, immCount p cfg e = if cfgIMM cfg then modeNibbles (linkMode cfg) else 0)
    (hbuild : ∀ p cfg l, buildInstr p cfg e l = mk (operandOfNibbles p cfg (cfgIMM cfg) l)) :
    EncodedWithOp2 op mk := by
  intro p cfg rest
  have htake : ∀ l : List Nibble, l.length = immCount p cfg e →
      decode p cfg false (op ++ l ++ rest) = .ok (mk (operandOfNibbles p cfg (cfgIMM cfg) l), rest) := by
    intro l hl
    rw [List.append_assoc, hdecode, decodeEntry_append p cfg e l rest hl, hbuild]
  rw [hcount] at htake
  constructor
  · intro hoff
    have himm : cfgIMM cfg = false := hoff
    simpa [himm, operandOfNibbles] using htake []
  · intro hon l hl
    have himm : cfgIMM cfg = true := hon
    refine ⟨immOfNibbles p (linkMode cfg) l, immNat_immOfNibbles p _ l hl, fits_immOfNibbles p _ l, ?_⟩
    simpa [himm, operandOfNibbles, hl] using htake l

/-- `AND` is the nibble `0101` (R170). -/
theorem encodedWithOp2_and : EncodedWithOp2 [0x5] .and :=
  encodedWithOp2_of_entry .and (fun p cfg rest => decode_default p cfg 0x5 rest (by decide))
    (fun _ _ => rfl) (fun _ _ _ => rfl)

/-- `OR` is the nibble `1101` (R172). -/
theorem encodedWithOp2_or : EncodedWithOp2 [0xD] .or :=
  encodedWithOp2_of_entry .or (fun p cfg rest => decode_default p cfg 0xD rest (by decide))
    (fun _ _ => rfl) (fun _ _ _ => rfl)

/-- `XOR` is the nibbles `1000 1101` (R173). -/
theorem encodedWithOp2_xor : EncodedWithOp2 [0x8, 0xD] .xor :=
  encodedWithOp2_of_entry .xor (fun p cfg rest => decode_extended p cfg 0xD rest)
    (fun _ _ => rfl) (fun _ _ _ => rfl)

/-- `INV` is the nibbles `1000 0101` and takes no immediate (R171). -/
theorem decode_inv (p : Params) (cfg : Byte) (rest : List Nibble) :
    decode p cfg false (0x8 :: 0x5 :: rest) = .ok (.inv, rest) := by
  have hentry : extendedEntry p cfg 0x5 = .inv := rfl
  have hcolumn := decode_extended p cfg 0x5 rest
  rw [hentry] at hcolumn
  exact hcolumn.trans (decodeEntry_append p cfg .inv [] rest rfl)

/-! ### What `writeLogical` does (R170) -/

/-- Writing the logical result `k`: the active accumulator and `Z`, `N` from it, nothing else (R21, R33). -/
theorem writeLogical_result (s : State) (r : Word) (k : Nat) (h : r.toNat = k % 2 ^ s.width) :
    AccBecomes s (writeLogical r s) k ∧ ZNOf s (writeLogical r s) k ∧
      writeLogical r s = { s with
        acc := (writeLogical r s).acc, z := (writeLogical r s).z, n := (writeLogical r s).n } ∧
      SameMemory s (writeLogical r s) := by
  have hacc : AccBecomes s (setActive r s) k := accBecomes_setActive s r k (by rw [h, Nat.mod_mod])
  have hz : (writeLogical r s).z = decide (k % 2 ^ s.width = 0) := by
    rw [writeLogical, setZN_z, zeroOf_eq, h]
  have hn : (writeLogical r s).n = k.testBit (s.width - 1) := by
    rw [writeLogical, setZN_n, negOf_eq s.width r k (width_pos s) h]
  exact ⟨AccBecomes.congr hacc rfl, ⟨hz, hn⟩, rfl, readByte_congr rfl⟩

/-- A result that combines the bits of the active accumulator and of `OP2`: above the active width both are 0,
so an operation that keeps 0 there has a `Wd`-bit result. -/
theorem bitwiseTo_writeLogical (f : Bool → Bool → Bool) (hf : f false false = false) (op2 : Operand)
    (s : State) (r : Word)
    (hr : ∀ k, r.getLsbD k = f (s.active.getLsbD k) ((op2Value s op2).getLsbD k)) :
    BitwiseTo f op2 s (writeLogical r s) := by
  have hbits : ∀ k, r.toNat.testBit k =
      (decide (k < s.width) && f ((accNat s).testBit k) ((op2Nat s op2).testBit k)) := by
    intro k
    have hk : r.toNat.testBit k = f ((accNat s).testBit k) ((op2Nat s op2).testBit k) := by
      rw [accNat, ← toNat_active, ← toNat_op2Value]
      exact hr k
    by_cases hlt : k < s.width
    · simp [hlt, hk]
    · have hpow : 2 ^ s.width ≤ 2 ^ k := Nat.pow_le_pow_right (by omega) (by omega)
      rw [hk, Nat.testBit_lt_two_pow ((accNat_lt s).trans_le hpow),
        Nat.testBit_lt_two_pow ((op2Nat_lt s op2).trans_le hpow), hf]
      simp
  have hlow : r.toNat < 2 ^ s.width := by
    apply Nat.lt_pow_two_of_testBit
    intro k hk
    simp [hbits k, Nat.not_lt.mpr hk]
  exact ⟨r.toNat, hbits, writeLogical_result s r r.toNat (Nat.mod_eq_of_lt hlow).symm⟩

/-- Inverting the active bits is the complement of the active accumulator in `2^Wd - 1` (R171). -/
theorem toNat_lowBits_not_active (s : State) :
    (lowBits s.width (~~~s.active)).toNat = 2 ^ s.width - 1 - accNat s := by
  apply Nat.eq_of_testBit_eq
  intro k
  have hsub : 2 ^ s.width - 1 - accNat s = 2 ^ s.width - (accNat s + 1) := by omega
  have hbit : s.active.getLsbD k = (accNat s).testBit k := by rw [accNat, ← toNat_active]; rfl
  have hle := width_le s
  rw [hsub, Nat.testBit_two_pow_sub_succ (accNat_lt s), ← BitVec.getLsbD, getLsbD_lowBits _ _ _ hle,
    BitVec.getLsbD_not, hbit]
  by_cases hk : k < s.width
  · simp [hk, hk.trans_le hle]
  · simp [hk]

/-! ### What the instructions do -/

theorem exec_and (op2 : Operand) (s : State) :
    exec (.and op2) s = .next (writeLogical (s.active &&& op2Value s op2) s) := rfl

theorem exec_or (op2 : Operand) (s : State) :
    exec (.or op2) s = .next (writeLogical (s.active ||| op2Value s op2) s) := rfl

theorem exec_xor (op2 : Operand) (s : State) :
    exec (.xor op2) s = .next (writeLogical (s.active ^^^ op2Value s op2) s) := rfl

theorem exec_inv (s : State) : exec .inv s = .next (writeLogical (lowBits s.width (~~~s.active)) s) := rfl

/-! ### The obligations -/

/-- Settles O15: the three results are bitwise on the active width, so `writeLogical` has the rule of
`bitwiseTo_writeLogical`. -/
theorem logicalResults : Obligations.LogicalResults := by
  unfold Obligations.LogicalResults
  refine ⟨encodedWithOp2_and, encodedWithOp2_or, encodedWithOp2_xor, fun op2 s => ?_⟩
  refine ⟨_, _, _, exec_and op2 s, exec_or op2 s, exec_xor op2 s, ?_, ?_, ?_⟩
  · exact bitwiseTo_writeLogical Bool.and rfl op2 s _ fun _ => BitVec.getLsbD_and
  · exact bitwiseTo_writeLogical Bool.or rfl op2 s _ fun _ => BitVec.getLsbD_or
  · exact bitwiseTo_writeLogical Bool.xor rfl op2 s _ fun _ => BitVec.getLsbD_xor

/-- Settles O16: the inverted active bits are `2^Wd - 1` minus the active accumulator, a `Wd`-bit number. -/
theorem invResult : Obligations.InvResult := by
  unfold Obligations.InvResult
  refine ⟨decode_inv, fun s => ⟨_, exec_inv s, ?_⟩⟩
  have hlt : 2 ^ s.width - 1 - accNat s < 2 ^ s.width := by
    have := Nat.two_pow_pos s.width
    omega
  exact writeLogical_result s _ _ (by rw [toNat_lowBits_not_active, Nat.mod_eq_of_lt hlt])

end Sys2Proof.Machine

/-! PROOFS. The bit instructions `SHL` and `TST` (R180, R186): their encodings, the rule of `SetZN` and of
`writeShift`, and the obligations of the family assembled from them. -/

namespace Sys2Proof.Machine

/-! ### Encodings (R180, R186) -/

/-- `SHL` is the nibble `0011` and takes no immediate (R180). -/
theorem decode_shl (p : Params) (cfg : Byte) (rest : List Nibble) :
    decode p cfg false (0x3 :: rest) = .ok (.shl, rest) :=
  (decode_default p cfg 0x3 rest (by decide)).trans (decodeEntry_append p cfg .shl [] rest rfl)

/-- `TST` is the nibbles `1000 1011` (R186). -/
theorem encodedWithOp2_tst : EncodedWithOp2 [0x8, 0xB] .tst :=
  encodedWithOp2_of_entry .tst (fun p cfg rest => decode_extended p cfg 0xB rest)
    (fun _ _ => rfl) (fun _ _ _ => rfl)

/-! ### Results as numbers (R9, R33) -/

/-- The active accumulator, bit by bit (R9). -/
theorem getLsbD_active (s : State) (k : Nat) : s.active.getLsbD k = (accNat s).testBit k := by
  rw [accNat, ← toNat_active, BitVec.getLsbD]

/-- A word shifted left by one and cut to `w` bits is twice its number modulo `2^w`: what the 16-bit word
loses at the top is a multiple of `2^w`. -/
theorem toNat_lowBits_shiftLeft_one (w : Nat) (v : Word) (hw : w ≤ 16) :
    (lowBits w (v <<< 1)).toNat = 2 * v.toNat % 2 ^ w := by
  rw [toNat_lowBits w _ hw, BitVec.toNat_shiftLeft, Nat.mod_mod_of_dvd _ (Nat.pow_dvd_pow 2 hw),
    Nat.shiftLeft_eq, pow_one, Nat.mul_comm]

/-- The bits common to the active accumulator and `OP2`, as a number (R186). -/
theorem toNat_active_and_op2Value (s : State) (op2 : Operand) :
    (s.active &&& op2Value s op2).toNat = accNat s &&& op2Nat s op2 := by
  rw [BitVec.toNat_and, toNat_op2Value, toNat_active, accNat]

/-- `SetZN(r)` at the active width of `s`, into any state, is `SetZN` of the number of `r` (R33). -/
theorem znOf_setZN (s t : State) (r : Word) (k : Nat) (h : r.toNat = k % 2 ^ s.width) :
    ZNOf s (setZN s.width r t) k :=
  ⟨by rw [setZN_z, zeroOf_eq, h], by rw [setZN_n, negOf_eq s.width r k (width_pos s) h]⟩

/-! ### What a shift writes (R180) -/

/-- Writing the shift result `k`: the active accumulator, `C` from the expelled bit, `Z` and `N` from the
result, nothing else (R21, R33, R180). -/
theorem writeShift_result (s : State) (expelled : Bool) (r : Word) (k : Nat) (h : r.toNat = k % 2 ^ s.width) :
    AccBecomes s (writeShift expelled r s) k ∧ ZNOf s (writeShift expelled r s) k ∧
      (writeShift expelled r s).c = expelled ∧
      writeShift expelled r s = { s with
        acc := (writeShift expelled r s).acc, c := (writeShift expelled r s).c,
        z := (writeShift expelled r s).z, n := (writeShift expelled r s).n } ∧
      SameMemory s (writeShift expelled r s) := by
  have hacc : AccBecomes s (setActive r s) k := accBecomes_setActive s r k (by rw [h, Nat.mod_mod])
  exact ⟨AccBecomes.congr hacc rfl, znOf_setZN s _ r k h, rfl, rfl, readByte_congr rfl⟩

/-! ### What the instructions do -/

theorem exec_shl (s : State) :
    exec .shl s =
      .next (writeShift (s.active.getLsbD (s.width - 1)) (lowBits s.width (s.active <<< 1)) s) := rfl

theorem exec_tst (op2 : Operand) (s : State) :
    exec (.tst op2) s = .next (setZN s.width (s.active &&& op2Value s op2)
      { s with c := if s.params.tstWritesC then !zeroOf (s.active &&& op2Value s op2) else s.c }) := rfl

/-! ### The obligations -/

/-- Settles O17: the shifted active bits are twice the active accumulator modulo `2^Wd`, so `writeShift` has
the rule of `writeShift_result`, with the top active bit expelled. -/
theorem shlResult : Obligations.ShlResult := by
  unfold Obligations.ShlResult
  refine ⟨decode_shl, fun s => ⟨_, exec_shl s, ?_⟩⟩
  have hdouble : (lowBits s.width (s.active <<< 1)).toNat = 2 * accNat s % 2 ^ s.width := by
    rw [toNat_lowBits_shiftLeft_one _ _ (width_le s), toNat_active, accNat]
  obtain ⟨hacc, hzn, hc, hframe, hmem⟩ :=
    writeShift_result s (s.active.getLsbD (s.width - 1)) _ _ hdouble
  exact ⟨hacc, hzn, hc.trans (getLsbD_active s _), hframe, hmem⟩

/-- Settles O20: the masked value is a `Wd`-bit number, so `SetZN` takes `Z` and `N` from it, and `C`, where it
is written, is the opposite of its being 0. -/
theorem tstResult : Obligations.TstResult := by
  unfold Obligations.TstResult
  refine ⟨encodedWithOp2_tst, fun op2 s => ⟨_, exec_tst op2 s, ?_, ?_, rfl, readByte_congr rfl⟩⟩
  · have hlt : accNat s &&& op2Nat s op2 < 2 ^ s.width := Nat.and_lt_two_pow _ (op2Nat_lt s op2)
    exact znOf_setZN s _ _ _ (by rw [toNat_active_and_op2Value, Nat.mod_eq_of_lt hlt])
  · rw [setZN_c, zeroOf_eq, toNat_active_and_op2Value, ← decide_not]

end Sys2Proof.Machine

/-! PROOFS. The jump `JMP` (R194): its encoding, its rule, and the obligation assembled from them. -/

namespace Sys2Proof.Machine

/-- `JMP` is the nibbles `1000 1111` and takes no immediate (R194). -/
theorem decode_jmp (p : Params) (cfg : Byte) (rest : List Nibble) :
    decode p cfg false (0x8 :: 0xF :: rest) = .ok (.jmp, rest) := by
  have hentry : extendedEntry p cfg 0xF = .jmp := rfl
  calc decode p cfg false (0x8 :: 0xF :: rest)
      = decodeEntry p cfg (extendedEntry p cfg 0xF) rest := decode_extended p cfg 0xF rest
    _ = decodeEntry p cfg .jmp rest := by rw [hentry]
    _ = .ok (.jmp, rest) := decodeEntry_append p cfg .jmp [] rest rfl

/-- The jump goes to `RA0` as it stands, for every target and from either nibble (R194). -/
theorem exec_jmp (s : State) : exec .jmp s = .next (jumpTo s.ra0 s) := rfl

/-- A jump writes `PC` and `NIB` and nothing else: `RA0` and `RA1` are kept with the rest (R194). -/
theorem jumpTo_eq (target : Word) (s : State) : jumpTo target s = { s with pc := target, nib := false } := rfl

/-- Settles O24: `JMP` is found in the Extended column, and it is `jumpTo` at `RA0`. -/
theorem jmpJumps : Obligations.JmpJumps := by
  unfold Obligations.JmpJumps
  refine ⟨decode_jmp, fun s => ?_⟩
  rw [exec_jmp, jumpTo_eq]

end Sys2Proof.Machine

/-! PROOFS. `CFG` and the register exchanges (R200, R205 to R208): how an opcode without immediate nibbles
decodes, what exchanging the active bits does, and the obligations of the family assembled from them. -/

namespace Sys2Proof.Machine

/-! ### Encodings (R200, R205 to R208) -/

/-- An opcode of the Default column whose entry takes no immediate nibbles is a whole instruction (R112, R114). -/
theorem decode_default_of_immCount_zero {p : Params} {cfg : Byte} {n : Nibble} (hn : n ≠ xopNibble)
    (hcount : immCount p cfg (defaultEntry p cfg n) = 0) (rest : List Nibble) :
    decode p cfg false (n :: rest) = .ok (buildInstr p cfg (defaultEntry p cfg n) [], rest) :=
  (decode_default p cfg n rest hn).trans (decodeEntry_append p cfg _ [] rest hcount.symm)

/-- The prefix and an opcode of the Extended column whose entry takes no immediate nibbles are a whole
instruction (R112, R114). -/
theorem decode_extended_of_immCount_zero {p : Params} {cfg : Byte} {n : Nibble}
    (hcount : immCount p cfg (extendedEntry p cfg n) = 0) (rest : List Nibble) :
    decode p cfg false (xopNibble :: n :: rest) = .ok (buildInstr p cfg (extendedEntry p cfg n) [], rest) :=
  (decode_extended p cfg n rest).trans (decodeEntry_append p cfg _ [] rest hcount.symm)

/-- `RSS` is the nibble `1010` (R205). -/
theorem decode_rss (p : Params) (cfg : Byte) (rest : List Nibble) :
    decode p cfg false (0xA :: rest) = .ok (.rss, rest) :=
  decode_default_of_immCount_zero (by decide) rfl rest

/-- `SS` is the nibble `1110` (R207). -/
theorem decode_ss (p : Params) (cfg : Byte) (rest : List Nibble) :
    decode p cfg false (0xE :: rest) = .ok (.ss, rest) :=
  decode_default_of_immCount_zero (by decide) rfl rest

/-- `RSA` is the nibbles `1000 1010` (R206). -/
theorem decode_rsa (p : Params) (cfg : Byte) (rest : List Nibble) :
    decode p cfg false (0x8 :: 0xA :: rest) = .ok (.rsa, rest) :=
  decode_extended_of_immCount_zero rfl rest

/-- `SA` is the nibbles `1000 1110` (R208). -/
theorem decode_sa (p : Params) (cfg : Byte) (rest : List Nibble) :
    decode p cfg false (0x8 :: 0xE :: rest) = .ok (.sa, rest) :=
  decode_extended_of_immCount_zero rfl rest

/-- `CFG` is the nibble `0010` and two immediate nibbles, whatever `CFG` holds (R114, R200). -/
theorem decode_cfg (p : Params) (cfg : Byte) {l : List Nibble} (hl : l.length = 2) (rest : List Nibble) :
    decode p cfg false (0x2 :: (l ++ rest)) = .ok (.cfg (BitVec.ofNat 8 (immValue p.immOrder l)), rest) :=
  (decode_default p cfg 0x2 (l ++ rest) (by decide)).trans (decodeEntry_append p cfg .cfg l rest hl)

/-- A byte comes back from its two immediate nibbles, in both orders (R116). -/
theorem ofNat_immValue_immNibbles_byte (order : ImmOrder) (v : Byte) :
    BitVec.ofNat 8 (immValue order (immNibbles order 2 v.toNat)) = v := by
  have hv : v.toNat % 16 ^ 2 = v.toNat := Nat.mod_eq_of_lt v.isLt
  rw [immValue_immNibbles, hv, BitVec.ofNat_toNat, BitVec.setWidth_eq]

/-! ### What the instructions do -/

theorem exec_cfg (v : Byte) (s : State) : exec (.cfg v) s = .next { s with cfg := v } := rfl

theorem exec_rss (s : State) : exec .rss s = .next { s with rs0 := s.rs1, rs1 := s.rs0 } := rfl

theorem exec_rsa (s : State) : exec .rsa s = .next { s with ra0 := s.ra1, ra1 := s.ra0 } := rfl

theorem exec_sa (s : State) : exec .sa s = .next { s with acc := s.ra0, ra0 := s.acc } := rfl

/-! ### Exchanging the active bits (R207) -/

/-- The state in which the low `Wd` bits of `ACC` and `RS0` have traded places. -/
def exchangeActive (s : State) : State :=
  { s with acc := setLowBits s.width s.acc s.rs0, rs0 := setLowBits s.width s.rs0 s.acc }

@[simp] theorem exchangeActive_acc (s : State) :
    (exchangeActive s).acc = setLowBits s.width s.acc s.rs0 := rfl

@[simp] theorem exchangeActive_rs0 (s : State) :
    (exchangeActive s).rs0 = setLowBits s.width s.rs0 s.acc := rfl

@[simp] theorem width_exchangeActive (s : State) : (exchangeActive s).width = s.width := rfl

/-- `SS` exchanges the active bits, in every state. -/
theorem exec_ss (s : State) : exec .ss s = .next (exchangeActive s) := rfl

/-- Of two words that have exchanged their low bits, exchanging them again restores the first: below `w` each
bit has gone there and back, above it no bit has moved. -/
theorem setLowBits_setLowBits_swap (w : Nat) (a b : Word) (hw : w ≤ 16) :
    setLowBits w (setLowBits w a b) (setLowBits w b a) = a := by
  apply BitVec.eq_of_getLsbD_eq
  intro k _
  by_cases hk : k < w <;> simp [getLsbD_setLowBits, hw, hk]

/-- Exchanging the active bits is its own inverse: `CFG`, and so the width, is the same the second time. -/
theorem exchangeActive_exchangeActive (s : State) : exchangeActive (exchangeActive s) = s := by
  have hacc := setLowBits_setLowBits_swap s.width s.acc s.rs0 (width_le s)
  have hrs0 := setLowBits_setLowBits_swap s.width s.rs0 s.acc (width_le s)
  rw [exchangeActive, width_exchangeActive, exchangeActive_acc, exchangeActive_rs0, hacc, hrs0, exchangeActive]

/-- The new `ACC` has the low bits of `RS0` and keeps its own above (R21, R207). -/
theorem accBecomes_exchangeActive (s : State) : AccBecomes s (exchangeActive s) s.rs0.toNat :=
  AccBecomes.congr (accBecomes_setActive s s.rs0 s.rs0.toNat rfl) rfl

/-! ### The obligations -/

/-- Settles O28: `SS` is `exchangeActive`, whose two registers are read by the laws of `setLowBits` and which is
its own inverse. -/
theorem ssExchangesActiveBits : Obligations.SsExchangesActiveBits := by
  unfold Obligations.SsExchangesActiveBits
  refine ⟨decode_ss, fun s => ⟨exchangeActive s, exec_ss s, ?_, accBecomes_exchangeActive s, ?_, ?_, rfl,
    readByte_congr rfl⟩⟩
  · rw [exec_ss, exchangeActive_exchangeActive]
  · rw [exchangeActive_rs0, toNat_setLowBits_mod _ _ _ (width_le s), accNat]
  · rw [exchangeActive_rs0, toNat_setLowBits_div _ _ _ (width_le s)]

/-- Settles O25: the two nibbles are those that the immediate of `v` is written with. -/
theorem cfgLoadsAllEightBits : Obligations.CfgLoadsAllEightBits := by
  unfold Obligations.CfgLoadsAllEightBits
  refine ⟨fun p cfg v rest => ⟨immNibbles p.immOrder 2 v.toNat, length_immNibbles _ _ _, ?_⟩, exec_cfg⟩
  rw [List.cons_append, decode_cfg p cfg (length_immNibbles _ _ _), ofNat_immValue_immNibbles_byte]

/-- Settles O27: each word selects its entry in every mode, and each exchange writes its two registers whole. -/
theorem fullWidthExchanges : Obligations.FullWidthExchanges := by
  unfold Obligations.FullWidthExchanges
  exact ⟨fun p cfg rest => ⟨decode_rss p cfg rest, decode_rsa p cfg rest, decode_sa p cfg rest⟩,
    fun s => ⟨exec_rss s, exec_rsa s, exec_sa s⟩⟩

end Sys2Proof.Machine

/-! PROOFS. The loads of `XMEM` (R220, R221): what writing the address register changes, what a load writes in
each mode, and the obligation assembled from them. -/

namespace Sys2Proof.Machine

/-! ### The address register (R220) -/

@[simp] theorem setXmemReg_acc (f : XmemFn) (a : Word) (s : State) : (setXmemReg f a s).acc = s.acc := by
  unfold setXmemReg; split <;> rfl

@[simp] theorem setXmemReg_mem (f : XmemFn) (a : Word) (s : State) : (setXmemReg f a s).mem = s.mem := by
  unfold setXmemReg; split <;> rfl

/-- Where `AR` selects `RA1`, `RA0` is kept. -/
theorem setXmemReg_ra0_of_ra1 {f : XmemFn} (h : f.ra1 = true) (a : Word) (s : State) :
    (setXmemReg f a s).ra0 = s.ra0 := by
  rw [setXmemReg, if_pos h]

/-- Where `AR` selects `RA0`, `RA1` is kept. -/
theorem setXmemReg_ra1_of_ra0 {f : XmemFn} (h : f.ra1 = false) (a : Word) (s : State) :
    (setXmemReg f a s).ra1 = s.ra1 := by
  rw [setXmemReg, if_neg (by simp [h])]

/-- Writing the selected address register changes no other field. -/
theorem setXmemReg_eq (f : XmemFn) (a : Word) (s : State) :
    setXmemReg f a s = { s with ra0 := (setXmemReg f a s).ra0, ra1 := (setXmemReg f a s).ra1 } := by
  unfold setXmemReg; split <;> rfl

/-! ### The load (R221) -/

/-- In UL and LK8 a load writes the byte to the active accumulator. -/
theorem xmemLoad_of_narrow {s : State} (h : s.mode = .ul ∨ s.mode = .lk8) (a : Word) :
    xmemLoad a s = setActive (zextByte (readByte s a)) s := by
  rcases h with h | h <;> rw [xmemLoad, h]

/-- In LK16 and SPE a load writes the little-endian word to the whole of `ACC`. -/
theorem xmemLoad_of_wide {s : State} (h : s.mode = .lk16 ∨ s.mode = .spe) (a : Word) :
    xmemLoad a s = { s with acc := readWord s a } := by
  rcases h with h | h <;> rw [xmemLoad, h]

/-- A load writes `ACC` alone, in every mode. -/
theorem xmemLoad_eq (a : Word) (s : State) : xmemLoad a s = { s with acc := (xmemLoad a s).acc } := by
  unfold xmemLoad; split <;> rfl

theorem xmemLoad_mem (a : Word) (s : State) : (xmemLoad a s).mem = s.mem := by rw [xmemLoad_eq]

/-- In UL and LK8 the active accumulator takes the low `Wd` bits of the byte, the bits above are kept (R21). -/
theorem accBecomes_xmemLoad {s : State} (h : s.mode = .ul ∨ s.mode = .lk8) (a : Word) :
    AccBecomes s (xmemLoad a s) (readByte s a).toNat := by
  rw [xmemLoad_of_narrow h]
  exact accBecomes_setActive s _ _ (by rw [toNat_zextByte])

/-! ### What the instruction does -/

/-- The state that a load which is not refused leaves: the load, then the address register. -/
def afterLoad (f : XmemFn) (s : State) : State :=
  setXmemReg f (xmemRegAfter f s) (xmemLoad (xmemAddr f s) s)

/-- A load from readable addresses is not refused (R83, R220). -/
theorem exec_xmem_load {f : XmemFn} {s : State} (hload : f.store = false) (hread : Readable s (xmemAddrs f s)) :
    exec (.xmem f) s = .next (afterLoad f s) :=
  calc exec (.xmem f) s
      = execXmem f s := rfl
    _ = guardReads s (xmemAddrs f s) (.next (afterLoad f s)) := if_neg (by simp [hload])
    _ = .next (afterLoad f s) := guardReads_of_readable _ hread

theorem afterLoad_acc (f : XmemFn) (s : State) : (afterLoad f s).acc = (xmemLoad (xmemAddr f s) s).acc :=
  setXmemReg_acc _ _ _

theorem afterLoad_mem (f : XmemFn) (s : State) : (afterLoad f s).mem = s.mem :=
  (setXmemReg_mem _ _ _).trans (xmemLoad_mem _ _)

/-- A load changes `ACC` and the address registers at most: no flag, no memory, no other register. -/
theorem afterLoad_eq (f : XmemFn) (s : State) :
    afterLoad f s =
      { s with acc := (afterLoad f s).acc, ra0 := (afterLoad f s).ra0, ra1 := (afterLoad f s).ra1 } := by
  rw [afterLoad, xmemLoad_eq, setXmemReg_eq]

/-- The address register that `AR` does not select is kept. -/
theorem afterLoad_other_reg (f : XmemFn) (s : State) :
    (f.ra1 = true → (afterLoad f s).ra0 = s.ra0) ∧ (f.ra1 = false → (afterLoad f s).ra1 = s.ra1) :=
  ⟨fun h => by rw [afterLoad, setXmemReg_ra0_of_ra1 h, xmemLoad_eq],
   fun h => by rw [afterLoad, setXmemReg_ra1_of_ra0 h, xmemLoad_eq]⟩

/-! ### The obligation -/

/-- Settles O32: a load that is not refused is `afterLoad`, whose accumulator is that of `xmemLoad`: the byte in
the active bits in UL and LK8, the word in LK16 and SPE. -/
theorem xmemLoadResult : Obligations.XmemLoadResult := by
  unfold Obligations.XmemLoadResult
  intro f s hload hread
  have hnarrow (h : s.mode = .ul ∨ s.mode = .lk8) :
      AccBecomes s (afterLoad f s) (readByte s (xmemAddr f s)).toNat :=
    AccBecomes.congr (accBecomes_xmemLoad h _) (afterLoad_acc f s)
  have hwide (h : s.mode = .lk16 ∨ s.mode = .spe) :
      (afterLoad f s).acc = readByte s (xmemAddr f s + 1) ++ readByte s (xmemAddr f s) := by
    rw [afterLoad_acc, xmemLoad_of_wide h, readWord, mkWord]
  obtain ⟨hra0, hra1⟩ := afterLoad_other_reg f s
  exact ⟨afterLoad f s, exec_xmem_load hload hread, fun h => hnarrow (.inl h), fun h => hnarrow (.inr h), hwide,
    afterLoad_eq f s, hra0, hra1, readByte_congr (afterLoad_mem f s)⟩

end Sys2Proof.Machine

/-! PROOFS. The decoder and the encoder as a whole (R112 to R123): where each entry of the opcode map stands,
that an entry and its immediate nibbles build exactly the instruction that encodes to them, and the
obligations on encodings assembled from that. -/

namespace Sys2Proof.Machine

/-! ### The place of an entry in the opcode map (R120 to R123) -/

/-- The entry stands in the Extended column, behind the prefix (R112, R121). -/
def entryExtended : Entry → Bool
  | .nop | .add | .cfg | .shl | .ldi | .and | .racc | .csrld | .beqz | .xop | .inc | .rss | .btst | .xmem
  | .or | .ss | .jal => false
  | .csrAbsent extended => extended
  | _ => true

/-- The opcode nibble of an entry (R120, R121). -/
def entryOpcode : Entry → Nibble
  | .nop | .wfi | .min => 0x0
  | .add | .sub => 0x1
  | .cfg | .cmp => 0x2
  | .shl | .shr => 0x3
  | .ldi => 0x4
  | .and | .inv => 0x5
  | .racc | .rrs | .csrld | .csrst | .csrAbsent _ => 0x6
  | .beqz | .bc => 0x7
  | .xop | .swi | .max => 0x8
  | .inc | .dec => 0x9
  | .rss | .rsa => 0xA
  | .btst | .tst => 0xB
  | .xmem | .reti | .mad => 0xC
  | .or | .xor => 0xD
  | .ss | .sa => 0xE
  | .jal | .jmp => 0xF
  | .madNop o => profileNibble o
  | .rsv o => reservedNibble o

/-- The nibbles of an entry in stream order: its opcode, behind the prefix in the Extended column (R113). -/
def entryNibbles (e : Entry) : List Nibble :=
  if entryExtended e then [xopNibble, entryOpcode e] else [entryOpcode e]

/-- The profile set and the link mode give the entry's opcode this meaning (R122, R123, R130). -/
def entryPresent (p : Params) (cfg : Byte) : Entry → Bool
  | .racc | .rrs => !modeIsWide (linkMode cfg)
  | .csrld | .csrst => modeIsWide (linkMode cfg) && p.hasCsr
  | .csrAbsent _ => modeIsWide (linkMode cfg) && !p.hasCsr
  | .reti | .swi | .wfi => intColumn p (linkMode cfg)
  | .mad | .max | .min => madColumn p (linkMode cfg)
  | .madNop _ => nopColumn p (linkMode cfg)
  | .rsv (.shared _) => rsvColumn p
  | _ => true

/-- A fact about all nibbles is one about sixteen numbers. -/
theorem forall_nibble {P : Nibble → Prop} (h : ∀ k < 16, P (BitVec.ofNat 4 k)) (n : Nibble) : P n := by
  simpa using h n.toNat n.isLt

/-- Opcode `0110` selects an entry that stands there and that the core has (R122, R240). -/
theorem entry0110_spec (p : Params) (cfg : Byte) (x : Bool) :
    entryExtended (entry0110 p cfg x) = x ∧ entryOpcode (entry0110 p cfg x) = 0x6 ∧
      entryPresent p cfg (entry0110 p cfg x) = true := by
  unfold entry0110
  cases hw : modeIsWide (linkMode cfg) <;> cases hc : p.hasCsr <;> cases x <;>
    simp [entryExtended, entryOpcode, entryPresent, hw, hc]

/-- A shared extended opcode selects an entry that stands there and that the core has (R123). -/
theorem entryShared_spec (p : Params) (cfg : Byte) (o : ProfileOpcode) :
    entryExtended (entryShared p cfg o) = true ∧ entryOpcode (entryShared p cfg o) = profileNibble o ∧
      entryPresent p cfg (entryShared p cfg o) = true := by
  unfold entryShared
  cases hm : madColumn p (linkMode cfg) <;> cases hi : p.int <;> cases hd : p.mad <;> cases o <;>
    simp [entryExtended, entryOpcode, entryPresent, profileNibble, reservedNibble, intColumn, nopColumn, rsvColumn,
      hm, hi, hd]

/-- The entry that an opcode selects in a column stands at that opcode of that column, and the core has it. -/
theorem lookupEntry_spec (p : Params) (cfg : Byte) (x : Bool) (n : Nibble) :
    entryExtended (lookupEntry p cfg x n) = x ∧ entryOpcode (lookupEntry p cfg x n) = n ∧
      entryPresent p cfg (lookupEntry p cfg x n) = true := by
  have h6 := entry0110_spec p cfg
  have hshared := entryShared_spec p cfg
  revert n
  apply forall_nibble
  intro k hk
  cases x
  · match k, hk with
    | 6, _ => exact h6 false
    | 0, _ | 1, _ | 2, _ | 3, _ | 4, _ | 5, _ | 7, _ | 8, _ | 9, _ | 10, _ | 11, _ | 12, _ | 13, _ | 14, _ | 15, _ =>
      exact ⟨rfl, rfl, rfl⟩
    | k + 16, hk => exact absurd hk (by omega)
  · match k, hk with
    | 0, _ => exact hshared .op0
    | 6, _ => exact h6 true
    | 8, _ => exact hshared .op8
    | 12, _ => exact hshared .opC
    | 1, _ | 2, _ | 3, _ | 4, _ | 5, _ | 7, _ | 9, _ | 10, _ | 11, _ | 13, _ | 14, _ | 15, _ =>
      exact ⟨rfl, rfl, rfl⟩
    | k + 16, hk => exact absurd hk (by omega)

/-- An entry that the core has is the one its own opcode selects (R120 to R123). -/
theorem lookupEntry_of_present {p : Params} {cfg : Byte} {e : Entry} (h : entryPresent p cfg e = true) :
    lookupEntry p cfg (entryExtended e) (entryOpcode e) = e := by
  cases e with
  | racc | rrs | csrld | csrst =>
    simp only [entryPresent, Bool.and_eq_true, Bool.not_eq_true'] at h
    simp [lookupEntry, defaultEntry, extendedEntry, entryExtended, entryOpcode, entry0110, h]
  | csrAbsent x =>
    simp only [entryPresent, Bool.and_eq_true, Bool.not_eq_true'] at h
    cases x <;> simp [lookupEntry, defaultEntry, extendedEntry, entryExtended, entryOpcode, entry0110, h]
  | reti | swi | wfi =>
    simp only [entryPresent, intColumn, Bool.and_eq_true, Bool.not_eq_true'] at h
    simp [lookupEntry, extendedEntry, entryExtended, entryOpcode, entryShared, h]
  | mad | max | min =>
    simp only [entryPresent] at h
    simp [lookupEntry, extendedEntry, entryExtended, entryOpcode, entryShared, h]
  | madNop o =>
    simp only [entryPresent, nopColumn, Bool.and_eq_true, Bool.not_eq_true'] at h
    cases o <;> simp [lookupEntry, extendedEntry, entryExtended, entryOpcode, profileNibble, entryShared, h]
  | rsv o =>
    cases o with
    | op4 => rfl
    | shared o =>
      simp only [entryPresent, rsvColumn, Bool.and_eq_true, Bool.not_eq_true'] at h
      cases o <;>
        simp [lookupEntry, extendedEntry, entryExtended, entryOpcode, reservedNibble, profileNibble, entryShared,
          madColumn, h]
  | _ => rfl

/-- Only the prefix nibble of the Default column selects the entry of the prefix (R112). -/
theorem lookupEntry_eq_xop {p : Params} {cfg : Byte} {x : Bool} {n : Nibble}
    (h : lookupEntry p cfg x n = .xop) : x = false ∧ n = xopNibble := by
  obtain ⟨hx, hn, _⟩ := lookupEntry_spec p cfg x n
  rw [h] at hx hn
  exact ⟨hx.symm, hn.symm⟩

/-! ### An entry with its immediate nibbles is an instruction (R114 to R117) -/

/-- The value that `k` nibbles assemble to is encoded by those nibbles, in both orders (R116). -/
theorem immNibbles_ofNat_immValue (order : ImmOrder) {n k : Nat} (hk : 16 ^ k = 2 ^ n) {l : List Nibble}
    (h : l.length = k) : immNibbles order k (BitVec.ofNat n (immValue order l)).toNat = l := by
  have hlt := immValue_lt order l
  rw [h, hk] at hlt
  rw [BitVec.toNat_ofNat, Nat.mod_eq_of_lt hlt, ← h, immNibbles_immValue]

/-- The immediate of `Wn` nibbles is encoded by the nibbles it was read from (R116). -/
theorem encodeImm_immOfNibbles (p : Params) (m : LinkMode) {l : List Nibble} (h : l.length = modeNibbles m) :
    encodeImm p (immOfNibbles p m l) = l := by
  cases m <;> exact immNibbles_ofNat_immValue p.immOrder rfl h

/-- `OP2` is encoded by the nibbles it was read from: none for `RS0` (R45, R114). -/
theorem encodeOperand_operandOfNibbles (p : Params) (cfg : Byte) (takes : Bool) {l : List Nibble}
    (h : l.length = if takes then modeNibbles (linkMode cfg) else 0) :
    encodeOperand p (operandOfNibbles p cfg takes l) = l := by
  cases takes
  · exact (List.length_eq_zero_iff.mp h).symm
  · exact encodeImm_immOfNibbles p _ h

/-- A branch immediate is encoded by the nibbles it was read from (R114, R116). -/
theorem encodeBranch_branchOfNibbles (p : Params) (cfg : Byte) {l : List Nibble}
    (h : l.length = if cfgBW cfg then 2 else 1) : encodeBranch p (branchOfNibbles p cfg l) = l := by
  unfold branchOfNibbles
  cases hb : cfgBW cfg <;> rw [hb] at h <;> exact immNibbles_ofNat_immValue p.immOrder rfl h

/-- What an entry builds of its immediate nibbles is encoded by the entry's nibbles and those. -/
theorem encode_buildInstr (p : Params) (cfg : Byte) (e : Entry) {l : List Nibble}
    (h : l.length = immCount p cfg e) : encode p (buildInstr p cfg e l) = entryNibbles e ++ l := by
  have happ {x : List Nibble} (hx : x = l) : entryNibbles e ++ x = entryNibbles e ++ l := by rw [hx]
  have hnone (hl : l.length = 0) : l = [] := List.length_eq_zero_iff.mp hl
  cases e with
  | add | and | or | sub | xor | tst =>
    exact happ (encodeOperand_operandOfNibbles p cfg (cfgIMM cfg) h)
  | cmp => exact happ (encodeOperand_operandOfNibbles p cfg (cmpTakes p cfg) h)
  | ldi => exact happ (encodeImm_immOfNibbles p (linkMode cfg) h)
  | beqz | bc => exact happ (encodeBranch_branchOfNibbles p cfg h)
  | cfg => exact happ (immNibbles_ofNat_immValue p.immOrder rfl h)
  | csrld | csrst => exact happ (immNibbles_ofNat_immValue p.immOrder rfl h)
  | xmem =>
    rw [buildInstr, encode, nibbleOfXmemFn_xmemFnOfNibble]
    exact happ (immNibbles_ofNat_immValue p.immOrder rfl h)
  | mad =>
    rw [buildInstr, encode, nibbleOfMadCtl_madCtlOfNibble]
    exact happ (immNibbles_ofNat_immValue p.immOrder rfl h)
  | btst =>
    unfold buildInstr
    unfold immCount at h
    cases hi : cfgIMM cfg <;> simp only [hi, if_true, if_false, Bool.false_eq_true] at h ⊢
    · rw [hnone h]; rfl
    · exact happ (immNibbles_ofNat_immValue p.immOrder rfl h)
  | csrAbsent x => rw [hnone h]; cases x <;> rfl
  | _ => rw [hnone h]; rfl

/-- `OP2` as read has the form that `CFG` selects (R45, R114). -/
theorem fits_operandOfNibbles (p : Params) (cfg : Byte) (takes : Bool) (l : List Nibble) :
    (operandOfNibbles p cfg takes l).fits takes (linkMode cfg) = true := by
  cases takes
  · rfl
  · exact fits_immOfNibbles p (linkMode cfg) l

/-- A branch immediate as read has the width that `CFG.BW` names (R114). -/
theorem fits_branchOfNibbles (p : Params) (cfg : Byte) (l : List Nibble) :
    (branchOfNibbles p cfg l).fits (cfgBW cfg) = true := by
  unfold branchOfNibbles
  cases hb : cfgBW cfg <;> rfl

/-- What an entry builds is well-formed exactly where the core has the entry. -/
theorem wf_buildInstr (p : Params) (cfg : Byte) (e : Entry) (l : List Nibble) :
    (buildInstr p cfg e l).wf p cfg = entryPresent p cfg e := by
  cases e with
  | add | and | or | sub | xor | tst => exact fits_operandOfNibbles p cfg (cfgIMM cfg) l
  | cmp => exact fits_operandOfNibbles p cfg (cmpTakes p cfg) l
  | ldi => exact fits_immOfNibbles p (linkMode cfg) l
  | beqz | bc => exact fits_branchOfNibbles p cfg l
  | btst =>
    unfold buildInstr
    cases hi : cfgIMM cfg <;> simp [Instr.wf, BitIndex.fits, entryPresent, hi]
  | rsv o => cases o <;> rfl
  | _ => rfl

/-- A value of `k` nibbles comes back from its nibbles, in both orders (R116). -/
theorem ofNat_immValue_immNibbles (order : ImmOrder) {n : Nat} (k : Nat) (hk : 16 ^ k = 2 ^ n) (v : BitVec n) :
    BitVec.ofNat n (immValue order (immNibbles order k v.toNat)) = v := by
  rw [immValue_immNibbles, hk, Nat.mod_eq_of_lt v.isLt, BitVec.ofNat_toNat, BitVec.setWidth_eq]

/-- An immediate of the active width is read from the nibbles that encode it (R114, R116). -/
theorem immOfNibbles_encodeImm (p : Params) {m : LinkMode} {v : Imm} (h : v.fits m = true) :
    immOfNibbles p m (encodeImm p v) = v := by
  cases v with
  | w4 v =>
    obtain rfl : m = .ul := by simpa [Imm.fits] using h
    exact congrArg Imm.w4 (ofNat_immValue_immNibbles p.immOrder 1 rfl v)
  | w8 v =>
    obtain rfl : m = .lk8 := by simpa [Imm.fits] using h
    exact congrArg Imm.w8 (ofNat_immValue_immNibbles p.immOrder 2 rfl v)
  | w16 v =>
    have hw := congrArg Imm.w16 (ofNat_immValue_immNibbles p.immOrder 4 rfl v)
    cases m with
    | lk16 | spe => exact hw
    | ul | lk8 => cases h

/-- `OP2` of the form that `CFG` selects is read from the nibbles that encode it (R45, R114). -/
theorem operandOfNibbles_encodeOperand (p : Params) (cfg : Byte) {takes : Bool} {o : Operand}
    (h : o.fits takes (linkMode cfg) = true) : operandOfNibbles p cfg takes (encodeOperand p o) = o := by
  cases o with
  | rs0 =>
    obtain rfl : takes = false := by simpa [Operand.fits] using h
    rfl
  | imm v =>
    obtain ⟨rfl, hv⟩ : takes = true ∧ v.fits (linkMode cfg) = true := by simpa [Operand.fits] using h
    exact congrArg Operand.imm (immOfNibbles_encodeImm p hv)

/-- A branch immediate of the width of `CFG.BW` is read from the nibbles that encode it (R114, R116). -/
theorem branchOfNibbles_encodeBranch (p : Params) (cfg : Byte) {o : BranchImm} (h : o.fits (cfgBW cfg) = true) :
    branchOfNibbles p cfg (encodeBranch p o) = o := by
  cases o with
  | w4 v =>
    have hb : cfgBW cfg = false := by simpa [BranchImm.fits] using h
    rw [branchOfNibbles, hb]
    exact congrArg BranchImm.w4 (ofNat_immValue_immNibbles p.immOrder 1 rfl v)
  | w8 v =>
    have hb : cfgBW cfg = true := by simpa [BranchImm.fits] using h
    rw [branchOfNibbles, hb]
    exact congrArg BranchImm.w8 (ofNat_immValue_immNibbles p.immOrder 2 rfl v)

/-- The instruction `i` is what the entry `e` builds of as many immediate nibbles as it takes. -/
def BuiltFrom (p : Params) (cfg : Byte) (i : Instr) (e : Entry) : Prop :=
  ∃ l : List Nibble, l.length = immCount p cfg e ∧ buildInstr p cfg e l = i

/-- An entry that takes no immediate builds its instruction of no nibbles. -/
theorem builtFrom_nil {p : Params} {cfg : Byte} {e : Entry} (h : immCount p cfg e = 0) :
    BuiltFrom p cfg (buildInstr p cfg e []) e := ⟨[], h.symm, rfl⟩

/-- An instruction with `OP2` of the form that `CFG` selects is built from its entry. -/
theorem builtFrom_op2 {p : Params} {cfg : Byte} {e : Entry} {mk : Operand → Instr} {takes : Bool} {o : Operand}
    (hcount : immCount p cfg e = if takes then modeNibbles (linkMode cfg) else 0)
    (hbuild : ∀ l, buildInstr p cfg e l = mk (operandOfNibbles p cfg takes l))
    (ho : o.fits takes (linkMode cfg) = true) : BuiltFrom p cfg (mk o) e :=
  ⟨encodeOperand p o, (Laws.length_encodeOperand p takes (linkMode cfg) o ho).trans hcount.symm, by
    rw [hbuild, operandOfNibbles_encodeOperand p cfg ho]⟩

/-- A branch of the width of `CFG.BW` is built from its entry. -/
theorem builtFrom_branch {p : Params} {cfg : Byte} {e : Entry} {mk : BranchImm → Instr} {o : BranchImm}
    (hcount : immCount p cfg e = if cfgBW cfg then 2 else 1)
    (hbuild : ∀ l, buildInstr p cfg e l = mk (branchOfNibbles p cfg l))
    (ho : o.fits (cfgBW cfg) = true) : BuiltFrom p cfg (mk o) e :=
  ⟨encodeBranch p o, (Laws.length_encodeBranch p (cfgBW cfg) o ho).trans hcount.symm, by
    rw [hbuild, branchOfNibbles_encodeBranch p cfg ho]⟩

/-- An instruction with one immediate nibble is built from its entry. -/
theorem builtFrom_nibble {p : Params} {cfg : Byte} {e : Entry} {mk : Nibble → Instr}
    (hcount : immCount p cfg e = 1) (hbuild : ∀ l, buildInstr p cfg e l = mk (nibbleOfNibbles p l)) (v : Nibble) :
    BuiltFrom p cfg (mk v) e :=
  ⟨immNibbles p.immOrder 1 v.toNat, (length_immNibbles _ _ _).trans hcount.symm, by
    rw [hbuild, nibbleOfNibbles_immNibbles]⟩

/-- Every well-formed instruction is built from an entry of the opcode map (R114 to R117). -/
theorem exists_builtFrom {p : Params} {cfg : Byte} {i : Instr} (h : i.wf p cfg = true) :
    ∃ e, BuiltFrom p cfg i e := by
  cases i with
  | add o => exact ⟨.add, builtFrom_op2 rfl (fun _ => rfl) h⟩
  | sub o => exact ⟨.sub, builtFrom_op2 rfl (fun _ => rfl) h⟩
  | inc => exact ⟨.inc, builtFrom_nil rfl⟩
  | dec => exact ⟨.dec, builtFrom_nil rfl⟩
  | cmp o => exact ⟨.cmp, builtFrom_op2 (takes := cmpTakes p cfg) rfl (fun _ => rfl) h⟩
  | and o => exact ⟨.and, builtFrom_op2 rfl (fun _ => rfl) h⟩
  | inv => exact ⟨.inv, builtFrom_nil rfl⟩
  | or o => exact ⟨.or, builtFrom_op2 rfl (fun _ => rfl) h⟩
  | xor o => exact ⟨.xor, builtFrom_op2 rfl (fun _ => rfl) h⟩
  | shl => exact ⟨.shl, builtFrom_nil rfl⟩
  | shr => exact ⟨.shr, builtFrom_nil rfl⟩
  | btst idx =>
    refine ⟨.btst, ?_⟩
    cases idx with
    | rs0 =>
      have hi : cfgIMM cfg = false := by simpa [Instr.wf, BitIndex.fits] using h
      exact ⟨[], by simp [immCount, hi], by simp [buildInstr, hi]⟩
    | imm v =>
      have hi : cfgIMM cfg = true := by simpa [Instr.wf, BitIndex.fits] using h
      exact builtFrom_nibble (mk := fun v => .btst (.imm v)) (by simp [immCount, hi])
        (fun l => by simp [buildInstr, hi]) v
  | tst o => exact ⟨.tst, builtFrom_op2 rfl (fun _ => rfl) h⟩
  | beqz off => exact ⟨.beqz, builtFrom_branch rfl (fun _ => rfl) h⟩
  | bc off => exact ⟨.bc, builtFrom_branch rfl (fun _ => rfl) h⟩
  | jal => exact ⟨.jal, builtFrom_nil rfl⟩
  | jmp => exact ⟨.jmp, builtFrom_nil rfl⟩
  | cfg v =>
    exact ⟨.cfg, immNibbles p.immOrder 2 v.toNat, length_immNibbles _ _ _,
      congrArg Instr.cfg (ofNat_immValue_immNibbles p.immOrder 2 rfl v)⟩
  | racc => exact ⟨.racc, builtFrom_nil rfl⟩
  | rrs => exact ⟨.rrs, builtFrom_nil rfl⟩
  | rss => exact ⟨.rss, builtFrom_nil rfl⟩
  | rsa => exact ⟨.rsa, builtFrom_nil rfl⟩
  | ss => exact ⟨.ss, builtFrom_nil rfl⟩
  | sa => exact ⟨.sa, builtFrom_nil rfl⟩
  | ldi v =>
    exact ⟨.ldi, encodeImm p v, Laws.length_encodeOperand p true (linkMode cfg) (.imm v) h,
      congrArg Instr.ldi (immOfNibbles_encodeImm p h)⟩
  | xop => exact ⟨.xop, builtFrom_nil rfl⟩
  | nop => exact ⟨.nop, builtFrom_nil rfl⟩
  | xmem f =>
    have hf := congrArg Instr.xmem (xmemFnOfNibble_nibbleOfXmemFn f)
    exact ⟨.xmem, hf ▸ builtFrom_nibble (mk := fun n => .xmem (xmemFnOfNibble n)) rfl (fun _ => rfl) _⟩
  | csrld idx => exact ⟨.csrld, builtFrom_nibble rfl (fun _ => rfl) idx⟩
  | csrst idx => exact ⟨.csrst, builtFrom_nibble rfl (fun _ => rfl) idx⟩
  | reti => exact ⟨.reti, builtFrom_nil rfl⟩
  | swi => exact ⟨.swi, builtFrom_nil rfl⟩
  | wfi => exact ⟨.wfi, builtFrom_nil rfl⟩
  | mad ctl =>
    have hc := congrArg Instr.mad (madCtlOfNibble_nibbleOfMadCtl ctl)
    exact ⟨.mad, hc ▸ builtFrom_nibble (mk := fun n => .mad (madCtlOfNibble n)) rfl (fun _ => rfl) _⟩
  | max => exact ⟨.max, builtFrom_nil rfl⟩
  | min => exact ⟨.min, builtFrom_nil rfl⟩
  | madNop o => exact ⟨.madNop o, builtFrom_nil rfl⟩
  | rsv o => exact ⟨.rsv o, builtFrom_nil rfl⟩
  | csrAbsent x => exact ⟨.csrAbsent x, builtFrom_nil rfl⟩

/-! ### Decoding a list of nibbles (R118) -/

/-- The nibbles of an entry that the core has, other than the prefix alone, select it. -/
theorem decode_entryNibbles {p : Params} {cfg : Byte} {e : Entry} (he : entryPresent p cfg e = true)
    (hx : e ≠ .xop) (rest : List Nibble) :
    decode p cfg false (entryNibbles e ++ rest) = decodeEntry p cfg e rest := by
  have hlookup := lookupEntry_of_present he
  cases hcol : entryExtended e <;> rw [hcol] at hlookup
  · have hn : entryOpcode e ≠ xopNibble := by
      intro hn
      rw [hn] at hlookup
      exact hx hlookup.symm
    rw [entryNibbles, hcol]
    exact (decode_default p cfg _ rest hn).trans (congrArg (decodeEntry p cfg · rest) hlookup)
  · rw [entryNibbles, hcol]
    exact (decode_extended p cfg _ rest).trans (congrArg (decodeEntry p cfg · rest) hlookup)

/-- A nibble that is no prefix, or that follows one, is the opcode in the column of `XOPP` (R27, R112). -/
theorem decode_opcode {p : Params} {cfg : Byte} {x : Bool} {n : Nibble} (h : ¬ (x = false ∧ n = xopNibble))
    (rest : List Nibble) :
    decode p cfg x (n :: rest) = decodeEntry p cfg (lookupEntry p cfg x n) rest := by
  have hcond : (!x && n == xopNibble) = false := by
    cases x
    · simpa using h
    · rfl
  simp only [decode, hcond, Bool.false_eq_true, if_false]

/-- Everything that decoding from the start of an instruction can answer: the prefix where the list ends
after it, or what an entry that the core has builds of the nibbles after its own. -/
theorem decode_ok_cases {p : Params} {cfg : Byte} {i : Instr} {nibs rest : List Nibble}
    (h : decode p cfg false nibs = .ok (i, rest)) :
    (i = .xop ∧ nibs = [xopNibble] ∧ rest = []) ∨
    ∃ e l, e ≠ .xop ∧ entryPresent p cfg e = true ∧ l.length = immCount p cfg e ∧
      i = buildInstr p cfg e l ∧ nibs = entryNibbles e ++ l ++ rest := by
  have hentry {x : Bool} {n : Nibble} {after : List Nibble} (hn : x = false → n ≠ xopNibble)
      (h : decodeEntry p cfg (lookupEntry p cfg x n) after = .ok (i, rest)) :
      ∃ e l, e ≠ .xop ∧ entryPresent p cfg e = true ∧ l.length = immCount p cfg e ∧
        i = buildInstr p cfg e l ∧ (if x then [xopNibble, n] else [n]) ++ after = entryNibbles e ++ l ++ rest := by
    obtain ⟨l, hl, hafter, hi⟩ := decodeEntry_ok h
    obtain ⟨hcol, hop, hpres⟩ := lookupEntry_spec p cfg x n
    refine ⟨lookupEntry p cfg x n, l, ?_, hpres, hl, hi, ?_⟩
    · intro hxop
      obtain ⟨hx, hn'⟩ := lookupEntry_eq_xop hxop
      exact hn hx hn'
    · rw [entryNibbles, hcol, hop, hafter, List.append_assoc]
  match nibs, h with
  | n0 :: rest0, h =>
    by_cases hn : n0 = xopNibble
    · subst hn
      match rest0, h with
      | [], h => cases h; exact .inl ⟨rfl, rfl, rfl⟩
      | n1 :: rest1, h => exact .inr (hentry (x := true) nofun ((decode_extended p cfg n1 rest1).symm.trans h))
    · exact .inr (hentry (x := false) (fun _ => hn) ((decode_default p cfg n0 rest0 hn).symm.trans h))

/-- An instruction takes at most four immediate nibbles (R114). -/
theorem immCount_le (p : Params) (cfg : Byte) (e : Entry) : immCount p cfg e ≤ 4 := by
  have hmode : modeNibbles (linkMode cfg) ≤ 4 := by cases linkMode cfg <;> decide
  have hbit (b : Bool) : (if b then modeNibbles (linkMode cfg) else 0) ≤ 4 := by cases b <;> simp [hmode]
  cases e with
  | add | sub | and | or | xor | tst => exact hbit (cfgIMM cfg)
  | cmp => exact hbit (cmpTakes p cfg)
  | ldi => exact hmode
  | btst => show (if cfgIMM cfg then 1 else 0) ≤ 4; cases cfgIMM cfg <;> decide
  | beqz | bc => show (if cfgBW cfg then 2 else 1) ≤ 4; cases cfgBW cfg <;> decide
  | cfg => show 2 ≤ 4; decide
  | csrld | csrst | xmem | mad => show 1 ≤ 4; decide
  | _ => exact Nat.zero_le 4

/-- Only the entry of the prefix builds the bare prefix. -/
theorem buildInstr_ne_xop {p : Params} {cfg : Byte} {e : Entry} (l : List Nibble) (h : e ≠ .xop) :
    buildInstr p cfg e l ≠ .xop := by
  cases e with
  | xop => exact absurd rfl h
  | _ => exact nofun

/-- An entry is decoded from a list that is long enough, and takes its immediate nibbles from it. -/
theorem decodeEntry_of_length {p : Params} {cfg : Byte} {e : Entry} {nibs : List Nibble} (he : e ≠ .xop)
    (h : 4 ≤ nibs.length) :
    ∃ i rest, decodeEntry p cfg e nibs = .ok (i, rest) ∧ rest.length ≤ nibs.length ∧
      nibs.length ≤ rest.length + 4 ∧ i ≠ .xop := by
  have hle := immCount_le p cfg e
  refine ⟨_, _, if_neg (by omega), ?_, ?_, buildInstr_ne_xop _ he⟩ <;> rw [List.length_drop] <;> omega

/-! ### The obligations -/

/-- Settles O1: a well-formed instruction is built from an entry that the core has, its encoding is the entry's
nibbles and its immediate, and these decode back to it. -/
theorem decodeOfEncode : Obligations.DecodeOfEncode := by
  unfold Obligations.DecodeOfEncode
  intro p cfg i rest hwf hxop
  obtain ⟨e, l, hl, rfl⟩ := exists_builtFrom hwf
  by_cases he : e = .xop
  · subst he
    rw [hxop rfl]
    rfl
  · rw [wf_buildInstr] at hwf
    rw [encode_buildInstr p cfg e hl, List.append_assoc, decode_entryNibbles hwf he,
      decodeEntry_append p cfg e l rest hl]

/-- Settles O2: what decodes is built from an entry that the core has and encodes to that entry's nibbles and
the immediate nibbles it was built of. -/
theorem encodeOfDecode : Obligations.EncodeOfDecode := by
  unfold Obligations.EncodeOfDecode
  intro p cfg i nibs rest h
  rcases decode_ok_cases h with ⟨rfl, rfl, rfl⟩ | ⟨e, l, _, hpres, hl, rfl, rfl⟩
  · exact ⟨rfl, rfl⟩
  · rw [encode_buildInstr p cfg e hl, wf_buildInstr]
    exact ⟨rfl, hpres⟩

/-- Settles O3: at most two nibbles select the entry, which takes at most four more, and the entry selected is
never that of the prefix. -/
theorem sixNibblesAlwaysDecode : Obligations.SixNibblesAlwaysDecode := by
  unfold Obligations.SixNibblesAlwaysDecode
  intro p cfg xopp nibs hlen
  match nibs, hlen with
  | n0 :: n1 :: rest, hlen =>
    simp only [List.length_cons] at hlen ⊢
    by_cases hpre : xopp = false ∧ n0 = xopNibble
    · obtain ⟨rfl, rfl⟩ := hpre
      have he : lookupEntry p cfg true n1 ≠ .xop := fun h => absurd (lookupEntry_eq_xop h).1 (by decide)
      obtain ⟨i, r, hd, h1, h2, hx⟩ := decodeEntry_of_length (p := p) (cfg := cfg) (nibs := rest) he (by omega)
      exact ⟨i, r, (decode_extended p cfg n1 rest).trans hd, by omega, by omega, hx⟩
    · have he : lookupEntry p cfg xopp n0 ≠ .xop := fun h => hpre (lookupEntry_eq_xop h)
      obtain ⟨i, r, hd, h1, h2, hx⟩ := decodeEntry_of_length (p := p) (cfg := cfg) (nibs := n1 :: rest) he
        (by simp only [List.length_cons]; omega)
      simp only [List.length_cons] at h1 h2
      exact ⟨i, r, (decode_opcode hpre (n1 :: rest)).trans hd, by omega, by omega, hx⟩

/-- Settles O4: each word selects its entry and its nibbles assemble to the immediate, by evaluating the
decoder on the eleven words. -/
theorem wordsOfTheSpecDecode : Obligations.WordsOfTheSpecDecode := by
  unfold Obligations.WordsOfTheSpecDecode
  exact ⟨rfl, rfl, rfl, rfl, rfl, rfl, rfl, rfl, rfl, rfl, rfl⟩

end Sys2Proof.Machine

/-! PROOFS. The fetch position, the fetch of one nibble and of one instruction, and the step of an awake core
(R26, R98, R111, R118, R306), with the obligations on them. -/

namespace Sys2Proof.Machine

/-! ### The fetch position (R26) -/

theorem toNat_odd (k : Nat) : (k % 2 == 1).toNat = k % 2 := by
  rcases Nat.mod_two_eq_zero_or_one k with h | h <;> rw [h] <;> rfl

/-- Moves of the fetch position compose. -/
theorem advance_advance (k j : Nat) (s : State) : advance j (advance k s) = advance (k + j) s := by
  have hpc : nibbleAddr (advance k s) j = nibbleAddr s (k + j) := by
    simp only [nibbleAddr, nibbleIndex, advance_pc, advance_nib, toNat_odd, BitVec.add_assoc, ← BitVec.ofNat_add]
    congr 2
    omega
  have hnib : (nibbleIndex (advance k s) j % 2 == 1) = (nibbleIndex s (k + j) % 2 == 1) := by
    simp only [nibbleIndex, advance_nib, toNat_odd]
    congr 1
    omega
  unfold advance at *
  simp only [State.mk.injEq, true_and, and_true]
  exact ⟨hpc, hnib⟩

/-- The nibble at the fetch position is in the byte at `PC` (R26). -/
theorem nibbleAddr_zero (s : State) : nibbleAddr s 0 = s.pc := by
  cases hn : s.nib <;> simp [nibbleAddr, nibbleIndex, hn]

/-- The nibble at the fetch position is the second of its byte exactly where `NIB = 1` (R26). -/
theorem nibbleIndex_zero_odd (s : State) : (nibbleIndex s 0 % 2 == 1) = s.nib := by
  cases hn : s.nib <;> simp [nibbleIndex, hn]

/-! ### The fetch of one nibble (R98, R111) -/

/-- A fetch looks at the fetch position, the parameters, memory and the record of stored bytes. -/
theorem fetchNibble_congr {s t : State} {k j : Nat} (hp : t.params = s.params) (hm : t.mem = s.mem)
    (hmod : t.modified = s.modified) (ha : nibbleAddr t j = nibbleAddr s k)
    (hi : (nibbleIndex t j % 2 == 1) = (nibbleIndex s k % 2 == 1)) : fetchNibble t j = fetchNibble s k := by
  simp only [fetchNibble, readRefusal, readByte, hp, hm, hmod, ha, hi]

/-- Fetching from a moved fetch position is fetching further on. -/
theorem fetchNibble_advance (k j : Nat) (s : State) : fetchNibble (advance k s) j = fetchNibble s (k + j) := by
  have h := advance_advance k j s
  exact fetchNibble_congr rfl rfl rfl (congrArg State.pc h) (congrArg State.nib h)

/-- A nibble of a backed byte that may be fetched is the half that `NIBBLE_FIRST` and the phase select. -/
theorem fetchNibble_eq_ok {s : State} {k : Nat} (hr : readRefusal s (nibbleAddr s k) = none)
    (hm : (nibbleAddr s k).toNat ∉ s.modified ∨ s.params.fetchSeesStores = true) :
    fetchNibble s k = .ok
      (nibbleOfByte s.params.nibbleFirst (readByte s (nibbleAddr s k)) (nibbleIndex s k % 2 == 1)) := by
  have hcond : (!s.params.fetchSeesStores && s.modified.contains (nibbleAddr s k).toNat) = false := by
    rcases hm with hm | hm <;> simp [hm]
  rw [fetchNibble, hr]
  exact if_neg (by rw [hcond]; decide)

/-! ### The fetch of one instruction (R114, R118) -/

/-- The nibbles that can be fetched one by one are fetched in stream order. -/
theorem fetchNibbles_eq_ok {s : State} {l : List Nibble} {k : Nat}
    (h : ∀ (j : Nat) (hj : j < l.length), fetchNibble s (k + j) = .ok l[j]) :
    fetchNibbles s k l.length = .ok l := by
  induction l generalizing k with
  | nil => rfl
  | cons n rest ih =>
    have hhead : fetchNibble s k = .ok n := h 0 (Nat.succ_pos _)
    have htail : fetchNibbles s (k + 1) rest.length = .ok rest := by
      refine ih fun j hj => ?_
      have := h (j + 1) (Nat.succ_lt_succ hj)
      rwa [← Nat.add_assoc, Nat.add_right_comm] at this
    rw [List.length_cons, fetchNibbles, hhead, htail]

/-- As many nibbles are fetched as were asked for. -/
theorem length_of_fetchNibbles {s : State} {k count : Nat} {l : List Nibble}
    (h : fetchNibbles s k count = .ok l) : l.length = count := by
  induction count generalizing k l with
  | zero => cases h; rfl
  | succ count ih =>
    unfold fetchNibbles at h
    split at h
    · cases h
    · split at h
      · cases h
      · rename_i rest hrest
        cases h
        rw [List.length_cons, ih hrest]

/-- Where each nibble of `t` is the one `k` further on of `s`, so are runs of nibbles. -/
theorem fetchNibbles_shift {s t : State} {k : Nat} (h : ∀ j, fetchNibble t j = fetchNibble s (k + j))
    (j count : Nat) : fetchNibbles t j count = fetchNibbles s (k + j) count := by
  induction count generalizing j with
  | zero => rfl
  | succ count ih => rw [fetchNibbles, fetchNibbles, h, ih, Nat.add_assoc]

/-- Fetch the immediate nibbles of the entry `e` from `k` nibbles past the fetch position on and build the
instruction (R114, R117). -/
def fetchEntry (s : State) (k : Nat) (e : Entry) : Except Stop (Instr × Nat) :=
  match fetchNibbles s k (immCount s.params s.cfg e) with
  | .error why => .error why
  | .ok l => .ok (buildInstr s.params s.cfg e l, k + immCount s.params s.cfg e)

/-- If an entry is fetched, its instruction is built of as many nibbles as it takes. -/
theorem fetchEntry_ok {s : State} {k : Nat} {e : Entry} {i : Instr} {len : Nat}
    (h : fetchEntry s k e = .ok (i, len)) :
    ∃ l, l.length = immCount s.params s.cfg e ∧ i = buildInstr s.params s.cfg e l := by
  unfold fetchEntry at h
  split at h
  · cases h
  · rename_i l hl
    cases h
    exact ⟨l, length_of_fetchNibbles hl, rfl⟩

/-- The first nibble stops the fetch of the instruction where it is not fetched. -/
theorem fetchInstr_error {s : State} {why : Stop} (h : fetchNibble s 0 = .error why) :
    fetchInstr s = .error why := by
  rw [fetchInstr, fetchLength, h]

/-- Behind a prefix, the opcode stops the fetch of the instruction where it is not fetched. -/
theorem fetchInstr_prefix_error {s : State} {why : Stop} (hx : s.xopp = false)
    (h0 : fetchNibble s 0 = .ok xopNibble) (h1 : fetchNibble s 1 = .error why) : fetchInstr s = .error why := by
  have hlen : fetchLength s = .error why := by simp [fetchLength, h0, h1, hx]
  rw [fetchInstr, hlen]

/-- An opcode that is fetched selects its entry in the column of `XOPP`, whose immediate is fetched after it. -/
theorem fetchInstr_opcode {s : State} {n : Nibble} (hpre : ¬ (s.xopp = false ∧ n = xopNibble))
    (h0 : fetchNibble s 0 = .ok n) : fetchInstr s = fetchEntry s 1 (lookupEntry s.params s.cfg s.xopp n) := by
  have hcond : (!s.xopp && n == xopNibble) = false := by
    cases hx : s.xopp
    · simpa [hx] using hpre
    · rfl
  have hlen : fetchLength s = .ok (immCount s.params s.cfg (lookupEntry s.params s.cfg s.xopp n) + 1) := by
    simp [fetchLength, instrLength, h0, hcond, Nat.add_comm]
  rw [fetchInstr, hlen, fetchEntry]
  simp only [fetchNibbles, h0, Nat.zero_add]
  cases hl : fetchNibbles s 1 (immCount s.params s.cfg (lookupEntry s.params s.cfg s.xopp n)) with
  | error why => rfl
  | ok l =>
    have hdec := decodeEntry_append s.params s.cfg _ l [] (length_of_fetchNibbles hl)
    rw [List.append_nil] at hdec
    simp only [decode_opcode hpre, hdec, Nat.add_comm]

/-- The opcode behind a prefix selects its entry in the Extended column (R112). -/
theorem fetchInstr_extended {s : State} {n : Nibble} (hx : s.xopp = false)
    (h0 : fetchNibble s 0 = .ok xopNibble) (h1 : fetchNibble s 1 = .ok n) :
    fetchInstr s = fetchEntry s 2 (lookupEntry s.params s.cfg true n) := by
  have hlen : fetchLength s = .ok (immCount s.params s.cfg (lookupEntry s.params s.cfg true n) + 1 + 1) := by
    simp [fetchLength, instrLength, h0, h1, hx]
    omega
  rw [fetchInstr, hlen, fetchEntry]
  simp only [fetchNibbles, h0, h1, Nat.zero_add, Nat.reduceAdd]
  cases hl : fetchNibbles s 2 (immCount s.params s.cfg (lookupEntry s.params s.cfg true n)) with
  | error why => rfl
  | ok l =>
    have hdec := decodeEntry_append s.params s.cfg (lookupEntry s.params s.cfg true n) l []
      (length_of_fetchNibbles hl)
    rw [List.append_nil] at hdec
    simp only [hx, (decode_extended s.params s.cfg n l).trans hdec, Nat.add_comm 2]

/-- Whatever is fetched is built from an entry that the core has, and is not the bare prefix (R118). -/
theorem fetchInstr_ok {s : State} {i : Instr} {len : Nat} (h : fetchInstr s = .ok (i, len)) :
    ∃ e l, e ≠ .xop ∧ entryPresent s.params s.cfg e = true ∧ i = buildInstr s.params s.cfg e l := by
  cases h0 : fetchNibble s 0 with
  | error why => rw [fetchInstr_error h0] at h; cases h
  | ok n0 =>
    by_cases hpre : s.xopp = false ∧ n0 = xopNibble
    · obtain ⟨hx, rfl⟩ := hpre
      cases h1 : fetchNibble s 1 with
      | error why => rw [fetchInstr_prefix_error hx h0 h1] at h; cases h
      | ok n1 =>
        rw [fetchInstr_extended hx h0 h1] at h
        obtain ⟨l, _, hi⟩ := fetchEntry_ok h
        exact ⟨_, l, fun hxop => absurd (lookupEntry_eq_xop hxop).1 (by decide), (lookupEntry_spec _ _ _ _).2.2, hi⟩
    · rw [fetchInstr_opcode hpre h0] at h
      obtain ⟨l, _, hi⟩ := fetchEntry_ok h
      exact ⟨_, l, fun hxop => hpre (lookupEntry_eq_xop hxop), (lookupEntry_spec _ _ _ _).2.2, hi⟩

/-- The step never runs the bare prefix (R118). -/
theorem fetchInstr_ne_xop {s : State} {i : Instr} {len : Nat} (h : fetchInstr s = .ok (i, len)) : i ≠ .xop := by
  obtain ⟨e, l, he, _, rfl⟩ := fetchInstr_ok h
  exact buildInstr_ne_xop l he

/-- What the step fetches is well-formed (R115). -/
theorem fetchInstr_wf {s : State} {i : Instr} {len : Nat} (h : fetchInstr s = .ok (i, len)) :
    i.wf s.params s.cfg = true := by
  obtain ⟨e, l, _, he, rfl⟩ := fetchInstr_ok h
  rw [wf_buildInstr, he]

/-- Nibbles that can be fetched and decode to one whole instruction are the instruction fetched. -/
theorem fetchInstr_of_decode {s : State} {i : Instr} {nibs : List Nibble}
    (hf : ∀ (k : Nat) (h : k < nibs.length), fetchNibble s k = .ok nibs[k])
    (hd : decode s.params s.cfg s.xopp nibs = .ok (i, [])) (hi : i ≠ .xop) :
    fetchInstr s = .ok (i, nibs.length) := by
  have hentry {e : Entry} {k : Nat} {rest : List Nibble} (hd : decodeEntry s.params s.cfg e rest = .ok (i, []))
      (hrest : ∀ (j : Nat) (h : j < rest.length), fetchNibble s (k + j) = .ok rest[j]) :
      fetchEntry s k e = .ok (i, k + rest.length) := by
    obtain ⟨l, hl, rfl, rfl⟩ := decodeEntry_ok hd
    have hfetch := fetchNibbles_eq_ok hrest
    rw [List.append_nil, hl] at hfetch
    rw [fetchEntry, hfetch, List.append_nil, hl]
  match nibs, hf, hd with
  | n0 :: rest, hf, hd =>
    have h0 : fetchNibble s 0 = .ok n0 := hf 0 (Nat.succ_pos _)
    by_cases hpre : s.xopp = false ∧ n0 = xopNibble
    · obtain ⟨hx, rfl⟩ := hpre
      rw [hx] at hd
      match rest, hf, hd with
      | [], _, hd => cases hd; exact absurd rfl hi
      | n1 :: rest1, hf, hd =>
        have h1 : fetchNibble s 1 = .ok n1 := hf 1 (by simp)
        rw [decode_extended] at hd
        rw [fetchInstr_extended hx h0 h1, hentry (e := lookupEntry s.params s.cfg true n1) hd]
        · rw [List.length_cons, List.length_cons, Nat.add_comm 2]
        · intro j hj
          have := hf (2 + j) (by simp only [List.length_cons]; omega)
          simpa [Nat.add_comm 2 j] using this
    · rw [decode_opcode hpre] at hd
      rw [fetchInstr_opcode hpre h0, hentry hd]
      · rw [List.length_cons, Nat.add_comm 1]
      · intro j hj
        have := hf (1 + j) (by simp only [List.length_cons]; omega)
        simpa [Nat.add_comm 1 j] using this

/-! ### The prefix by itself (R27, R210) -/

/-- The state after the bare prefix: its nibble is fetched and `XOPP` is 1. -/
def afterPrefix (s : State) : State := { advance 1 s with xopp := true }

theorem exec_xop (s : State) : exec .xop s = .next { s with xopp := true } := rfl

@[simp] theorem afterPrefix_params (s : State) : (afterPrefix s).params = s.params := rfl
@[simp] theorem afterPrefix_cfg (s : State) : (afterPrefix s).cfg = s.cfg := rfl
@[simp] theorem afterPrefix_xopp (s : State) : (afterPrefix s).xopp = true := rfl
@[simp] theorem stepArmed_afterPrefix (s : State) : stepArmed (afterPrefix s) = stepArmed s := rfl

theorem fetchNibble_afterPrefix (s : State) (j : Nat) : fetchNibble (afterPrefix s) j = fetchNibble s (1 + j) :=
  fetchNibble_advance 1 j s

theorem advance_afterPrefix (s : State) (k : Nat) : advance k (afterPrefix s) = advance (1 + k) s :=
  advance_advance 1 k s

/-! ### The step of an awake core (R306) -/

@[simp] theorem boundary_params (s : State) : (boundary s).params = s.params := by rw [boundary_eq]
@[simp] theorem boundary_pc (s : State) : (boundary s).pc = s.pc := by rw [boundary_eq]
@[simp] theorem boundary_nib (s : State) : (boundary s).nib = s.nib := by rw [boundary_eq]
@[simp] theorem boundary_xopp (s : State) : (boundary s).xopp = s.xopp := by rw [boundary_eq]
@[simp] theorem boundary_mem (s : State) : (boundary s).mem = s.mem := by rw [boundary_eq]
@[simp] theorem boundary_modified (s : State) : (boundary s).modified = s.modified := by rw [boundary_eq]
@[simp] theorem boundary_cfg (s : State) : (boundary s).cfg = s.cfg := by rw [boundary_eq]
@[simp] theorem boundary_acc (s : State) : (boundary s).acc = s.acc := by rw [boundary_eq]

/-- Where no interrupt entry and no sleep comes first, the step runs an instruction. -/
theorem step_of_runsInstr {s : State} (h : RunsInstr s) :
    step s = runInstr (envInput s).extraTicks (boundary s) := by
  obtain ⟨hdue, hawake⟩ := h
  rw [step, stepOnce, if_neg (by simp [hdue]), if_neg (by simp [hawake])]

/-- An instruction whose fetch stops is the stop. -/
theorem runInstr_of_error {extra : Nat} {s : State} {why : Stop} (h : fetchInstr s = .error why) :
    runInstr extra s = stopResult why := by
  rw [runInstr, h]

/-- An instruction that is fetched and answers a next state is followed by its retirement. -/
theorem runInstr_of_next {extra : Nat} {s u : State} {i : Instr} {len : Nat} (hf : fetchInstr s = .ok (i, len))
    (hu : exec i (advance len s) = .next u) : runInstr extra s = .next (retire extra (stepArmed s) i u) := by
  rw [runInstr, hf]
  simp only [hu]

/-- The step of an instruction that is fetched and answers a next state. -/
theorem step_of_fetches {s u : State} {i : Instr} {len : Nat} (hr : RunsInstr s) (hf : Fetches s i len)
    (hu : exec i (advance len (boundary s)) = .next u) :
    step s = .next (retire (envInput s).extraTicks (stepArmed (boundary s)) i u) :=
  (step_of_runsInstr hr).trans (runInstr_of_next hf hu)

/-! ### The obligations -/

/-- Settles O5: one nibble on, by the two phases; composition is `advance_advance`. -/
theorem advanceIsNibbleByNibble : Obligations.AdvanceIsNibbleByNibble := by
  unfold Obligations.AdvanceIsNibbleByNibble
  refine fun s k => ⟨?_, (advance_advance k 1 s).symm⟩
  cases hn : s.nib <;> simp [advance, nibbleAddr, nibbleIndex, hn]

/-- Settles O6: the fetch at the position itself is from the byte at `PC`, and `NIB` says which half. -/
theorem fetchedNibble : Obligations.FetchedNibble := by
  unfold Obligations.FetchedNibble
  intro s hr hm
  rw [fetchNibble_eq_ok (by rw [nibbleAddr_zero, hr]) (by rwa [nibbleAddr_zero]), nibbleAddr_zero,
    nibbleIndex_zero_odd]
  cases s.params.nibbleFirst <;> cases s.nib <;> rfl

/-- Settles O7: the fetch answers the model-fault, and a step that runs an instruction begins with that fetch. -/
theorem fetchOfModifiedByteStops : Obligations.FetchOfModifiedByteStops := by
  unfold Obligations.FetchOfModifiedByteStops
  intro s hr hsees hmem
  have hfetch : fetchNibble s 0 = .error (.fault (.fetchOfModifiedByte s.pc)) := by
    simp [fetchNibble, nibbleAddr_zero, hr, hsees, hmem]
  have hsame : fetchNibble (boundary s) 0 = fetchNibble s 0 :=
    fetchNibble_congr (boundary_params s) (boundary_mem s) (boundary_modified s)
      (by rw [nibbleAddr_zero, nibbleAddr_zero, boundary_pc])
      (by rw [nibbleIndex_zero_odd, nibbleIndex_zero_odd, boundary_nib])
  exact ⟨hfetch, fun hruns =>
    (step_of_runsInstr hruns).trans (runInstr_of_error (fetchInstr_error (hsame.trans hfetch)))⟩

/-- Settles O8: the nibbles given are the ones fetched, so the step runs the instruction they decode to. -/
theorem stepRunsDecodedInstruction : Obligations.StepRunsDecodedInstruction := by
  unfold Obligations.StepRunsDecodedInstruction
  intro s i nibs hruns hf hd hi
  have hstep := step_of_runsInstr hruns
  rw [runInstr, fetchInstr_of_decode hf hd hi] at hstep
  exact hstep

/-- Settles O9: behind the prefix both runs fetch the same opcode, entry and immediate, and reach the same
fetch position after them. -/
theorem prefixThenOpcodeIsOneInstruction : Obligations.PrefixThenOpcodeIsOneInstruction := by
  unfold Obligations.PrefixThenOpcodeIsOneInstruction
  intro s t extra hx h0 ht
  obtain rfl : afterPrefix s = t := Host.Outcome.next.inj ht
  have hnibble := fetchNibble_afterPrefix s
  cases h1 : fetchNibble s 1 with
  | error why =>
    rw [runInstr_of_error (fetchInstr_prefix_error hx h0 h1),
      runInstr_of_error (fetchInstr_error ((hnibble 0).trans h1))]
  | ok n =>
    have hs := fetchInstr_extended hx h0 h1
    have ht := fetchInstr_opcode (s := afterPrefix s) (by simp) ((hnibble 0).trans h1)
    have himm := fetchNibbles_shift hnibble 1
    simp only [fetchEntry, afterPrefix_params, afterPrefix_cfg, afterPrefix_xopp, himm, Nat.reduceAdd] at hs ht
    cases hl : fetchNibbles s 2 (immCount s.params s.cfg (lookupEntry s.params s.cfg true n)) with
    | error why =>
      rw [hl] at hs ht
      rw [runInstr_of_error hs, runInstr_of_error ht]
    | ok l =>
      rw [hl] at hs ht
      rw [runInstr, runInstr, hs, ht]
      simp only [advance_afterPrefix, stepArmed_afterPrefix, ← Nat.add_assoc, Nat.reduceAdd]

end Sys2Proof.Machine

/-! PROOFS. What an instruction can do to the state, once for all instructions, and the obligations that follow
from it: which instruction writes what, the invariant of a step, and where a step can stop (R22, R31, R48 to
R51, R80, R300). -/

namespace Sys2Proof.Machine

/-! ### The effect of an instruction -/

/-- The state that a store which is not refused leaves: the store, then the address register. -/
def afterStore (f : XmemFn) (s : State) : State :=
  setXmemReg f (xmemRegAfter f s) (xmemStore (xmemAddr f s) s)

/-- The ways in which an instruction that answers a next state has written the state. -/
inductive Effect (s : State) : Instr → State → Prop where
  /-- The data registers other than `RS1`, by instructions that write no flag (R31). -/
  | data {i : Instr} (acc rs0 ra0 ra1 : Word) : Effect s i { s with acc := acc, rs0 := rs0, ra0 := ra0, ra1 := ra1 }
  | alu {i : Instr} (res : AluResult) (h : i = .inc ∨ i = .dec ∨ ∃ o, i = .add o ∨ i = .sub o) :
      Effect s i (writeAlu res s)
  | compare (o : Operand) (res : AluResult) : Effect s (.cmp o) (setCVZN s.width res s)
  | logical {i : Instr} (r : Word) (h : i = .inv ∨ ∃ o, i = .and o ∨ i = .or o ∨ i = .xor o) :
      Effect s i (writeLogical r s)
  | shift {i : Instr} (expelled : Bool) (r : Word) (h : i = .shl ∨ i = .shr) : Effect s i (writeShift expelled r s)
  | btst (idx : BitIndex) (c z : Bool) : Effect s (.btst idx) { s with c := c, z := z }
  | tst (o : Operand) (r : Word) (c : Bool) (h : c ≠ s.c → s.params.tstWritesC = true) :
      Effect s (.tst o) (setZN s.width r { s with c := c })
  | branch {i : Instr} (target : Word) (h : ∃ off, i = .beqz off ∨ i = .bc off) : Effect s i (jumpTo target s)
  | jal (pn : Word) : Effect s .jal (jumpTo s.ra0 { s with ra1 := pn })
  | jmp : Effect s .jmp (jumpTo s.ra0 s)
  | cfg (v : Byte) : Effect s (.cfg v) { s with cfg := v }
  | rss : Effect s .rss { s with rs0 := s.rs1, rs1 := s.rs0 }
  | xop : Effect s .xop { s with xopp := true }
  | store (f : XmemFn) (h : f.store = true) : Effect s (.xmem f) (afterStore f s)
  | csrst (idx : BitVec 4) : Effect s (.csrst idx) (csrWrite idx s.acc s)
  | reti : Effect s .reti (restoreFrame s)
  | swi : Effect s .swi (setEvtBit evtSwP true s)
  | wfi : Effect s .wfi { s with sleep := true }
  | mad (ctl : MadCtl) (acc : Word) (c : Bool) : Effect s (.mad ctl) { s with acc := acc, c := c }

/-- A load that answers a next state was from readable addresses, and is `afterLoad`. -/
theorem exec_load_next {f : XmemFn} {s t : State} (hf : f.store = false) (h : exec (.xmem f) s = .next t) :
    t = afterLoad f s := by
  have h : execXmem f s = .next t := h
  rw [execXmem, if_neg (by simp [hf])] at h
  exact (Host.Outcome.next.inj (guardReads_next h).2).symm

/-- A store that answers a next state is `afterStore`. -/
theorem exec_store_next {f : XmemFn} {s t : State} (hf : f.store = true) (h : exec (.xmem f) s = .next t) :
    t = afterStore f s := by
  have h : execXmem f s = .next t := h
  rw [execXmem, if_pos hf] at h
  exact (Host.Outcome.next.inj (guardStores_next h).2).symm

/-- A branch that answers a next state stayed or jumped. -/
theorem effect_branchIf {cond : Bool} {off : BranchImm} {s t : State} {i : Instr}
    (hi : ∃ off, i = .beqz off ∨ i = .bc off) (h : branchIf cond off s = .next t) : Effect s i t := by
  rcases branchIf_next h with ⟨_, rfl⟩ | ⟨_, pn, _, rfl⟩
  · exact .data t.acc t.rs0 t.ra0 t.ra1
  · exact .branch _ hi

/-- Every instruction that answers a next state has one of the effects. -/
theorem exec_effect {i : Instr} {s t : State} (h : exec i s = .next t) : Effect s i t := by
  cases i with
  | add o => cases h; exact .alu _ (.inr (.inr ⟨o, .inl rfl⟩))
  | sub o => cases h; exact .alu _ (.inr (.inr ⟨o, .inr rfl⟩))
  | inc => cases h; exact .alu _ (.inl rfl)
  | dec => cases h; exact .alu _ (.inr (.inl rfl))
  | cmp o => cases h; exact .compare o _
  | and o => cases h; exact .logical _ (.inr ⟨o, .inl rfl⟩)
  | or o => cases h; exact .logical _ (.inr ⟨o, .inr (.inl rfl)⟩)
  | xor o => cases h; exact .logical _ (.inr ⟨o, .inr (.inr rfl)⟩)
  | inv => cases h; exact .logical _ (.inl rfl)
  | shl => cases h; exact .shift _ _ (.inl rfl)
  | shr => cases h; exact .shift _ _ (.inr rfl)
  | btst idx => cases h; exact .btst idx _ _
  | tst o => cases h; exact .tst o _ _ fun hc => by by_contra hw; exact hc (if_neg hw)
  | beqz off => exact effect_branchIf ⟨off, .inl rfl⟩ h
  | bc off => exact effect_branchIf ⟨off, .inr rfl⟩ h
  | jal =>
    have h : execJal s = .next t := h
    unfold execJal at h
    split at h
    · cases h; exact .jal _
    · cases h
  | jmp => cases h; exact .jmp
  | cfg v => cases h; exact .cfg v
  | racc | rsa | sa | csrld idx | max | min | rrs | ss | ldi v | nop | madNop o => cases h; exact .data _ _ _ _
  | rss => cases h; exact .rss
  | xop => cases h; exact .xop
  | xmem f =>
    cases hf : f.store
    · rw [exec_load_next hf h, afterLoad_eq]
      exact .data _ _ _ _
    · rw [exec_store_next hf h]
      exact .store f hf
  | csrst idx => cases h; exact .csrst idx
  | reti => rw [(returnFromInterrupt_next h).2]; exact .reti
  | swi => cases h; exact .swi
  | wfi => cases h; exact .wfi
  | mad ctl => cases h; exact .mad ctl _ _
  | rsv o => cases h
  | csrAbsent x => cases h

/-! ### What a store may change -/

/-- A store changes memory, the record of stored bytes and an address register, nothing else (R222). -/
theorem xmemStore_eq (a : Word) (s : State) :
    xmemStore a s = { s with mem := (xmemStore a s).mem, modified := (xmemStore a s).modified } := by
  unfold xmemStore; split <;> rfl

theorem afterStore_eq (f : XmemFn) (s : State) :
    afterStore f s =
      { s with
        ra0 := (afterStore f s).ra0, ra1 := (afterStore f s).ra1
        mem := (afterStore f s).mem, modified := (afterStore f s).modified } := by
  rw [afterStore, xmemStore_eq, setXmemReg_eq]

/-! ### The obligations on what an instruction writes -/

/-- Settles O36: every effect but that of a store keeps memory and the record. -/
theorem onlyXmemStoresWriteMemory : Obligations.OnlyXmemStoresWriteMemory := by
  unfold Obligations.OnlyXmemStoresWriteMemory
  intro i s t h hload
  have hmem : t.mem = s.mem ∧ t.modified = s.modified := by
    cases exec_effect h with
    | store f hf => rw [hload f rfl] at hf; cases hf
    | csrst idx => rw [csrWrite_eq]; exact ⟨rfl, rfl⟩
    | _ => exact ⟨rfl, rfl⟩
  exact ⟨hmem.1, hmem.2, readByte_congr hmem.1⟩

/-- Settles O58: each effect that writes a flag is that of an instruction listed for it. -/
theorem onlyListedInstructionsWriteFlags : Obligations.OnlyListedInstructionsWriteFlags := by
  unfold Obligations.OnlyListedInstructionsWriteFlags
  intro i s t h
  have kept {a : Bool} {P : Prop} (hne : a ≠ a) : P := absurd rfl hne
  cases exec_effect h with
  | alu res hi => rcases hi with rfl | rfl | ⟨o, rfl | rfl⟩ <;> simp
  | compare o res => simp
  | logical r hi =>
    refine ⟨kept, ?_, ?_, kept⟩ <;> rcases hi with rfl | ⟨o, rfl | rfl | rfl⟩ <;> simp
  | shift x r hi => refine ⟨kept, ?_, ?_, ?_⟩ <;> rcases hi with rfl | rfl <;> simp
  | btst idx c z => exact ⟨kept, kept, by simp, by simp⟩
  | tst o r c hc => exact ⟨kept, by simp, by simp, fun hne => by simpa using hc hne⟩
  | mad ctl acc c => exact ⟨kept, kept, kept, by simp⟩
  | reti => simp
  | store f _ =>
    rw [afterStore_eq]
    exact ⟨kept, kept, kept, kept⟩
  | csrst idx => rw [csrWrite_eq]; exact ⟨kept, kept, kept, kept⟩
  | _ => exact ⟨kept, kept, kept, kept⟩

/-- Settles O59: each effect that writes `CFG`, `IA`, `IAR`, `RS1` or the fetch position is that of an
instruction listed for it. -/
theorem onlyListedInstructionsWriteControl : Obligations.OnlyListedInstructionsWriteControl := by
  unfold Obligations.OnlyListedInstructionsWriteControl
  intro i s t h
  have kept {α : Type} {a : α} {P : Prop} (hne : a ≠ a) : P := absurd rfl hne
  have stays {P : Prop} (hne : s.pc ≠ s.pc ∨ s.nib ≠ s.nib) : P := hne.elim kept kept
  cases exec_effect h with
  | branch target hi => exact ⟨kept, kept, kept, kept, fun _ => .inr (.inr (.inr hi))⟩
  | jal pn => exact ⟨kept, kept, kept, kept, fun _ => .inr (.inl rfl)⟩
  | jmp => exact ⟨kept, kept, kept, kept, fun _ => .inr (.inr (.inl rfl))⟩
  | reti => exact ⟨fun _ => .inl rfl, fun _ => .inl rfl, fun _ => rfl, kept, fun _ => .inl rfl⟩
  | rss => exact ⟨kept, kept, kept, fun _ => rfl, stays⟩
  | cfg v => exact ⟨fun _ => .inr (.inr ⟨v, rfl⟩), kept, kept, kept, stays⟩
  | csrst idx =>
    obtain ⟨hcfg, hia⟩ := csrWrite_cfg_ia idx s.acc s
    rw [csrWrite_eq]
    exact ⟨fun hne => .inr (.inl (congrArg _ (hcfg hne))), fun hne => .inr (congrArg _ (hia hne)), kept, kept, stays⟩
  | store f _ =>
    rw [afterStore_eq]
    exact ⟨kept, kept, kept, kept, stays⟩
  | _ => exact ⟨kept, kept, kept, kept, stays⟩

/-! ### The invariant (R27, R62, R80) -/

/-- From `s` to `t` the invariant and the parameters are kept. -/
def KeepsInv (s t : State) : Prop := t.params = s.params ∧ (StateInv s → StateInv t)

theorem KeepsInv.refl (s : State) : KeepsInv s s := ⟨rfl, id⟩

theorem KeepsInv.trans {s t u : State} (h₁ : KeepsInv s t) (h₂ : KeepsInv t u) : KeepsInv s u :=
  ⟨h₂.1.trans h₁.1, fun h => h₂.2 (h₁.2 h)⟩

/-- The invariant looks at the parameters, memory, the record, `XOPP` and `EVTCTRL`. -/
theorem KeepsInv.of_same {s t : State} (hp : t.params = s.params) (hm : t.mem = s.mem)
    (hr : t.modified = s.modified) (hx : t.xopp = s.xopp) (he : t.evtctrl = s.evtctrl) : KeepsInv s t :=
  ⟨hp, fun ⟨hmem, hrec, hpre, hevt⟩ =>
    ⟨by rw [hm, hmem], by rw [hr, hrec], by rw [hx, hpre], by rw [he, hp, hevt]⟩⟩

/-- A word cut to the bits that are present has no other bit (R62). -/
theorem and_mask_and_not_mask (w m : Word) : (w &&& m) &&& ~~~m = 0 := by
  rw [BitVec.and_assoc, BitVec.and_not_self]
  exact BitVec.and_zero

/-- A state that differs in `EVTCTRL` alone, cut to the bits that are present, has the invariant too. -/
theorem keepsInv_evtctrl (s : State) (w : Word) : KeepsInv s { s with evtctrl := w &&& evtMask s.params } :=
  ⟨rfl, fun ⟨hmem, hrec, hpre, _⟩ => ⟨hmem, hrec, hpre, and_mask_and_not_mask w _⟩⟩

theorem keepsInv_setEvtBit (i : Nat) (b : Bool) (s : State) : KeepsInv s (setEvtBit i b s) :=
  keepsInv_evtctrl s _

/-- A reset leaves the invariant, whatever it is reached from, as long as memory is canonical. -/
theorem keepsInv_coreReset (s : State) : KeepsInv s (coreReset s) :=
  ⟨rfl, fun ⟨hmem, _, _, _⟩ => ⟨hmem, rfl, rfl, by simp [coreReset, State.afterReset, resetEvtctrl]⟩⟩

theorem keepsInv_storeByte (s : State) (a : Word) (b : Byte) : KeepsInv s (storeByte s a b) :=
  ⟨rfl, fun ⟨hmem, hrec, hpre, hevt⟩ =>
    ⟨storeByte_mem_wf s a b hmem, storeByte_modified_rising s a b hrec, hpre, hevt⟩⟩

theorem keepsInv_storeBytes (s : State) (a : Word) (bs : List Byte) : KeepsInv s (storeBytes s a bs) := by
  induction bs generalizing s a with
  | nil => exact .refl s
  | cons b rest ih => exact (keepsInv_storeByte s a b).trans (ih _ _)

theorem keepsInv_xmemStore (a : Word) (s : State) : KeepsInv s (xmemStore a s) := by
  unfold xmemStore
  split
  · exact keepsInv_storeByte _ _ _
  · exact keepsInv_storeByte _ _ _
  · exact (keepsInv_storeByte _ _ _).trans (keepsInv_storeByte _ _ _)
  · exact (keepsInv_storeByte _ _ _).trans (keepsInv_storeByte _ _ _)

theorem keepsInv_setXmemReg (f : XmemFn) (a : Word) (s : State) : KeepsInv s (setXmemReg f a s) := by
  rw [setXmemReg_eq]
  exact .of_same rfl rfl rfl rfl rfl

/-- Every CSR that is written keeps the invariant; `EVTCTRL` is cut to the bits that are present (R62, R66). -/
theorem keepsInv_csrWrite (idx : BitVec 4) (w : Word) (s : State) : KeepsInv s (csrWrite idx w s) := by
  unfold csrWrite
  cases csrName idx with
  | evtctrl =>
    dsimp only
    split
    · exact keepsInv_evtctrl s _
    · exact .refl s
  | gpr1 | gpr2 | gpr3 | timer | timercmp | intaddr =>
    dsimp only
    split
    · exact .of_same rfl rfl rfl rfl rfl
    · exact .refl s
  | cpuid | corecfg | reserved => exact .of_same rfl rfl rfl rfl rfl

/-- Every instruction but the bare prefix keeps the invariant and the parameters. -/
theorem keepsInv_exec {i : Instr} {s t : State} (hi : i ≠ .xop) (h : exec i s = .next t) : KeepsInv s t := by
  cases exec_effect h with
  | xop => exact absurd rfl hi
  | store f _ => exact (keepsInv_xmemStore _ s).trans (keepsInv_setXmemReg _ _ _)
  | csrst idx => exact keepsInv_csrWrite idx _ s
  | swi => exact keepsInv_setEvtBit _ _ s
  | reti => exact (keepsInv_setEvtBit evtInIsr false s).trans (.of_same rfl rfl rfl rfl rfl)
  | _ => exact .of_same rfl rfl rfl rfl rfl

theorem keepsInv_advance (k : Nat) (s : State) : KeepsInv s (advance k s) :=
  ⟨rfl, fun ⟨hmem, hrec, _, hevt⟩ => ⟨hmem, hrec, rfl, hevt⟩⟩

theorem keepsInv_wakeIfDue (s : State) : KeepsInv s (wakeIfDue s) := by
  rw [wakeIfDue_eq]
  exact .of_same rfl rfl rfl rfl rfl

theorem keepsInv_pollEnv (s : State) : KeepsInv s (pollEnv s) := by
  cases he : (envInput s).ext
  · exact .of_same rfl rfl rfl rfl (by simp [he])
  · exact (keepsInv_setEvtBit evtExtP true s).trans (.of_same rfl rfl rfl rfl (by simp [he]))

theorem keepsInv_boundary (s : State) : KeepsInv s (boundary s) :=
  (keepsInv_pollEnv s).trans (keepsInv_wakeIfDue _)

theorem keepsInv_tick (s : State) : KeepsInv s (tick s).1 := by
  rcases tick_cases s with ⟨_, e⟩ | ⟨_, _, e⟩ | ⟨_, _, _, e⟩ | ⟨_, _, _, e⟩ <;> rw [e]
  · exact .refl s
  · exact .of_same rfl rfl rfl rfl rfl
  · exact .trans (t := { s with timer := s.timer + 1 }) (.of_same rfl rfl rfl rfl rfl) (keepsInv_setEvtBit _ _ _)
  · exact keepsInv_coreReset s

theorem keepsInv_tickTimes (k : Nat) (s : State) : KeepsInv s (tickTimes k s).1 := by
  induction k generalizing s with
  | zero => exact .refl s
  | succ k ih =>
    have htick := keepsInv_tick s
    unfold tickTimes
    split
    · rename_i s' e; rw [e] at htick; exact htick
    · rename_i s' e; rw [e] at htick; exact htick.trans (ih s')

theorem keepsInv_sleepTicks (k : Nat) (s : State) : KeepsInv s (sleepTicks k s) := by
  induction k generalizing s with
  | zero => exact .refl s
  | succ k ih =>
    have htick := keepsInv_tick s
    unfold sleepTicks
    split
    · rename_i s' e; rw [e] at htick; exact htick
    · rename_i s' e
      rw [e] at htick
      split
      · exact htick.trans (.of_same rfl rfl rfl rfl rfl)
      · exact htick.trans (ih s')

theorem keepsInv_retire (extra : Nat) (armed : Bool) (i : Instr) (s : State) :
    KeepsInv s (retire extra armed i s) := by
  have hticks := keepsInv_tickTimes (ticksAfter s.params extra i) s
  unfold retire
  split
  · rename_i s' e; rw [e] at hticks; exact hticks
  · rename_i s' e
    rw [e] at hticks
    refine hticks.trans (.trans ?_ (keepsInv_wakeIfDue _))
    cases armed
    · exact .refl s'
    · exact keepsInv_setEvtBit evtSwP true s'

/-- Entering the ISR leaves no prefix pending and cuts `EVTCTRL` to the bits that are present. -/
theorem keepsInv_enterIsr (s : State) : KeepsInv s (enterIsr s) :=
  ⟨rfl, fun ⟨hmem, hrec, _, _⟩ => ⟨hmem, hrec, rfl, and_mask_and_not_mask _ _⟩⟩

/-- Settles O57: the boundary keeps the invariant, and so does each of the three things a step can be after it. -/
theorem stepKeepsInvariant : Obligations.StepKeepsInvariant := by
  unfold Obligations.StepKeepsInvariant
  intro s t hinv h
  have hb := keepsInv_boundary s
  have keeps : KeepsInv s t := by
    rcases step_cases h with ⟨_, hentry⟩ | ⟨_, _, rfl⟩ | ⟨_, i, len, u, hfetch, hexec, rfl⟩
    · obtain ⟨_, pn, _, _, rfl⟩ := takeInterrupt_next hentry
      exact hb.trans ((keepsInv_storeBytes _ _ _).trans (keepsInv_enterIsr _))
    · exact hb.trans (keepsInv_sleepTicks _ _)
    · have hu := keepsInv_exec (fetchInstr_ne_xop hfetch) hexec
      exact hb.trans ((keepsInv_advance len _).trans (hu.trans (keepsInv_retire _ _ _ _)))
  exact ⟨keeps.2 hinv, keeps.1⟩

/-- Settles O56: the state of a reset has every clause by evaluation. -/
theorem resetHasInvariant : Obligations.ResetHasInvariant := by
  unfold Obligations.ResetHasInvariant
  exact ⟨reset_mem_wf, rfl, rfl, rfl⟩

/-- Settles O55: the fields of `State.afterReset`, for all parameters; the boundary keeps `CFG`. -/
theorem resetConfiguration : Obligations.ResetConfiguration := by
  unfold Obligations.ResetConfiguration
  refine ⟨rfl, rfl, rfl, rfl, rfl, rfl, rfl, boundary_cfg _, rfl, rfl, rfl, rfl, rfl, rfl, ?_⟩
  exact fun p m env k => ⟨_, rfl, rfl, rfl, rfl, rfl, rfl, rfl, rfl, rfl⟩

/-! ### Where a step stops (R14, R300) -/

/-- With all memory RAM every address is readable and writable. -/
theorem readRefusal_of_all_ram {s : State} (h : s.params.memoryMap = []) (a : Word) : readRefusal s a = none := by
  rw [readRefusal, h, backingAt]

theorem writable_of_all_ram {s : State} (h : s.params.memoryMap = []) (as : List Word) : Writable s as :=
  fun a _ => by rw [storeRefusal, h, backingAt]

theorem readable_of_all_ram {s : State} (h : s.params.memoryMap = []) (as : List Word) : Readable s as :=
  fun a _ => readRefusal_of_all_ram h a

/-- Where every nibble can be fetched, so can every run of nibbles. -/
theorem exists_fetchNibbles {s : State} (h : ∀ k, ∃ n, fetchNibble s k = .ok n) (k count : Nat) :
    ∃ l, fetchNibbles s k count = .ok l := by
  induction count generalizing k with
  | zero => exact ⟨[], rfl⟩
  | succ count ih =>
    obtain ⟨n, hn⟩ := h k
    obtain ⟨l, hl⟩ := ih (k + 1)
    exact ⟨n :: l, by rw [fetchNibbles, hn, hl]⟩

/-- Where every nibble can be fetched, an instruction is. -/
theorem exists_fetchInstr {s : State} (h : ∀ k, ∃ n, fetchNibble s k = .ok n) :
    ∃ i len, fetchInstr s = .ok (i, len) := by
  have hentry (k : Nat) (e : Entry) : ∃ i len, fetchEntry s k e = .ok (i, len) := by
    obtain ⟨l, hl⟩ := exists_fetchNibbles h k (immCount s.params s.cfg e)
    exact ⟨_, _, by rw [fetchEntry, hl]⟩
  obtain ⟨n0, h0⟩ := h 0
  obtain ⟨n1, h1⟩ := h 1
  by_cases hpre : s.xopp = false ∧ n0 = xopNibble
  · obtain ⟨hx, rfl⟩ := hpre
    rw [fetchInstr_extended hx h0 h1]
    exact hentry _ _
  · rw [fetchInstr_opcode hpre h0]
    exact hentry _ _

/-- With all memory RAM and a `PC_next` in every position, every instruction but the reserved ones answers a next
state. -/
theorem exec_next_or_reserved {s : State} (hram : s.params.memoryMap = []) {pn : Word} (hpn : pcNext s = some pn)
    (i : Instr) : (∃ t, exec i s = .next t) ∨ (∃ o, i = .rsv o) ∨ ∃ x, i = .csrAbsent x := by
  have hbranch (cond : Bool) (off : BranchImm) : ∃ t, branchIf cond off s = .next t := by
    cases cond
    · exact ⟨s, rfl⟩
    · exact ⟨jumpTo (pn + branchOffset s off) s, by rw [branchIf, if_pos rfl, hpn]⟩
  cases i with
  | rsv o => exact .inr (.inl ⟨o, rfl⟩)
  | csrAbsent x => exact .inr (.inr ⟨x, rfl⟩)
  | beqz off => exact .inl (hbranch s.z off)
  | bc off => exact .inl (hbranch s.c off)
  | jal => exact .inl ⟨jumpTo s.ra0 { s with ra1 := pn }, by rw [exec, execJal, hpn]⟩
  | reti => exact .inl ⟨_, guardReads_of_readable _ (readable_of_all_ram hram _)⟩
  | xmem f =>
    cases hf : f.store
    · exact .inl ⟨_, exec_xmem_load hf (readable_of_all_ram hram _)⟩
    · exact .inl ⟨_, (if_pos hf).trans (guardStores_of_writable _ (writable_of_all_ram hram _))⟩
  | _ => exact .inl ⟨_, rfl⟩

/-- Settles O60: entry and sleep answer a next state, the fetch does not stop, and of what is fetched only the
reserved encodings do; the second kind is well-formed only without the CSR instructions. -/
theorem onlyReservedEncodingsStop : Obligations.OnlyReservedEncodingsStop := by
  unfold Obligations.OnlyReservedEncodingsStop
  intro s hram hsees hround hint
  have hram' : (boundary s).params.memoryMap = [] := by rw [boundary_params, hram]
  have hround' : (boundary s).params.pcNextMidByte = .roundUp := by rw [boundary_params, hround]
  rw [step, stepOnce]
  split
  · refine .inl ⟨_, takeInterrupt_eq (fun _ => ?_) (pcNext_eq _ fun _ => hround') (writable_of_all_ram hram' _)⟩
    rwa [boundary_params]
  · split
    · exact .inl ⟨_, rfl⟩
    · obtain ⟨i, len, hfetch⟩ := exists_fetchInstr (s := boundary s) fun k =>
        ⟨_, fetchNibble_eq_ok (readRefusal_of_all_ram hram' _) (.inr (by rw [boundary_params, hsees]))⟩
      have hpn := pcNext_eq (advance len (boundary s)) fun _ => hround'
      rcases exec_next_or_reserved (s := advance len (boundary s)) hram' hpn i with ⟨u, hu⟩ | ⟨o, rfl⟩ | ⟨x, rfl⟩
      · exact .inl ⟨_, runInstr_of_next hfetch hu⟩
      · exact .inr (.inl ⟨_, _, _, by rw [runInstr, hfetch]; rfl⟩)
      · have hwf := fetchInstr_wf hfetch
        simp only [Instr.wf, boundary_params, Bool.and_eq_true, Bool.not_eq_true'] at hwf
        exact .inr (.inr ⟨_, _, by rw [runInstr, hfetch]; rfl, hwf.2⟩)

end Sys2Proof.Machine

/-! PROOFS. The arithmetic instructions and `SHR`, `BTST`, the rotations and `LDi` (R150 to R154, R181, R184,
R203, R204, R209): what `AddW` and `SubW` leave when they are written, and the obligations assembled from that. -/

namespace Sys2Proof.Machine

/-! ### Encodings (R150 to R153, R181) -/

/-- `ADD` is the nibble `0001` (R150). -/
theorem encodedWithOp2_add : EncodedWithOp2 [0x1] .add :=
  encodedWithOp2_of_entry .add (fun p cfg rest => decode_default p cfg 0x1 rest (by decide))
    (fun _ _ => rfl) (fun _ _ _ => rfl)

/-- `SUB` is the nibbles `1000 0001` (R151). -/
theorem encodedWithOp2_sub : EncodedWithOp2 [0x8, 0x1] .sub :=
  encodedWithOp2_of_entry .sub (fun p cfg rest => decode_extended p cfg 0x1 rest)
    (fun _ _ => rfl) (fun _ _ _ => rfl)

/-- `INC` is the nibble `1001` (R152). -/
theorem decode_inc (p : Params) (cfg : Byte) (rest : List Nibble) :
    decode p cfg false (0x9 :: rest) = .ok (.inc, rest) :=
  decode_default_of_immCount_zero (by decide) rfl rest

/-- `DEC` is the nibbles `1000 1001` (R153). -/
theorem decode_dec (p : Params) (cfg : Byte) (rest : List Nibble) :
    decode p cfg false (0x8 :: 0x9 :: rest) = .ok (.dec, rest) :=
  decode_extended_of_immCount_zero rfl rest

/-- `SHR` is the nibbles `1000 0011` (R181). -/
theorem decode_shr (p : Params) (cfg : Byte) (rest : List Nibble) :
    decode p cfg false (0x8 :: 0x3 :: rest) = .ok (.shr, rest) :=
  decode_extended_of_immCount_zero rfl rest

/-! ### What `AddW` and `SubW` compute of the active accumulator (R12, R13) -/

/-- The active accumulator as the number that statements are about (R9). -/
theorem toNat_active_eq_accNat (s : State) : s.active.toNat = accNat s := toNat_active s

/-- The active accumulator is a `Wd`-bit number. -/
theorem toNat_active_lt (s : State) : s.active.toNat < 2 ^ s.width := by
  rw [toNat_active_eq_accNat]
  exact accNat_lt s

/-- The signed reading of the active accumulator (R10). -/
theorem signedValue_active (s : State) : signedValue s.width s.active = sintOf s.width (accNat s) := by
  rw [signedValue_eq _ _ (width_pos s) (toNat_active_lt s), toNat_active_eq_accNat]

/-- The operand of `INC` and `DEC` as a number (R152, R153). -/
theorem toNat_one : (1 : Word).toNat = 1 := rfl

/-- 1 is a number of every active width. -/
theorem one_lt_two_pow_width (s : State) : (1 : Word).toNat < 2 ^ s.width :=
  Nat.one_lt_two_pow (width_pos s).ne'

/-- 1 reads as 1 in two's complement at every active width. -/
theorem sintOf_one (s : State) : sintOf s.width 1 = 1 := by
  rcases width_cases s with h | h | h <;> rw [h] <;> rfl

/-- `AddW` of the active accumulator and a `Wd`-bit `b`: result, carry and overflow as numbers (R12). -/
theorem addW_active (s : State) (b : Word) (cin : Bool) (hb : b.toNat < 2 ^ s.width) :
    (addW s.width s.active b cin).r.toNat = (accNat s + b.toNat + cin.toNat) % 2 ^ s.width ∧
    (addW s.width s.active b cin).c = decide (2 ^ s.width ≤ accNat s + b.toNat + cin.toNat) ∧
    ((addW s.width s.active b cin).v = true ↔
      OutOfRange s (sintOf s.width (accNat s) + sintOf s.width b.toNat + cin.toNat)) := by
  refine ⟨?_, ?_, ?_⟩
  · rw [toNat_addW_r _ _ _ _ (width_le s), toNat_active_eq_accNat]
  · simp only [addW, toNat_active_eq_accNat]
  · rw [← signedValue_active, ← signedValue_eq s.width b (width_pos s) hb]
    exact signedOverflow_iff s _

/-- `SubW` of the active accumulator and a `Wd`-bit `b`: result, borrow and overflow as numbers (R13). -/
theorem subW_active (s : State) (b : Word) (bin : Bool) (hb : b.toNat < 2 ^ s.width) :
    ((subW s.width s.active b bin).r.toNat : Int) = ((accNat s : Int) - b.toNat - bin.toNat) % 2 ^ s.width ∧
    (subW s.width s.active b bin).c = decide (accNat s < b.toNat + bin.toNat) ∧
    ((subW s.width s.active b bin).v = true ↔
      OutOfRange s (sintOf s.width (accNat s) - sintOf s.width b.toNat - bin.toNat)) := by
  refine ⟨?_, ?_, ?_⟩
  · rw [toNat_subW_r _ _ _ _ (width_le s), toNat_active_eq_accNat]
  · simp only [subW, toNat_active_eq_accNat]
    exact decide_eq_decide.mpr (by omega)
  · rw [← signedValue_active, ← signedValue_eq s.width b (width_pos s) hb]
    exact signedOverflow_iff s _

/-- The result of `SubW` is a `Wd`-bit number. -/
theorem subW_r_lt (s : State) (b : Word) (bin : Bool) (hb : b.toNat < 2 ^ s.width) :
    (subW s.width s.active b bin).r.toNat < 2 ^ s.width := by
  have hpos : (0 : Int) < 2 ^ s.width := by positivity
  have hlt := Int.emod_lt_of_pos ((accNat s : Int) - b.toNat - bin.toNat) hpos
  rw [← (subW_active s b bin hb).1] at hlt
  exact_mod_cast hlt

/-- Writing the ALU result `k`: the active accumulator, the four flags, nothing else (R21, R33, R150). -/
theorem writeAlu_result (s : State) (res : AluResult) (k : Nat) (h : res.r.toNat = k % 2 ^ s.width) :
    AccBecomes s (writeAlu res s) k ∧ ZNOf s (writeAlu res s) k ∧
      writeAlu res s = { s with
        acc := (writeAlu res s).acc, c := (writeAlu res s).c, v := (writeAlu res s).v,
        z := (writeAlu res s).z, n := (writeAlu res s).n } ∧
      SameMemory s (writeAlu res s) := by
  have hacc : AccBecomes s (setActive res.r s) k := accBecomes_setActive s res.r k (by rw [h, Nat.mod_mod])
  exact ⟨AccBecomes.congr hacc rfl, znOf_setZN s _ res.r k h, rfl, readByte_congr rfl⟩

/-- The number that `SubW` leaves, where it is 0 it came from a borrow-free difference of 0 modulo `2^Wd`. -/
theorem zeroOf_subW (s : State) (b : Word) (bin : Bool) (hb : b.toNat < 2 ^ s.width) :
    zeroOf (subW s.width s.active b bin).r =
      decide (((accNat s : Int) - b.toNat - bin.toNat) % 2 ^ s.width = 0) := by
  rw [zeroOf_eq, ← (subW_active s b bin hb).1]
  exact decide_eq_decide.mpr (by omega)

/-- The number before `a` modulo `m`: all ones where `a` is 0 (R153). -/
theorem eq_of_eq_pred_emod {a r m : Nat} (ha : a < m) (h : (r : Int) = ((a : Int) - 1) % (m : Int)) :
    r = if a = 0 then m - 1 else a - 1 := by
  rcases Nat.eq_zero_or_pos a with h0 | h0
  · rw [h0, Int.emod_eq_add_self_emod, Int.emod_eq_of_lt (by omega) (by omega)] at h
    rw [if_pos h0]
    omega
  · rw [Int.emod_eq_of_lt (by omega) (by omega)] at h
    rw [if_neg h0.ne']
    omega

/-! ### What the instructions do -/

theorem exec_add (op2 : Operand) (s : State) :
    exec (.add op2) s = .next (writeAlu (addW s.width s.active (op2Value s op2) (carryIn s)) s) := rfl

theorem exec_sub (op2 : Operand) (s : State) :
    exec (.sub op2) s = .next (writeAlu (subW s.width s.active (op2Value s op2) (carryIn s)) s) := rfl

theorem exec_inc (s : State) : exec .inc s = .next (writeAlu (addW s.width s.active 1 false) s) := rfl

theorem exec_dec (s : State) : exec .dec s = .next (writeAlu (subW s.width s.active 1 false) s) := rfl

theorem exec_cmp (op2 : Operand) (s : State) :
    exec (.cmp op2) s = .next (setCVZN s.width (subW s.width s.active (op2Value s op2) (carryIn s)) s) := rfl

theorem exec_shr (s : State) : exec .shr s = .next (writeShift (s.active.getLsbD 0) (s.active >>> 1) s) := rfl

theorem exec_btst (idx : BitIndex) (s : State) :
    exec (.btst idx) s =
      .next { s with c := s.acc.getLsbD (bitIndex s idx), z := !s.acc.getLsbD (bitIndex s idx) } := rfl

theorem exec_racc (s : State) : exec .racc s = .next { s with acc := rotateReg s s.acc } := rfl

theorem exec_rrs (s : State) : exec .rrs s = .next { s with rs0 := rotateReg s s.rs0 } := rfl

theorem exec_ldi (v : Imm) (s : State) : exec (.ldi v) s = .next (setActive (immWord v) s) := rfl

/-- `OP2` is a `Wd`-bit word. -/
theorem toNat_op2Value_lt (s : State) (op2 : Operand) : (op2Value s op2).toNat < 2 ^ s.width := by
  rw [toNat_op2Value]
  exact op2Nat_lt s op2

/-! ### The arithmetic obligations -/

/-- Settles O10: `ADD` writes `AddW` of the active accumulator, `OP2` and the carry-in. -/
theorem addResult : Obligations.AddResult := by
  unfold Obligations.AddResult
  refine ⟨encodedWithOp2_add, fun op2 s => ⟨_, exec_add op2 s, ?_⟩⟩
  obtain ⟨hr, hc, hv⟩ := addW_active s (op2Value s op2) (carryIn s) (toNat_op2Value_lt s op2)
  rw [toNat_op2Value, toNat_carryIn] at hr hc hv
  obtain ⟨hacc, hzn, hframe, hmem⟩ := writeAlu_result s _ _ hr
  exact ⟨hacc, hc, hv, hzn, hframe, hmem⟩

/-- Settles O11: `SUB` writes `SubW` of the active accumulator, `OP2` and the borrow-in. -/
theorem subResult : Obligations.SubResult := by
  unfold Obligations.SubResult
  refine ⟨encodedWithOp2_sub, fun op2 s => ?_⟩
  have hlt := toNat_op2Value_lt s op2
  obtain ⟨hr, hc, hv⟩ := subW_active s (op2Value s op2) (carryIn s) hlt
  rw [toNat_op2Value, toNat_carryIn] at hr hc hv
  obtain ⟨hacc, hzn, hframe, hmem⟩ :=
    writeAlu_result s _ _ (Nat.mod_eq_of_lt (subW_r_lt s (op2Value s op2) (carryIn s) hlt)).symm
  exact ⟨_, _, exec_sub op2 s, hr, hacc, hc, hv, hzn, hframe, hmem⟩

/-- Settles O12: `INC` writes `AddW` of the active accumulator and 1, without carry-in. -/
theorem incResult : Obligations.IncResult := by
  unfold Obligations.IncResult
  refine ⟨decode_inc, fun s => ⟨_, exec_inc s, ?_⟩⟩
  obtain ⟨hr, hc, hv⟩ := addW_active s 1 false (one_lt_two_pow_width s)
  simp only [toNat_one, Bool.toNat_false, Nat.cast_zero, add_zero, sintOf_one] at hr hc hv
  obtain ⟨hacc, hzn, hframe, hmem⟩ := writeAlu_result s _ _ hr
  exact ⟨hacc, hc, hv, hzn, hframe, hmem⟩

/-- Settles O13: `DEC` writes `SubW` of the active accumulator and 1, without borrow-in; of 0 that is all ones. -/
theorem decResult : Obligations.DecResult := by
  unfold Obligations.DecResult
  refine ⟨decode_dec, fun s => ?_⟩
  have hone := one_lt_two_pow_width s
  obtain ⟨hr, hc, hv⟩ := subW_active s 1 false hone
  have hlt := subW_r_lt s 1 false hone
  simp only [toNat_one, Bool.toNat_false, Nat.cast_zero, add_zero, sub_zero, Nat.cast_one, sintOf_one] at hr hc hv
  obtain ⟨hacc, hzn, hframe, hmem⟩ := writeAlu_result s _ _ (Nat.mod_eq_of_lt hlt).symm
  refine ⟨_, _, exec_dec s, ?_, hacc, ?_, hv, hzn, hframe, hmem⟩
  · exact eq_of_eq_pred_emod (accNat_lt s) (by exact_mod_cast hr)
  · exact hc.trans (decide_eq_decide.mpr (by omega))

/-- Settles O14: `CMP` takes all four flags from the `SubW` that `SUB` writes. -/
theorem cmpHasFlagsOfSub : Obligations.CmpHasFlagsOfSub := by
  unfold Obligations.CmpHasFlagsOfSub
  intro op2 s
  have hlt := toNat_op2Value_lt s op2
  obtain ⟨_, hc, _⟩ := subW_active s (op2Value s op2) (carryIn s) hlt
  have hz := zeroOf_subW s (op2Value s op2) (carryIn s) hlt
  rw [toNat_op2Value, toNat_carryIn] at hc hz
  exact ⟨_, _, exec_cmp op2 s, exec_sub op2 s, rfl, hc, hz, readByte_congr rfl⟩

/-! ### The bit and register obligations -/

/-- Settles O18: the shifted active bits are half the active accumulator, whose top bit is 0 and which the
expelled bit is the remainder of. -/
theorem shrResult : Obligations.ShrResult := by
  unfold Obligations.ShrResult
  refine ⟨decode_shr, fun s => ⟨_, exec_shr s, ?_⟩⟩
  have hlt := accNat_lt s
  have hhalf : (s.active >>> 1).toNat = accNat s / 2 % 2 ^ s.width := by
    rw [BitVec.toNat_ushiftRight, toNat_active_eq_accNat, Nat.shiftRight_one, Nat.mod_eq_of_lt (by omega)]
  obtain ⟨hacc, hzn, hc, hframe, hmem⟩ := writeShift_result s (s.active.getLsbD 0) _ _ hhalf
  refine ⟨hacc, hzn, ?_, ?_, hframe, hmem⟩
  · rw [hzn.2]
    apply Nat.testBit_lt_two_pow
    have hpow : 2 ^ s.width = 2 * 2 ^ (s.width - 1) := by
      rw [← pow_succ', Nat.sub_add_cancel (width_pos s)]
    omega
  · rw [hc, getLsbD_active, Nat.testBit_zero]

/-- Settles O19: the index is below 16, so the bit is one of `ACC`. -/
theorem btstResult : Obligations.BtstResult := by
  unfold Obligations.BtstResult
  intro idx s
  refine ⟨_, bitIndex s idx, exec_btst idx s, ?_, ?_, ?_, rfl, readByte_congr rfl⟩
  · rintro rfl
    simp [bitIndex]
  · rintro v rfl
    rfl
  · cases idx <;> exact BitVec.isLt _

/-- Rotating right by the active width, bit by bit (R203). -/
theorem getLsbD_rotRight (w k : Nat) (v : Word) (hw : w ≤ 16) (hk : k < 16) :
    (rotRight w v).getLsbD k = v.getLsbD ((k + w) % 16) := by
  simp only [rotRight, BitVec.getLsbD_or, BitVec.getLsbD_ushiftRight, BitVec.getLsbD_shiftLeft]
  by_cases h : k + w < 16
  · have hlow : k < 16 - w := by omega
    simp [Nat.mod_eq_of_lt h, hlow, Nat.add_comm w k]
  · have hhigh : ¬ k < 16 - w := by omega
    have hmod : (k + w) % 16 = k - (16 - w) := by omega
    rw [hmod, BitVec.getLsbD_of_ge v (w + k) (by omega)]
    simp [hhigh, hk]

/-- Rotating left is rotating right by the other bits (R203). -/
theorem rotLeft_eq (w : Nat) (v : Word) (hw : w ≤ 16) : rotLeft w v = rotRight (16 - w) v := by
  rw [rotLeft, rotRight, BitVec.or_comm, Nat.sub_sub_self hw]

/-- The register rotated in the direction `ROT_DIR`, bit by bit (R203). -/
theorem getLsbD_rotateReg (s : State) (v : Word) (k : Nat) (hk : k < 16) :
    (rotateReg s v).getLsbD k =
      v.getLsbD ((k + (if s.params.rotDir = .right then s.width else 16 - s.width)) % 16) := by
  have hw := width_le s
  unfold rotateReg
  cases s.params.rotDir
  · exact getLsbD_rotRight _ _ _ hw hk
  · rw [rotLeft_eq _ _ hw]
    exact getLsbD_rotRight _ _ _ (Nat.sub_le _ _) hk

/-- Settles O26: both instructions write `rotateReg` of their register and nothing else. -/
theorem rotatesByActiveWidth : Obligations.RotatesByActiveWidth := by
  unfold Obligations.RotatesByActiveWidth
  exact fun s => ⟨_, _, exec_racc s, exec_rrs s, getLsbD_rotateReg s s.acc, getLsbD_rotateReg s s.rs0, rfl, rfl,
    readByte_congr rfl, readByte_congr rfl⟩

/-- An immediate has the same number as a word and in the stream (R117). -/
theorem toNat_immWord (v : Imm) : (immWord v).toNat = immNat v := by
  cases v with
  | w4 v => simp only [immWord, immNat, BitVec.toNat_setWidth]; omega
  | w8 v => simp only [immWord, immNat, BitVec.toNat_setWidth]; omega
  | w16 v => rfl

/-- Settles O29: `LDi` is `setActive` of the immediate. -/
theorem ldiResult : Obligations.LdiResult := by
  unfold Obligations.LdiResult
  exact fun v s => ⟨_, exec_ldi v s, accBecomes_setActive s _ _ (by rw [toNat_immWord]), rfl, readByte_congr rfl⟩

theorem exec_nop (s : State) : exec .nop s = .next s := rfl

theorem exec_madNop (o : ProfileOpcode) (s : State) : exec (.madNop o) s = .next s := rfl

/-- Settles O30: the nibble `0000` is a whole instruction of the Default column; the three meanings are direct. -/
theorem nopsAndPrefix : Obligations.NopsAndPrefix := by
  unfold Obligations.NopsAndPrefix
  exact ⟨fun p cfg rest => decode_default_of_immCount_zero (by decide) rfl rest,
    fun s o => ⟨exec_nop s, exec_madNop o s, exec_xop s⟩⟩

end Sys2Proof.Machine

/-! PROOFS. Branches and `JAL` (R190 to R193), stores, the stores and the addressing of `XMEM` (R82, R83, R220 to
R223), and the accesses that `MEMORY_MAP` does not back (R83, R314), with the obligations on them. -/

namespace Sys2Proof.Machine

/-! ### Branches (R42, R43, R190) -/

/-- The sign-extended branch immediate modulo 2^16 (R190). -/
theorem toNat_branchImm (off : BranchImm) : ((branchImm off).toNat : Int) = branchInt off % 65536 := by
  have hext {n : Nat} (v : BitVec n) : ((v.signExtend 16).toNat : Int) = v.toInt % 65536 := by
    rw [BitVec.signExtend, BitVec.toNat_ofInt]
    exact Int.toNat_of_nonneg (Int.emod_nonneg _ (by decide))
  cases off <;> exact hext _

/-- The branch offset modulo 2^16: the immediate, times 4 while `CFG.BRS = 1` (R43). -/
theorem toNat_branchOffset (s : State) (off : BranchImm) :
    ((branchOffset s off).toNat : Int) = branchInt off * (if s.cfg.getLsbD 5 then 4 else 1) % 65536 := by
  have himm := toNat_branchImm off
  unfold branchOffset cfgBRS
  cases s.cfg.getLsbD 5
  · simpa using himm
  · rw [if_pos rfl, if_pos rfl, BitVec.toNat_shiftLeft, Nat.shiftLeft_eq]
    omega

/-- The target of a taken branch, as a number (R24, R190). -/
theorem toNat_branchTarget (s : State) (off : BranchImm) :
    ((s.pc + BitVec.ofNat 16 s.nib.toNat + branchOffset s off).toNat : Int) =
      ((s.pc.toNat : Int) + s.nib.toNat + branchInt off * (if s.cfg.getLsbD 5 then 4 else 1)) % 65536 := by
  have hoff := toNat_branchOffset s off
  have hnib : s.nib.toNat ≤ 1 := Bool.toNat_le s.nib
  rw [BitVec.toNat_add, BitVec.toNat_add, BitVec.toNat_ofNat]
  omega

theorem exec_beqz (off : BranchImm) (s : State) : exec (.beqz off) s = branchIf s.z off s := rfl

theorem exec_bc (off : BranchImm) (s : State) : exec (.bc off) s = branchIf s.c off s := rfl

/-- A branch whose condition does not hold changes nothing (R190). -/
theorem branchIf_untaken {cond : Bool} (h : cond = false) (off : BranchImm) (s : State) :
    branchIf cond off s = .next s := by rw [h]; rfl

/-- A branch whose condition holds jumps, where `PC_next` has a value (R190). -/
theorem branchIf_taken {cond : Bool} (h : cond = true) (off : BranchImm) {s : State} {pn : Word}
    (hp : pcNext s = some pn) : branchIf cond off s = .next (jumpTo (pn + branchOffset s off) s) := by
  rw [branchIf, if_pos h, hp]

/-- In the middle of a byte `PC_next` has no value where `PCNEXT_MIDBYTE = fault` (R24). -/
theorem pcNext_eq_none {s : State} (hn : s.nib = true) (hf : s.params.pcNextMidByte = .fault) :
    pcNext s = none := by rw [pcNext, if_pos hn, hf]

/-- A branch whose condition holds is the model-fault where `PC_next` has no value (R24). -/
theorem branchIf_fault {cond : Bool} (h : cond = true) (off : BranchImm) {s : State} (hp : pcNext s = none) :
    branchIf cond off s = .fault (.midBytePcNext s.pc) := by rw [branchIf, if_pos h, hp]

/-- Settles O21: not taken nothing changes, taken it is a jump from `PC_next` by the offset. -/
theorem branchResult : Obligations.BranchResult := by
  unfold Obligations.BranchResult
  refine fun off s => ⟨fun h => branchIf_untaken h off s, fun h => branchIf_untaken h off s, fun hround => ?_⟩
  have hpn := pcNext_eq s hround
  exact ⟨_, fun h => branchIf_taken h off hpn, fun h => branchIf_taken h off hpn, toNat_branchTarget s off, rfl,
    readByte_congr rfl⟩

/-- Settles O22: `PC_next` has no value there, and interrupt entry tests its own parameter first. -/
theorem midBytePcNextStops : Obligations.MidBytePcNextStops := by
  unfold Obligations.MidBytePcNextStops
  refine fun off s hn => ⟨fun hf => ?_, fun hf => ?_⟩
  · have hp := pcNext_eq_none hn hf
    exact ⟨by rw [exec, execJal, hp], fun h => branchIf_fault h off hp, fun h => branchIf_fault h off hp⟩
  · rw [takeInterrupt, if_pos (by simp [hn, hf])]

/-- Settles O23: `JAL` links `PC_next`, which has a value here. -/
theorem jalLinksAndJumps : Obligations.JalLinksAndJumps := by
  unfold Obligations.JalLinksAndJumps
  intro s hround
  rw [exec, execJal, pcNext_eq s hround]
  rfl

/-! ### Stores (R82, R83) -/

/-- Settles O31: the laws of `storeByte` over a canonical memory. -/
theorem storedByteReadsBack : Obligations.StoredByteReadsBack := by
  unfold Obligations.StoredByteReadsBack
  refine fun s a b h => ⟨?_, fun k hk => ?_, storeByte_mem_wf s a b h⟩
  · rw [readByte_storeByte s a a b h, if_pos rfl]
  · rw [readByte_storeByte s a k b h, if_neg (by simpa using hk)]

/-! ### The stores of `XMEM` (R222) -/

/-- The bytes that a store at `a` writes from `a` on, in each mode (R222). -/
def storedBytes (a : Word) (s : State) : List Byte :=
  match s.mode with
  | .ul => [nibbleStored (readByte s a) s.acc]
  | .lk8 => [loByte s.acc]
  | .lk16 => [loByte s.acc, hiByte s.acc]
  | .spe => [loByte s.acc, hiByte s.acc]

/-- A store writes its bytes in ascending order. -/
theorem xmemStore_eq_storeBytes (a : Word) (s : State) : xmemStore a s = storeBytes s a (storedBytes a s) := by
  unfold xmemStore storedBytes
  cases s.mode <;> rfl

/-- A store writes as many bytes as the mode accesses (R89). -/
theorem length_storedBytes (a : Word) (s : State) : (storedBytes a s).length = xmemBytes s := by
  unfold storedBytes xmemBytes
  cases s.mode <;> rfl

theorem length_storedBytes_le (a : Word) (s : State) : (storedBytes a s).length ≤ 65536 := by
  rw [length_storedBytes]
  unfold xmemBytes
  split <;> decide

/-- The byte stored in UL has the low nibble of `ACC` and keeps the high nibble of memory (R222). -/
theorem nibbleStored_eq (old : Byte) (acc : Word) :
    nibbleStored old acc = old.extractLsb' 4 4 ++ acc.extractLsb' 0 4 := by
  apply BitVec.eq_of_getLsbD_eq
  intro k hk
  rw [BitVec.getLsbD_append]
  interval_cases k <;> simp [nibbleStored, loByte]

theorem exec_xmem_store {f : XmemFn} {s : State} (hstore : f.store = true) (hw : Writable s (xmemAddrs f s)) :
    exec (.xmem f) s = .next (afterStore f s) :=
  calc exec (.xmem f) s
      = guardStores s (xmemAddrs f s) (.next (afterStore f s)) := if_pos hstore
    _ = .next (afterStore f s) := guardStores_of_writable _ hw

theorem afterStore_mem (f : XmemFn) (s : State) :
    (afterStore f s).mem = (storeBytes s (xmemAddr f s) (storedBytes (xmemAddr f s) s)).mem := by
  rw [afterStore, setXmemReg_mem, xmemStore_eq_storeBytes]

theorem afterStore_modified (f : XmemFn) (s : State) :
    (afterStore f s).modified = (storeBytes s (xmemAddr f s) (storedBytes (xmemAddr f s) s)).modified := by
  rw [afterStore, setXmemReg_eq, xmemStore_eq_storeBytes]

/-- The `j`-th byte stored reads back at the `j`-th address. -/
theorem readByte_afterStore (f : XmemFn) {s : State} (h : s.mem.wf = true) (j : Nat)
    (hj : j < (storedBytes (xmemAddr f s) s).length) :
    readByte (afterStore f s) (xmemAddr f s + BitVec.ofNat 16 j) = (storedBytes (xmemAddr f s) s)[j] := by
  rw [readByte_congr (afterStore_mem f s)]
  exact readByte_storeBytes s _ _ j hj h (length_storedBytes_le _ _)

/-- The address register that `AR` does not select is kept. -/
theorem afterStore_other_reg (f : XmemFn) (s : State) :
    (f.ra1 = true → (afterStore f s).ra0 = s.ra0) ∧ (f.ra1 = false → (afterStore f s).ra1 = s.ra1) :=
  ⟨fun h => by rw [afterStore, setXmemReg_ra0_of_ra1 h, xmemStore_eq],
   fun h => by rw [afterStore, setXmemReg_ra1_of_ra0 h, xmemStore_eq]⟩

/-- Settles O33: a store that is not refused is `afterStore`, which stores the bytes of the mode in ascending
order and then writes the address register. -/
theorem xmemStoreResult : Obligations.XmemStoreResult := by
  unfold Obligations.XmemStoreResult
  intro f s hstore hw hmem
  have hread := readByte_afterStore f hmem
  have hlen := length_storedBytes (xmemAddr f s) s
  obtain ⟨hra0, hra1⟩ := afterStore_other_reg f s
  refine ⟨afterStore f s, exec_xmem_store hstore hw, fun hm => ?_, fun hm => ?_, fun hm => ?_, fun a ha => ?_,
    fun k => ?_, afterStore_eq f s, hra0, hra1⟩
  · simp only [storedBytes, hm] at hread
    simpa [nibbleStored_eq] using hread 0 (by simp)
  · simp only [storedBytes, hm] at hread
    simpa [loByte] using hread 0 (by simp)
  · have hbytes : storedBytes (xmemAddr f s) s = [loByte s.acc, hiByte s.acc] := by
      rcases hm with hm | hm <;> simp only [storedBytes, hm]
    simp only [hbytes] at hread
    exact ⟨by simpa [loByte] using hread 0 (by simp), by simpa [hiByte] using hread 1 (by simp)⟩
  · rw [readByte_congr (afterStore_mem f s)]
    exact readByte_storeBytes_frame s _ a _ hmem (by rw [hlen]; exact ha)
  · rw [afterStore_modified, mem_storeBytes_modified, hlen]
    rfl

/-! ### The addressing of `XMEM` (R220, R223) -/

/-- Writing the selected address register and reading it back. -/
theorem xmemReg_setXmemReg (f : XmemFn) (a : Word) (s : State) : xmemReg f (setXmemReg f a s) = a := by
  unfold xmemReg setXmemReg
  cases f.ra1 <;> rfl

/-- The stride is 1 byte in UL and LK8 and 2 bytes in LK16 and SPE (R220). -/
theorem xmemStride_eq (s : State) : xmemStride s = if s.mode = .ul ∨ s.mode = .lk8 then 1 else 2 := by
  unfold xmemStride
  cases s.mode <;> rfl

/-- What an `XMEM` that answers a next state leaves in its address register. -/
theorem xmemReg_exec {f : XmemFn} {s t : State} (h : exec (.xmem f) s = .next t) :
    xmemReg f t = xmemRegAfter f s := by
  cases hf : f.store
  · rw [exec_load_next hf h]
    exact xmemReg_setXmemReg _ _ _
  · rw [exec_store_next hf h]
    exact xmemReg_setXmemReg _ _ _

/-- Settles O34: the address and the register after are `xmemAddr` and `xmemRegAfter`, split by AM and DIR. -/
theorem xmemAddressing : Obligations.XmemAddressing := by
  unfold Obligations.XmemAddressing
  rintro f s t R R' stride h hR hR' hstride
  have hbefore : R = xmemReg f s := hR
  have hafter : R' = xmemRegAfter f s := hR'.trans (xmemReg_exec h)
  rw [← xmemStride_eq] at hstride
  rw [hbefore, hafter, hstride, xmemAddr, xmemRegAfter]
  refine ⟨fun hauto => ?_, fun hauto hdec => ?_, fun hauto hdec => ?_⟩ <;> simp [*]

/-! ### Accesses that `MEMORY_MAP` does not back (R83, R314) -/

/-- The bytes that `XMEM #f` touches are the addresses it is guarded by (R89). -/
theorem mem_xmemAddrs (f : XmemFn) (s : State) (a : Word) : a ∈ xmemAddrs f s ↔ XmemTouches f s a := by
  unfold xmemAddrs XmemTouches xmemBytes
  cases s.mode <;> simp [modeIsWide, addrsFrom]

/-- The first address of a page (R50). -/
theorem pageBase_eq (page : Byte) : pageBase page = BitVec.ofNat 16 (256 * page.toNat) := by
  apply BitVec.eq_of_toNat_eq
  have hlt := page.isLt
  rw [pageBase, mkWord, BitVec.toNat_append, BitVec.toNat_ofNat, BitVec.toNat_ofNat, Nat.shiftLeft_eq]
  simp
  omega

/-- The bytes of an interrupt frame are the addresses it is guarded by (R93). -/
theorem mem_frameAddrs (page : Byte) (a : Word) : a ∈ addrsFrom (pageBase page) 8 ↔ InFrame page a := by
  simp only [mem_addrsFrom, InFrame, pageBase_eq, ← BitVec.ofNat_add]

/-- The first byte that `XMEM #f` touches is the one at its address (R89). -/
theorem xmemAddrs_eq_cons (f : XmemFn) (s : State) : ∃ rest, xmemAddrs f s = xmemAddr f s :: rest := by
  unfold xmemAddrs xmemBytes
  split <;> exact ⟨_, rfl⟩

/-- An address that nothing backs may not be read (R83). -/
theorem readRefusal_of_nothing {s : State} {a : Word} (h : backingAt s.params.memoryMap a.toNat = .nothing) :
    readRefusal s a = some (.unbackedAddress a) := by rw [readRefusal, h]

/-- An address that nothing backs may not be stored to (R83). -/
theorem storeRefusal_of_nothing {s : State} {a : Word} (h : backingAt s.params.memoryMap a.toNat = .nothing) :
    storeRefusal s a = some (.unbackedAddress a) := by rw [storeRefusal, h]

/-- An address that ROM backs may not be stored to (R83). -/
theorem storeRefusal_of_rom {s : State} {a : Word} (h : backingAt s.params.memoryMap a.toNat = .rom) :
    storeRefusal s a = some (.storeToRom a) := by rw [storeRefusal, h]

/-- Only an address that RAM backs may be stored to (R83). -/
theorem storeRefusal_ne_none {s : State} {a : Word} (h : backingAt s.params.memoryMap a.toNat ≠ .ram) :
    storeRefusal s a ≠ none := by
  unfold storeRefusal
  split
  · exact fun _ => h ‹_›
  · exact nofun
  · exact nofun

/-- A guarded read is refused by its first address where that may not be read. -/
theorem guardReads_cons_refused {s : State} {a : Word} {as : List Word} {why : Refusal} (r : Result)
    (h : readRefusal s a = some why) : guardReads s (a :: as) r = .refused why := by
  simp only [guardReads, List.findSome?_cons, h]

/-- A guarded store is refused by its first address where that may not be stored to. -/
theorem guardStores_cons_refused {s : State} {a : Word} {as : List Word} {why : Refusal} (r : Result)
    (h : storeRefusal s a = some why) : guardStores s (a :: as) r = .refused why := by
  simp only [guardStores, List.findSome?_cons, h]

/-- A guarded read one of whose addresses nothing backs is refused by such an address. -/
theorem guardReads_refused {s : State} {as : List Word} {a : Word} (r : Result) (ha : a ∈ as)
    (h : backingAt s.params.memoryMap a.toNat = .nothing) :
    ∃ b ∈ as, backingAt s.params.memoryMap b.toNat = .nothing ∧
      guardReads s as r = .refused (.unbackedAddress b) := by
  rcases guardReads_cases s as r with ⟨hread, _⟩ | hrefused
  · have := hread a ha
    rw [readRefusal_of_nothing h] at this
    cases this
  · exact hrefused

/-- A guarded store one of whose addresses is not RAM is refused by such an address. -/
theorem guardStores_refused {s : State} {as : List Word} {a : Word} (r : Result) (ha : a ∈ as)
    (h : backingAt s.params.memoryMap a.toNat ≠ .ram) :
    ∃ b ∈ as,
      (backingAt s.params.memoryMap b.toNat = .nothing ∧ guardStores s as r = .refused (.unbackedAddress b)) ∨
      (backingAt s.params.memoryMap b.toNat = .rom ∧ guardStores s as r = .refused (.storeToRom b)) := by
  rcases guardStores_cases s as r with ⟨hwrite, _⟩ | hrefused
  · exact absurd (hwrite a ha) (storeRefusal_ne_none h)
  · exact hrefused

theorem exec_xmem_guarded_load {f : XmemFn} (hf : f.store = false) (s : State) :
    exec (.xmem f) s = guardReads s (xmemAddrs f s) (.next (afterLoad f s)) := if_neg (by simp [hf])

theorem exec_xmem_guarded_store {f : XmemFn} (hf : f.store = true) (s : State) :
    exec (.xmem f) s = guardStores s (xmemAddrs f s) (.next (afterStore f s)) := if_pos hf

theorem exec_reti (s : State) :
    exec .reti s = guardReads s (addrsFrom (pageBase s.iar) 8) (.next (restoreFrame s)) := rfl

/-- Interrupt entry where `PC_next` has a value: the frame, guarded (R310, R314). -/
theorem takeInterrupt_guarded {s : State} {pn : Word} (hp : pcNext s = some pn)
    (hm : s.nib = true → s.params.intMidByte ≠ .fault) :
    takeInterrupt s = guardStores s (addrsFrom (pageBase s.ia) 8) (.next (saveAndEnter pn s)) := by
  have hcond : (s.nib && s.params.intMidByte == .fault) = false := by
    cases hn : s.nib
    · rfl
    · simp [hm hn]
  rw [takeInterrupt, hcond, hp]
  rfl

/-- Settles O35: each access is guarded by the addresses it touches, and a guard is refused by an address of its
own that is not backed, by its first address if that one is not. -/
theorem unbackedAccessesRefused : Obligations.UnbackedAccessesRefused := by
  unfold Obligations.UnbackedAccessesRefused
  intro s f a
  obtain ⟨rest, hcons⟩ := xmemAddrs_eq_cons f s
  refine ⟨fun hf h => ?_, fun hf h => ?_, fun hf h => ?_, fun hf ha h => ?_, fun hf ha h => ?_, fun ha h hp hm => ?_,
    fun ha h => ?_, fun h => ?_⟩
  · rw [exec_xmem_guarded_load hf, hcons, guardReads_cons_refused _ (readRefusal_of_nothing h)]
  · rw [exec_xmem_guarded_store hf, hcons, guardStores_cons_refused _ (storeRefusal_of_nothing h)]
  · rw [exec_xmem_guarded_store hf, hcons, guardStores_cons_refused _ (storeRefusal_of_rom h)]
  · obtain ⟨b, hb, hrefused⟩ := guardReads_refused (.next (afterLoad f s)) ((mem_xmemAddrs f s a).mpr ha) h
    rw [exec_xmem_guarded_load hf]
    exact ⟨b, (mem_xmemAddrs f s b).mp hb, hrefused⟩
  · obtain ⟨b, hb, hrefused⟩ := guardStores_refused (.next (afterStore f s)) ((mem_xmemAddrs f s a).mpr ha) h
    rw [exec_xmem_guarded_store hf]
    exact ⟨b, (mem_xmemAddrs f s b).mp hb, hrefused⟩
  · obtain ⟨pn, hpn⟩ := Option.ne_none_iff_exists'.mp hp
    obtain ⟨b, hb, hrefused⟩ := guardStores_refused (.next (saveAndEnter pn s)) ((mem_frameAddrs s.ia a).mpr ha) h
    rw [takeInterrupt_guarded hpn hm]
    exact ⟨b, (mem_frameAddrs s.ia b).mp hb, hrefused⟩
  · obtain ⟨b, hb, hrefused⟩ := guardReads_refused (.next (restoreFrame s)) ((mem_frameAddrs s.iar a).mpr ha) h
    rw [exec_reti]
    exact ⟨b, (mem_frameAddrs s.iar b).mp hb, hrefused⟩
  · rw [fetchNibble, nibbleAddr_zero, readRefusal_of_nothing h]

end Sys2Proof.Machine

/-! PROOFS. The CSR bank and `SWI`, `WFI` (R55 to R68, R241, R242, R262, R264): the numbers of the joined words,
`EVTCTRL` bit by bit, and the obligations assembled from them. -/

namespace Sys2Proof.Machine

/-! ### Joined words as numbers (R34, R57, R84) -/

/-- Two words joined, as a number. -/
theorem toNat_append_eq_add {m n : Nat} (x : BitVec m) (y : BitVec n) :
    (x ++ y).toNat = x.toNat * 2 ^ n + y.toNat := by
  rw [BitVec.toNat_append, ← Nat.shiftLeft_add_eq_or_of_lt y.isLt, Nat.shiftLeft_eq]

theorem toNat_mkWord (hi lo : Byte) : (mkWord hi lo).toNat = hi.toNat * 256 + lo.toNat :=
  toNat_append_eq_add hi lo

/-- The `FLAGS` byte as a number (R34). -/
theorem toNat_flagsByte (c z n v : Bool) :
    (flagsByte c z n v).toNat = c.toNat + 2 * z.toNat + 4 * n.toNat + 8 * v.toNat := by
  cases c <;> cases z <;> cases n <;> cases v <;> rfl

/-- The constant of `CPUID`, field by field (R57). -/
theorem toNat_cpuid (p : Params) :
    (cpuid p).toNat = 0x800 * p.mad.toNat + 0x400 * (p.debug).toNat + 0x200 * p.int.toNat +
      0x10 * p.cpuidVendor.toNat + p.cpuidImpl.toNat := by
  simp only [cpuid, toNat_append_eq_add, BitVec.toNat_ofBool, BitVec.toNat_ofNat]
  omega

/-! ### `EVTCTRL` (R62, R66) -/

/-- The mask has the bits of the *present when* column (R62). -/
theorem getLsbD_evtMask_eq_evtPresent (p : Params) {k : Nat} (hk : k < 16) :
    (evtMask p).getLsbD k = evtPresent p k := by
  rw [getLsbD_evtMask p k hk]
  interval_cases k <;> simp [evtPresent]

/-- From bit 13 on no field is present (R62). -/
theorem evtPresent_of_ge (p : Params) {k : Nat} (hk : 13 ≤ k) : evtPresent p k = false := by
  unfold evtPresent
  split <;> simp at hk ⊢

/-- Bits 3 to 6 and the bits from 13 on are reserved (R62). -/
theorem evtPresent_of_reserved (p : Params) {k : Nat} (hk : (3 ≤ k ∧ k ≤ 6) ∨ 13 ≤ k) : evtPresent p k = false := by
  rcases hk with ⟨h3, h6⟩ | h13
  · interval_cases k <;> simp [evtPresent]
  · exact evtPresent_of_ge p h13

/-- `EVTCTRL` as it reads: the stored bit where its field is present (R62). -/
theorem evtBit_eq_and_present (s : State) (k : Nat) :
    s.evtBit k = (s.evtctrl.getLsbD k && evtPresent s.params k) := by
  rw [evtBit_eq]
  by_cases hk : k < 16
  · rw [getLsbD_evtMask_eq_evtPresent _ hk]
  · rw [BitVec.getLsbD_of_ge _ k (by omega)]
    simp

/-- Without the Baseline Profile `EVTCTRL` reads 0 (R62). -/
theorem evt_of_not_baseline {s : State} (h : s.params.baseline = false) : s.evt = 0 := by
  rw [State.evt, evtMask, if_neg (by simp [h])]
  exact BitVec.and_zero

/-- What `CSRST #7` leaves at a bit of `EVTCTRL`: the plain bits as written, `IN_ISR` as it was, the pending
bits unless a 1 is written (R66). -/
theorem getLsbD_evtWritten (e w : Word) {k : Nat} (hk : k < 16) :
    (evtWritten e w).getLsbD k =
      ((w.getLsbD k && decide (k = 0 ∨ k = 1 ∨ k = 2 ∨ k = 7 ∨ k = 12)) || (e.getLsbD k && decide (k = 8)) ||
        (e.getLsbD k && !w.getLsbD k && decide (k = 9 ∨ k = 10 ∨ k = 11))) := by
  unfold evtWritten
  interval_cases k <;> simp

/-! ### What the instructions do -/

theorem exec_csrld (idx : BitVec 4) (s : State) : exec (.csrld idx) s = .next { s with acc := csrRead s idx } := rfl

theorem exec_csrst (idx : BitVec 4) (s : State) : exec (.csrst idx) s = .next (csrWrite idx s.acc s) := rfl

theorem exec_swi (s : State) : exec .swi s = .next (setEvtBit evtSwP true s) := rfl

theorem exec_wfi (s : State) : exec .wfi s = .next { s with sleep := true } := rfl

/-- The indexes 9 to 15 are reserved (R55). -/
theorem csrName_reserved {idx : BitVec 4} (h : 9 ≤ idx.toNat) : csrName idx = .reserved := by
  have hlt := idx.isLt
  unfold csrName
  generalize idx.toNat = k at h hlt
  interval_cases k <;> rfl

/-- A reserved CSR reads 0 (R67). -/
theorem csrRead_reserved {s : State} {idx : BitVec 4} (h : 9 ≤ idx.toNat) : csrRead s idx = 0 := by
  rw [csrRead, csrName_reserved h]

/-! ### The obligations -/

/-- Settles O37: `CSRLD` writes `csrRead` to `ACC`; index by index that is the register, and `EVTCTRL` is masked
by the fields present. -/
theorem csrldReadsTheMap : Obligations.CsrldReadsTheMap := by
  unfold Obligations.CsrldReadsTheMap
  intro idx s
  refine ⟨_, exec_csrld idx s, rfl, readByte_congr rfl, ?_, ?_, ?_, ?_, ?_, ?_, ?_, ?_, ?_, csrRead_reserved⟩
  · rintro rfl
    exact toNat_cpuid s.params
  · rintro rfl
    have hword : (mkWord s.flags s.cfg).toNat = _ := toNat_mkWord s.flags s.cfg
    rw [State.flags, toNat_flagsByte] at hword
    exact hword.trans (by omega)
  · rintro rfl; rfl
  · rintro rfl; rfl
  · rintro rfl; rfl
  · rintro rfl; rfl
  · rintro rfl; rfl
  · rintro rfl
    exact ⟨rfl, fun k _ => evtBit_eq_and_present s k, evt_of_not_baseline⟩
  · rintro rfl
    show (if s.params.int then zextByte s.ia else 0).toNat = _
    cases s.params.int
    · rfl
    · exact toNat_zextByte s.ia

/-- Settles O38: `CSRST` is `csrWrite` of `ACC`; each index names one register of the chain. -/
theorem csrstWritesTheMap : Obligations.CsrstWritesTheMap := by
  unfold Obligations.CsrstWritesTheMap
  intro idx s
  rw [exec_csrst]
  revert idx
  apply forall_nibble
  intro k hk h7
  match k, hk with
  | 7, _ => exact absurd rfl h7
  | 0, _ | 1, _ | 2, _ | 3, _ | 4, _ | 5, _ | 6, _ | 8, _ | 9, _ | 10, _ | 11, _ | 12, _ | 13, _ | 14, _ | 15, _ =>
    simp [csrWrite, csrName, loByte]
  | k + 16, hk => exact absurd hk (by omega)

/-- With the Baseline Profile `CSRST #7` leaves each bit that `evtWritten` gives, where it is present. -/
theorem evtBit_csrWrite_evtctrl {s : State} (hb : s.params.baseline = true) (w : Word) {k : Nat} (hk : k < 16) :
    (csrWrite 7 w s).evtBit k =
      (((w.getLsbD k && decide (k = 0 ∨ k = 1 ∨ k = 2 ∨ k = 7 ∨ k = 12)) || (s.evtBit k && decide (k = 8)) ||
        (s.evtBit k && !w.getLsbD k && decide (k = 9 ∨ k = 10 ∨ k = 11))) && evtPresent s.params k) := by
  have hwrite : csrWrite 7 w s = { s with evtctrl := evtWritten s.evt w &&& evtMask s.params } := if_pos hb
  rw [hwrite, evtBit_eq_and_present, BitVec.getLsbD_and, getLsbD_evtMask_eq_evtPresent _ hk, Bool.and_assoc,
    Bool.and_self, getLsbD_evtWritten _ _ hk]
  rfl

/-- `CSRST #7` writes `EVTCTRL` alone. -/
theorem csrWrite_evtctrl_eq (w : Word) (s : State) :
    csrWrite 7 w s = { s with evtctrl := (csrWrite 7 w s).evtctrl } := by
  show (if s.params.baseline then _ else s) = { s with evtctrl := (if s.params.baseline then _ else s).evtctrl }
  cases s.params.baseline <;> rfl

/-- Settles O39: without the Baseline Profile the write is ignored; with it each bit is that of `evtWritten` where
its field is present. -/
theorem csrstEvtctrlBitByBit : Obligations.CsrstEvtctrlBitByBit := by
  unfold Obligations.CsrstEvtctrlBitByBit
  refine fun s => ⟨_, exec_csrst 7 s, ?_, ?_, fun hb => ?_, fun hb => ?_, fun k hk => ?_⟩
  · exact csrWrite_evtctrl_eq s.acc s
  · rw [csrWrite_eq]; exact readByte_congr rfl
  · exact if_neg (by simp [hb])
  · refine ⟨?_, ?_, ?_, ?_, ?_, ?_, ?_, ?_, ?_⟩ <;> rw [evtBit_csrWrite_evtctrl hb s.acc (by decide)] <;>
      simp [evtBit_eq_and_present s, evtPresent, hb, Bool.and_comm, Bool.and_left_comm]
  · rw [evtBit_eq_and_present, csrWrite_eq, evtPresent_of_reserved _ hk, Bool.and_false]

/-- Settles O45: `SWI` sets one bit of `EVTCTRL` where its field is present. -/
theorem swiAndWfiResult : Obligations.SwiAndWfiResult := by
  unfold Obligations.SwiAndWfiResult
  refine fun s => ⟨exec_wfi s, _, exec_swi s, ?_, fun k hk => evtBit_setEvtBit_ne s _ k _ hk, rfl, readByte_congr rfl⟩
  rw [evtBit_setEvtBit_self s evtSwP 11 true rfl, getLsbD_evtMask_eq_evtPresent _ (by decide)]
  rfl

end Sys2Proof.Machine

/-! PROOFS. The environment at the boundary, the take test, interrupt entry and `RETI` (R71, R93, R260, R304,
R306, R310), with the obligations on them. -/

namespace Sys2Proof.Machine

/-! ### The boundary (R71, R264) -/

@[simp] theorem evtBit_wakeIfDue (s : State) (k : Nat) : (wakeIfDue s).evtBit k = s.evtBit k := by
  rw [wakeIfDue_eq]
  rfl

@[simp] theorem evtBit_boundary (s : State) (k : Nat) : (boundary s).evtBit k = (pollEnv s).evtBit k :=
  evtBit_wakeIfDue _ k

@[simp] theorem boundary_env (s : State) : (boundary s).env = s.env.tail := by
  rw [boundary, wakeIfDue_eq, pollEnv_env]

@[simp] theorem boundary_freeCount (s : State) : (boundary s).freeCount = nextFree s := by
  rw [boundary, wakeIfDue_eq, pollEnv_freeCount]

/-- While the list of inputs lasts, its head is the input (R71). -/
theorem envInput_cons {s : State} {e : EnvInput} {rest : List EnvInput} (h : s.env = e :: rest) : envInput s = e := by
  rw [envInput, h]

/-- At the boundary `EXT_P` is set where the input raises the external interrupt and the field is present. -/
theorem evtBit_boundary_extP (s : State) :
    (boundary s).evtBit 9 = (s.evtBit 9 || ((envInput s).ext && s.params.baseline && s.params.int)) := by
  rw [evtBit_boundary, evtBit_pollEnv_ite, if_pos (show 9 = evtExtP from rfl),
    getLsbD_evtMask_eq_evtPresent _ (by decide), Bool.and_assoc]
  rfl

/-- At the boundary every bit of `EVTCTRL` but `EXT_P` is kept. -/
theorem evtBit_boundary_ne (s : State) {k : Nat} (hk : k ≠ 9) : (boundary s).evtBit k = s.evtBit k := by
  rw [evtBit_boundary, evtBit_pollEnv s k hk]

/-- Settles O40: the input is the head of the list or the free value, and it sets `EXT_P` at most. -/
theorem environmentRaisesExtP : Obligations.EnvironmentRaisesExtP := by
  unfold Obligations.EnvironmentRaisesExtP
  refine fun s => ⟨fun e rest he => ⟨?_, ?_, ?_⟩, fun he => ⟨?_, ?_, ?_⟩, fun k hk => ?_, boundary_eq s⟩
  · rw [boundary_env, he, List.tail_cons]
  · rw [boundary_freeCount, nextFree, he]
  · rw [evtBit_boundary_extP, envInput_cons he]
  · rw [boundary_env, he, List.tail_nil]
  · rw [boundary_freeCount, nextFree, he]
  · rw [evtBit_boundary_extP, envInput, he]
  · exact evtBit_boundary_ne s hk

/-! ### The take test (R304, R306) -/

/-- An interrupt is due where `IE = 1`, no prefix is pending, the position allows it and a source is enabled and
pending (R304, R306). -/
theorem interruptDue_iff (s : State) :
    interruptDue s = true ↔ s.cfg.getLsbD 4 = true ∧ s.xopp = false ∧
      (s.nib = false ∨ s.params.intMidByte ≠ .defer) ∧ SourceEnabled s := by
  rw [interruptDue, takeable, cfgIE, ← sourceReady_iff]
  simp only [Bool.and_eq_true, Bool.or_eq_true, Bool.not_eq_true', beq_eq_false_iff_ne, ne_eq]
  tauto

/-- Where an interrupt is due at the boundary, the step is its entry (R306). -/
theorem step_of_due {s : State} (h : interruptDue (boundary s) = true) : step s = takeInterrupt (boundary s) := by
  rw [step, stepOnce, if_pos h]

/-- Settles O41: `due` is `interruptDue` of the boundary, by which the step branches. -/
theorem interruptTakenExactlyWhenDue : Obligations.InterruptTakenExactlyWhenDue := by
  unfold Obligations.InterruptTakenExactlyWhenDue
  rintro s b due rfl hdue
  have heq : due = interruptDue (boundary s) := Bool.eq_iff_iff.mpr (hdue.trans (interruptDue_iff _).symm)
  exact ⟨fun h => step_of_due (heq ▸ h), fun h hawake => step_of_runsInstr ⟨heq ▸ h, hawake⟩⟩

/-! ### Interrupt entry (R93, R310) -/

@[simp] theorem saveAndEnter_mem (pn : Word) (s : State) :
    (saveAndEnter pn s).mem = (storeBytes s (pageBase s.ia) (frameBytes s pn)).mem := rfl

@[simp] theorem saveAndEnter_modified (pn : Word) (s : State) :
    (saveAndEnter pn s).modified = (storeBytes s (pageBase s.ia) (frameBytes s pn)).modified := rfl

/-- What interrupt entry may change (R310). -/
theorem saveAndEnter_eq (pn : Word) (s : State) :
    saveAndEnter pn s =
      { s with
        pc := pageBase s.ia + 0x10, nib := false, xopp := false, sleep := false
        cfg := cfgSetIE s.cfg false, iar := s.ia
        evtctrl := (saveAndEnter pn s).evtctrl
        mem := (saveAndEnter pn s).mem, modified := (saveAndEnter pn s).modified } := by
  rw [saveAndEnter, enterIsr_eq, storeBytes_eq]

/-- The frame bytes read back after the entry (R93). -/
theorem readByte_saveAndEnter (pn : Word) {s : State} (h : s.mem.wf = true) (i : Nat) (hi : i < 8) :
    readByte (saveAndEnter pn s) (pageBase s.ia + BitVec.ofNat 16 i) = (frameBytes s pn)[i]'hi := by
  rw [readByte_congr (saveAndEnter_mem pn s)]
  exact readByte_storeBytes s _ (frameBytes s pn) i hi h (by simp [frameBytes])

/-- `CFG.IE <- 0` keeps the other seven bits (R310). -/
theorem cfgSetIE_false (cfg : Byte) : cfgSetIE cfg false = cfg &&& 0xEF := rfl

@[simp] theorem evtBit_storeBytes (s : State) (a : Word) (bs : List Byte) (k : Nat) :
    (storeBytes s a bs).evtBit k = s.evtBit k := by
  induction bs generalizing s a with
  | nil => rfl
  | cons b rest ih => rw [storeBytes, ih, evtBit_storeByte]

@[simp] theorem storeBytes_params (s : State) (a : Word) (bs : List Byte) :
    (storeBytes s a bs).params = s.params := by
  induction bs generalizing s a with
  | nil => rfl
  | cons b rest ih => rw [storeBytes, ih, storeByte_params]

/-- `EVTCTRL` in the ISR: `IN_ISR` set where present, `DBGSTEP` cleared, every other bit kept (R310). -/
theorem evtBit_enterIsr (s : State) (k : Nat) :
    (enterIsr s).evtBit k =
      if k = 12 then false else if k = 8 then s.params.baseline && s.params.int else s.evtBit k := by
  have hpresent : (evtMask s.params).getLsbD 8 = (s.params.baseline && s.params.int) :=
    getLsbD_evtMask_eq_evtPresent _ (by decide)
  rw [enterIsr, evtBit_jumpTo, evtBit_setEvtBit, evtBit_setEvtBit, ← hpresent]
  rfl

/-- Storing the frame leaves `EVTCTRL` to `enterIsr`. -/
theorem evtBit_saveAndEnter (pn : Word) (s : State) (k : Nat) :
    (saveAndEnter pn s).evtBit k =
      if k = 12 then false else if k = 8 then s.params.baseline && s.params.int else s.evtBit k := by
  rw [saveAndEnter, evtBit_enterIsr, storeBytes_params, evtBit_storeBytes]

@[simp] theorem saveAndEnter_pc (pn : Word) (s : State) : (saveAndEnter pn s).pc = pageBase s.ia + 0x10 := by
  rw [saveAndEnter_eq]

@[simp] theorem saveAndEnter_cfg (pn : Word) (s : State) : (saveAndEnter pn s).cfg = s.cfg &&& 0xEF := by
  rw [saveAndEnter_eq, cfgSetIE_false]

@[simp] theorem saveAndEnter_iar (pn : Word) (s : State) : (saveAndEnter pn s).iar = s.ia := by
  rw [saveAndEnter_eq]

/-- The registers that interrupt entry does not name are kept (R310). -/
theorem saveAndEnter_frame (pn : Word) (s : State) :
    saveAndEnter pn s =
      { s with
        pc := (saveAndEnter pn s).pc, nib := false, xopp := false, sleep := false
        cfg := (saveAndEnter pn s).cfg, iar := (saveAndEnter pn s).iar
        evtctrl := (saveAndEnter pn s).evtctrl
        mem := (saveAndEnter pn s).mem, modified := (saveAndEnter pn s).modified } := by
  have h := saveAndEnter_eq pn s
  generalize saveAndEnter pn s = t at h ⊢
  rw [h]

/-- Settles O42: the entry is `saveAndEnter`, whose frame bytes read back one by one. -/
theorem interruptEntry : Obligations.InterruptEntry := by
  unfold Obligations.InterruptEntry
  intro s pn base hpn hmid hbase hw hmem
  obtain rfl : base = pageBase s.ia := hbase.trans (pageBase_eq s.ia).symm
  have hread := readByte_saveAndEnter pn hmem
  have hevt := evtBit_saveAndEnter pn s
  have hlow : readByte (saveAndEnter pn s) (pageBase s.ia) = loByte pn := by
    simpa [frameBytes] using hread 0 (by decide)
  have hflags : readByte (saveAndEnter pn s) (pageBase s.ia + 3) = s.flags := hread 3 (by decide)
  refine ⟨saveAndEnter pn s, takeInterrupt_eq hmid hpn hw, hlow, hread 1 (by decide), hread 2 (by decide), ?_,
    hread 4 (by decide), hread 5 (by decide), hread 6 (by decide), hread 7 (by decide), fun a ha => ?_, fun k => ?_,
    saveAndEnter_iar pn s, saveAndEnter_cfg pn s, saveAndEnter_pc pn s, hevt 8, hevt 12, fun k h8 h12 => ?_,
    saveAndEnter_frame pn s⟩
  · rw [hflags, State.flags, toNat_flagsByte]
  · rw [readByte_congr (saveAndEnter_mem pn s)]
    exact readByte_storeBytes_frame s _ a _ hmem ha
  · rw [saveAndEnter_modified, mem_storeBytes_modified]
    rfl
  · rw [hevt, if_neg h12, if_neg h8]

/-! ### The return (R260) -/

/-- `EVTCTRL` after `RETI`: `IN_ISR` cleared, every other bit kept (R260). -/
theorem evtBit_restoreFrame (s : State) (k : Nat) :
    (restoreFrame s).evtBit k = if k = 8 then false else s.evtBit k := by
  rw [restoreFrame, evtBit_jumpTo, evtBit_setEvtBit, Bool.false_and]
  rfl

/-- The return from a page that may be read is `restoreFrame` (R260). -/
theorem exec_reti_of_readable {s : State} (h : Readable s (addrsFrom (pageBase s.iar) 8)) :
    exec .reti s = .next (restoreFrame s) := guardReads_of_readable _ h

/-- The registers that `RETI` restores, each from its frame bytes (R93, R260). -/
theorem restoreFrame_regs (s : State) :
    (restoreFrame s).pc = readByte s (pageBase s.iar + 1) ++ readByte s (pageBase s.iar) ∧
    (restoreFrame s).cfg = readByte s (pageBase s.iar + 2) ∧
    (restoreFrame s).c = (readByte s (pageBase s.iar + 3)).getLsbD 0 ∧
    (restoreFrame s).z = (readByte s (pageBase s.iar + 3)).getLsbD 1 ∧
    (restoreFrame s).n = (readByte s (pageBase s.iar + 3)).getLsbD 2 ∧
    (restoreFrame s).v = (readByte s (pageBase s.iar + 3)).getLsbD 3 ∧
    (restoreFrame s).ia = readByte s (pageBase s.iar + 4) ∧
    (restoreFrame s).iar = readByte s (pageBase s.iar + 5) ∧
    (restoreFrame s).ra1 = readByte s (pageBase s.iar + 7) ++ readByte s (pageBase s.iar + 6) := by
  have h7 : pageBase s.iar + 6 + 1 = pageBase s.iar + 7 := BitVec.add_assoc _ _ _
  refine ⟨rfl, rfl, rfl, rfl, rfl, rfl, rfl, rfl, ?_⟩
  rw [← h7]
  rfl

/-- Settles O43: the return is `restoreFrame`. -/
theorem retiRestoresFrame : Obligations.RetiRestoresFrame := by
  unfold Obligations.RetiRestoresFrame
  intro s base hbase hr
  obtain rfl : base = pageBase s.iar := hbase.trans (pageBase_eq s.iar).symm
  obtain ⟨hpc, hcfg, hc, hz, hn, hv, hia, hiar, hra1⟩ := restoreFrame_regs s
  refine ⟨restoreFrame s, exec_reti_of_readable hr, hpc, hcfg, hc, hz, hn, hv, hia, hiar, hra1,
    evtBit_restoreFrame s 8, fun k hk => ?_, restoreFrame_eq s, readByte_congr rfl⟩
  rw [evtBit_restoreFrame, if_neg hk]

/-- What may be stored to may be read (R83). -/
theorem readable_of_writable {s u : State} {as : List Word} (hp : u.params = s.params) (h : Writable s as) :
    Readable u as := by
  intro a ha
  have := h a ha
  unfold storeRefusal at this
  unfold readRefusal
  rw [hp]
  split at this
  · rfl
  · cases this
  · cases this

/-- Settles O44: the frame that `RETI` finds in the page of `IAR` is the one that the entry stored there. -/
theorem retiUndoesInterruptEntry : Obligations.RetiUndoesInterruptEntry := by
  unfold Obligations.RetiUndoesInterruptEntry
  intro s t u hentry hnib hmem hiar hparams hframe
  obtain ⟨_, pn, hpn, hw, rfl⟩ := takeInterrupt_next hentry
  obtain rfl : s.pc = pn := by
    rw [pcNext, hnib] at hpn
    exact Option.some.inj hpn
  have hpage : u.iar = s.ia := by rw [hiar, saveAndEnter_iar]
  have hread (i : Nat) (hi : i < 8) :
      readByte u (pageBase s.ia + BitVec.ofNat 16 i) = (frameBytes s s.pc)[i]'hi :=
    (hframe _ ((mem_addrsFrom _ _ _).mpr ⟨i, hi, rfl⟩)).trans (readByte_saveAndEnter s.pc hmem i hi)
  have hlow : readByte u (pageBase s.ia) = loByte s.pc := by simpa [frameBytes] using hread 0 (by decide)
  have hflags : readByte u (pageBase s.ia + 3) = s.flags := hread 3 (by decide)
  obtain ⟨hpc, hcfg, hc, hz, hn, hv, hia, hiar', hra1⟩ := restoreFrame_regs u
  rw [hpage] at hpc hcfg hc hz hn hv hia hiar' hra1
  rw [hflags] at hc hz hn hv
  obtain ⟨fc, fz, fn, fv⟩ := getLsbD_flagsByte s.c s.z s.n s.v
  refine ⟨restoreFrame u, exec_reti_of_readable (by rw [hpage]; exact readable_of_writable hparams hw), ?_, rfl,
    hcfg.trans (hread 2 (by decide)), hc.trans fc, hz.trans fz, hn.trans fn, hv.trans fv,
    hia.trans (hread 4 (by decide)), hiar'.trans (hread 5 (by decide)), ?_, evtBit_restoreFrame u 8, rfl, rfl, rfl, rfl,
    readByte_congr rfl⟩
  · rw [hpc, hlow]
    exact (congrArg (· ++ loByte s.pc) (hread 1 (by decide))).trans (mkWord_hiByte_loByte s.pc)
  · exact (hra1.trans (congrArg₂ _ (hread 7 (by decide)) (hread 6 (by decide)))).trans (mkWord_hiByte_loByte s.ra1)

end Sys2Proof.Machine

/-! PROOFS. The retirement, the timer, the watchdog, the sleep and the single-step (R264, R306, R320 to R322,
R330), with the obligations on them. -/

namespace Sys2Proof.Machine

/-! ### Without a watchdog reset (R320, R321) -/

/-- Fewer ticks do not fire a watchdog that more ticks do not fire. -/
theorem watchdogFires_mono {j k : Nat} {s : State} (h : WatchdogFires j s) (hjk : j ≤ k) : WatchdogFires k s := by
  obtain ⟨ht, hw, i, h1, h2, hm⟩ := h
  exact ⟨ht, hw, i, h1, h2.trans hjk, hm⟩

/-- An unarmed watchdog does not fire. -/
theorem not_watchdogFires {s : State} (h : s.evtBit 7 = false) (k : Nat) : ¬ WatchdogFires k s :=
  fun ⟨_, hw, _⟩ => absurd (hw.symm.trans h) (by decide)

/-- Where the watchdog does not fire, the ticks end without a reset. -/
theorem exists_tickTimes {k : Nat} {s : State} (h : ¬ WatchdogFires k s) : ∃ x, tickTimes k s = (x, false) := by
  have hsnd : (tickTimes k s).2 = false := Bool.eq_false_iff.mpr (mt (tickTimes_reset_iff k s).mp h)
  exact ⟨(tickTimes k s).1, Prod.ext rfl hsnd⟩

/-- Where the watchdog fires, the ticks end in the state of a reset. -/
theorem tickTimes_of_fires {k : Nat} {s : State} (h : WatchdogFires k s) : tickTimes k s = (coreReset s, true) := by
  have hsnd := (tickTimes_reset_iff k s).mpr h
  have hfst := tickTimes_reset k s (tickTimes k s).1 (Prod.ext rfl hsnd)
  exact Prod.ext hfst hsnd

/-! ### The wake condition (R264) -/

/-- The wake condition looks at `EVTCTRL`, `CFG.IE` and `WFI_WAKE`; with the watchdog armed not at `T_P`. -/
theorem wakeCondition_congr {s t : State} (hbits : ∀ b, b ≠ 10 → t.evtBit b = s.evtBit b)
    (h10 : t.evtBit 10 = s.evtBit 10 ∨ s.evtBit 7 = true) (hcfg : t.cfg = s.cfg) (hp : t.params = s.params) :
    WakeCondition t ↔ WakeCondition s := by
  have hsource : SourceEnabled t ↔ SourceEnabled s := by
    simp only [SourceEnabled, hbits 0 (by decide), hbits 1 (by decide), hbits 2 (by decide), hbits 7 (by decide),
      hbits 9 (by decide), hbits 11 (by decide)]
    rcases h10 with h10 | h7
    · rw [h10]
    · simp [h7]
  rw [WakeCondition, WakeCondition, hsource, hcfg, hp]

/-- The wake condition does not look at `SLEEP`. -/
theorem wakeCondition_wakeIfDue (s : State) : WakeCondition (wakeIfDue s) ↔ WakeCondition s := by
  rw [wakeIfDue_eq]
  exact Iff.rfl

/-- After the wake test the core sleeps where it slept and the condition does not hold. -/
theorem sleep_wakeIfDue (s : State) :
    (wakeIfDue s).sleep = true ↔ s.sleep = true ∧ ¬ WakeCondition (wakeIfDue s) := by
  rw [wakeCondition_wakeIfDue, ← wakes_iff, wakeIfDue]
  cases wakes s <;> simp

/-- A core that has nothing to wake it is as the wake test found it. -/
theorem wakeIfDue_of_not {s : State} (h : ¬ WakeCondition s) : wakeIfDue s = s := by
  rw [wakeIfDue, if_neg (mt (wakes_iff s).mp h)]

/-! ### The retirement (R306) -/

/-- The single-step trigger of an instruction that started armed (R330). -/
def stepTrigger (armed : Bool) (s : State) : State := if armed then setEvtBit evtSwP true s else s

theorem stepTrigger_eq (armed : Bool) (s : State) :
    stepTrigger armed s = { s with evtctrl := (stepTrigger armed s).evtctrl } := by
  cases armed <;> rfl

/-- The trigger sets `SW_P`, where it is present, and keeps every other bit. -/
theorem evtBit_stepTrigger_ne (armed : Bool) (s : State) {k : Nat} (hk : k ≠ 11) :
    (stepTrigger armed s).evtBit k = s.evtBit k := by
  cases armed
  · rfl
  · exact evtBit_setEvtBit_ne s _ k _ hk

/-- `SW_P` can be set where the Baseline and Interrupt Profiles are present (R62). -/
theorem evtBit_setEvtBit_swP {s : State} (hb : s.params.baseline = true) (hi : s.params.int = true) :
    (setEvtBit evtSwP true s).evtBit 11 = true := by
  rw [evtBit_setEvtBit_self s evtSwP 11 true rfl, getLsbD_evtMask_eq_evtPresent _ (by decide)]
  simp [evtPresent, evtSwP, hb, hi]

theorem evtBit_stepTrigger_swP (armed : Bool) {s : State} (hb : s.params.baseline = true)
    (hi : s.params.int = true) : (stepTrigger armed s).evtBit 11 = (s.evtBit 11 || armed) := by
  cases armed
  · exact (Bool.or_false _).symm
  · exact (evtBit_setEvtBit_swP hb hi).trans (Bool.or_true _).symm

/-- The retirement after its ticks: the single-step trigger, then the wake test (R306). -/
def afterTicks (armed : Bool) (x : State) : State := wakeIfDue (stepTrigger armed x)

theorem afterTicks_eq (armed : Bool) (x : State) :
    afterTicks armed x = { x with evtctrl := (afterTicks armed x).evtctrl, sleep := (afterTicks armed x).sleep } := by
  rw [afterTicks, wakeIfDue_eq, stepTrigger_eq]

@[simp] theorem afterTicks_timer (armed : Bool) (x : State) : (afterTicks armed x).timer = x.timer := by
  rw [afterTicks_eq]

theorem evtBit_afterTicks_ne (armed : Bool) (x : State) {k : Nat} (hk : k ≠ 11) :
    (afterTicks armed x).evtBit k = x.evtBit k := by
  rw [afterTicks, evtBit_wakeIfDue, evtBit_stepTrigger_ne armed x hk]

theorem evtBit_afterTicks_swP (armed : Bool) {x : State} (hb : x.params.baseline = true)
    (hi : x.params.int = true) : (afterTicks armed x).evtBit 11 = (x.evtBit 11 || armed) := by
  rw [afterTicks, evtBit_wakeIfDue, evtBit_stepTrigger_swP armed hb hi]

/-- After the retirement the core sleeps where it slept and the wake condition does not hold (R264). -/
theorem sleep_afterTicks (armed : Bool) (x : State) :
    (afterTicks armed x).sleep = true ↔ x.sleep = true ∧ ¬ WakeCondition (afterTicks armed x) := by
  rw [afterTicks, sleep_wakeIfDue, stepTrigger_eq]

/-- The retirement where the watchdog does not fire: the ticks, the trigger, the wake test (R306). -/
theorem retire_of_not_fires {extra : Nat} {armed : Bool} {i : Instr} {u : State}
    (h : ¬ WatchdogFires (ticksAfter u.params extra i) u) :
    ∃ x, tickTimes (ticksAfter u.params extra i) u = (x, false) ∧ retire extra armed i u = afterTicks armed x := by
  obtain ⟨x, hx⟩ := exists_tickTimes h
  exact ⟨x, hx, by rw [retire, hx]; rfl⟩

/-- Only `CSRST #5` is followed by no tick (R320). -/
theorem eq_csrst_of_ticksAfter {p : Params} {extra : Nat} {i : Instr} (h : ticksAfter p extra i = 0) :
    i = .csrst 5 := by
  unfold ticksAfter at h
  split at h
  · by_contra hi
    rw [if_neg hi] at h
    cases h
  · cases h

/-- `CSRST #5` writes `TIMER` where the time profile is present (R242). -/
theorem timer_of_exec_csrst {s u : State} (h : exec (.csrst 5) s = .next u) (ht : u.params.time = true) :
    u.timer = s.acc := by
  obtain rfl : csrWrite 5 s.acc s = u := Host.Outcome.next.inj h
  have hp : (csrWrite 5 s.acc s).params = s.params := by rw [csrWrite_eq]
  rw [hp] at ht
  exact congrArg State.timer (if_pos ht)

/-- The parameters are kept by ticks. -/
theorem ticksTo_params {k : Nat} {s t : State} (h : TicksTo k s t) : t.params = s.params := by
  obtain ⟨_, _, _, hframe⟩ := h
  rw [hframe]

/-- `CFG` is kept by ticks. -/
theorem ticksTo_cfg {k : Nat} {s t : State} (h : TicksTo k s t) : t.cfg = s.cfg := by
  obtain ⟨_, _, _, hframe⟩ := h
  rw [hframe]

/-- `SLEEP` is kept by ticks. -/
theorem ticksTo_sleep {k : Nat} {s t : State} (h : TicksTo k s t) : t.sleep = s.sleep := by
  obtain ⟨_, _, _, hframe⟩ := h
  rw [hframe]

/-- Ticks and what changes `EVTCTRL` and `SLEEP` after them change `TIMER`, `EVTCTRL` and `SLEEP` alone. -/
theorem ticksTo_frame {k : Nat} {s x t : State} (hx : TicksTo k s x)
    (ht : t = { x with evtctrl := t.evtctrl, sleep := t.sleep }) :
    t = { s with timer := t.timer, evtctrl := t.evtctrl, sleep := t.sleep } := by
  obtain ⟨_, _, _, hframe⟩ := hx
  rw [ht, hframe]

/-! ### The obligations on the retirement -/

/-- Settles O48: the ticks of the retirement, behind which only `SW_P` and `SLEEP` change. -/
theorem timerCountsRetiredInstructions : Obligations.TimerCountsRetiredInstructions := by
  unfold Obligations.TimerCountsRetiredInstructions
  intro s u i len extra k hruns hfetch hexec hextra hk hdog
  have hk' : k = ticksAfter u.params extra i := by
    rw [hk, ticksAfter]
    cases u.params.timerTick <;> simp
  rw [hk'] at hdog ⊢
  obtain ⟨x, hrun, hret⟩ := retire_of_not_fires (armed := stepArmed (boundary s)) hdog
  have hx := tickTimes_ticksTo _ _ _ hrun
  have hstep := step_of_fetches hruns hfetch hexec
  rw [← hextra, hret] at hstep
  have ⟨hticked, hstill, hbits, _⟩ := hx
  have h10 : (afterTicks (stepArmed (boundary s)) x).evtBit 10 = x.evtBit 10 := evtBit_afterTicks_ne _ _ (by decide)
  refine ⟨_, hstep, fun e rest he => by rw [hextra, envInput_cons he], fun ht => ?_, fun ht h0 => ?_, fun ht => ?_,
    fun b hb10 hb11 => ?_, ?_, ticksTo_frame hx (afterTicks_eq _ _)⟩
  · obtain ⟨hcount, hmatch⟩ := hticked ht
    exact ⟨(afterTicks_timer _ _).trans hcount, fun hb => by rw [h10, hmatch hb]⟩
  · obtain rfl := eq_csrst_of_ticksAfter h0
    rw [h0] at hrun
    obtain rfl : u = x := (Prod.mk.inj hrun).1
    exact ⟨(afterTicks_timer _ _).trans ((timer_of_exec_csrst hexec ht).trans (boundary_acc s)), h10⟩
  · rw [h10, afterTicks_timer, hstill ht]
    exact ⟨rfl, rfl⟩
  · rw [evtBit_afterTicks_ne _ _ hb11, hbits b hb10]
  · rw [sleep_afterTicks, ticksTo_sleep hx]

/-- Settles O50: the trigger sets `SW_P` exactly if the arm condition held at the boundary. -/
theorem singleStepTriggersSwi : Obligations.SingleStepTriggersSwi := by
  unfold Obligations.SingleStepTriggersSwi
  intro s u t i len hruns hfetch hexec hstep hbase hint hdog
  obtain ⟨x, hrun, hret⟩ := retire_of_not_fires (extra := (envInput s).extraTicks) (i := i)
    (armed := stepArmed (boundary s)) (not_watchdogFires hdog _)
  have hx := tickTimes_ticksTo _ _ _ hrun
  have hparams := ticksTo_params hx
  have ⟨_, _, hbits, _⟩ := hx
  rw [step_of_fetches hruns hfetch hexec, hret] at hstep
  obtain rfl := Host.Outcome.next.inj hstep
  rw [evtBit_afterTicks_swP _ (hparams ▸ hbase) (hparams ▸ hint), hbits 11 (by decide), stepArmed, cfgIE,
    Bool.and_comm (BitVec.getLsbD _ 4)]
  rfl

/-- Settles O46: the `SWI` leaves `SW_P` set behind its retirement and the next boundary, so an interrupt is due
there. -/
theorem enabledSwiIsTakenNext : Obligations.EnabledSwiIsTakenNext := by
  unfold Obligations.EnabledSwiIsTakenNext
  intro s t len hruns hfetch hstep hbase hint hie hswie hdog hnib
  have hu := exec_swi (advance len (boundary s))
  have hdog' : (setEvtBit evtSwP true (advance len (boundary s))).evtBit 7 = false := by
    rw [evtBit_setEvtBit_ne _ _ _ _ (by decide), evtBit_advance, hdog]
  obtain ⟨x, hrun, hret⟩ := retire_of_not_fires (extra := (envInput s).extraTicks) (i := .swi)
    (armed := stepArmed (boundary s)) (not_watchdogFires hdog' _)
  have hx := tickTimes_ticksTo _ _ _ hrun
  rw [step_of_fetches hruns hfetch hu, hret] at hstep
  obtain rfl := Host.Outcome.next.inj hstep
  have ⟨_, _, hbits, _⟩ := hx
  have hframe := ticksTo_frame hx (afterTicks_eq (stepArmed (boundary s)) x)
  have hparams := ticksTo_params hx
  have hbit (k : Nat) (h9 : k ≠ 9) := evtBit_boundary_ne (afterTicks (stepArmed (boundary s)) x) h9
  refine step_of_due ((interruptDue_iff _).mpr ⟨?_, ?_, .inl ?_, .inl ⟨?_, ?_⟩⟩)
  · rw [boundary_cfg, hframe]
    exact hie
  · rw [boundary_xopp, hframe]
    rfl
  · rw [boundary_nib, hframe]
    exact hnib
  · rw [hbit 0 (by decide), evtBit_afterTicks_ne _ _ (by decide), hbits 0 (by decide),
      evtBit_setEvtBit_ne _ _ _ _ (by decide), evtBit_advance, hswie]
  · have hb : (advance len (boundary s)).params.baseline = true := by rw [advance_params, boundary_params, hbase]
    have hi : (advance len (boundary s)).params.int = true := by rw [advance_params, boundary_params, hint]
    rw [hbit 11 (by decide), evtBit_afterTicks_swP _ (hparams ▸ hb) (hparams ▸ hi), hbits 11 (by decide),
      evtBit_setEvtBit_swP hb hi, Bool.true_or]

/-! ### The watchdog (R321, R322) -/

/-- The tick that matches with the watchdog armed is a reset (R322). -/
theorem tick_of_fires {s : State} (ht : s.params.time = true) (h7 : s.evtBit 7 = true)
    (hm : s.timer + 1 = s.timercmp) : tick s = (coreReset s, true) := by
  rcases tick_cases s with ⟨hno, _⟩ | ⟨_, hne, _⟩ | ⟨_, _, hno, _⟩ | ⟨_, _, _, h⟩
  · exact absurd (ht.symm.trans hno) (by decide)
  · exact absurd hm hne
  · exact absurd (h7.symm.trans hno) (by decide)
  · exact h

/-- With the watchdog armed, ticks without a reset do not make the wake condition true. -/
theorem wakes_of_armed_ticks {j : Nat} {s r : State} (h7 : s.evtBit 7 = true) (hw : wakes s = false)
    (h : tickTimes j s = (r, false)) : wakes r = false := by
  have hx := tickTimes_ticksTo _ _ _ h
  have ⟨_, _, hbits, _⟩ := hx
  rw [Bool.eq_false_iff, ne_eq, wakes_iff, wakeCondition_congr hbits (.inr h7) (ticksTo_cfg hx) (ticksTo_params hx),
    ← wakes_iff, hw]
  decide

/-- A step asleep one of whose ticks fires the watchdog ends in the reset. -/
theorem sleepTicks_of_fires {k : Nat} {s : State} (hw : wakes s = false) (h : WatchdogFires k s) :
    sleepTicks k s = coreReset s := by
  rcases sleepTicks_cases k s hw with ⟨j, r, _, hreset, hs⟩ | ⟨j, r, _, hrun, _, hall, _⟩
  · rw [hs, tickTimes_reset j s r hreset]
  · have hj := hall (wakes_of_armed_ticks h.2.1 hw hrun)
    rw [hj, tickTimes_of_fires h] at hrun
    cases hrun

/-- A first tick that fires the watchdog ends a step asleep, whatever would wake the core. -/
theorem sleepTicks_of_tick_reset {k : Nat} {s r : State} (hk : 1 ≤ k) (h : tick s = (r, true)) :
    sleepTicks k s = r := by
  cases k with
  | zero => omega
  | succ k => rw [sleepTicks, h]

/-- Settles O49: the state is `coreReset`, in which every tick that fires the watchdog ends. -/
theorem watchdogResets : Obligations.WatchdogResets := by
  unfold Obligations.WatchdogResets
  intro s ht h7
  have hone (hm : s.timer + 1 = s.timercmp) : WatchdogFires 1 s := ⟨ht, h7, 1, by decide, by decide, hm⟩
  refine ⟨coreReset s, rfl, rfl, rfl, rfl, rfl, rfl, rfl, rfl, tick_of_fires ht h7, fun extra armed i hcase => ?_,
    fun extra hcycle hfires hwake => ?_⟩
  · have hfires : WatchdogFires (ticksAfter s.params extra i) s := by
      rcases hcase with ⟨hinstr, hi, hm⟩ | ⟨hcycle, hfires⟩
      · rw [ticksAfter, hinstr]
        show WatchdogFires (if i = .csrst 5 then 0 else 1) s
        rw [if_neg hi]
        exact hone hm
      · rwa [ticksAfter, hcycle]
    rw [retire, tickTimes_of_fires hfires]
  · rw [sleepStep, ticksAsleep, hcycle]
    rcases hwake with hwake | hm
    · exact sleepTicks_of_fires (Bool.eq_false_iff.mpr (mt (wakes_iff s).mp hwake)) hfires
    · obtain ⟨_, _, j, h1, h2, _⟩ := hfires
      exact sleepTicks_of_tick_reset (h1.trans h2) (tick_of_fires ht h7 hm)

/-! ### The sleep (R264, R320) -/

/-- Without the time profile the ticks asleep change nothing. -/
theorem sleepTicks_no_timer {k : Nat} {s : State} (hw : wakes s = false) (ht : s.params.time = false) :
    sleepTicks k s = s := by
  rcases sleepTicks_cases k s hw with ⟨j, r, _, hrun, _⟩ | ⟨j, r, _, hrun, hs, _, _⟩
  · rw [tickTimes_no_timer j s ht] at hrun
    cases hrun
  · rw [tickTimes_no_timer j s ht] at hrun
    cases hrun
    rw [hs, wakeIfDue, if_neg (by simp [hw])]

/-- A sleeping core that nothing wakes takes a step asleep. -/
theorem step_of_asleep {s : State} (hsleep : s.sleep = true) (hint : s.params.int = true)
    (hw : ¬ WakeCondition (pollEnv s)) :
    step s = .next (sleepStep (envInput s).extraTicks (pollEnv s)) := by
  have hb : boundary s = pollEnv s := wakeIfDue_of_not hw
  have hdue : interruptDue (boundary s) = false := by
    rw [hb]
    exact not_due_of_not_wakes _ (Bool.eq_false_iff.mpr (mt (wakes_iff _).mp hw))
  have hasleep : asleep (boundary s) = true := by
    rw [hb]
    simp [asleep, hsleep, hint]
  rw [step, stepOnce, if_neg (by simp [hdue]), if_pos hasleep, hb]

/-- Two ends of the same ticks without a reset agree on the wake condition. -/
theorem wakeCondition_of_ticksTo {k : Nat} {s t u : State} (ht : TicksTo k s t) (hu : TicksTo k s u) :
    WakeCondition u ↔ WakeCondition t := by
  have hpt := ticksTo_params ht
  have hpu := ticksTo_params hu
  have hcfg : u.cfg = t.cfg := (ticksTo_cfg hu).trans (ticksTo_cfg ht).symm
  have ⟨htick, hstill, hbits, _⟩ := ht
  have ⟨hticku, hstillu, hbitsu, _⟩ := hu
  refine wakeCondition_congr (fun b hb => (hbitsu b hb).trans (hbits b hb).symm) (.inl ?_) hcfg (hpu.trans hpt.symm)
  by_cases hpresent : s.params.baseline = true ∧ s.params.time = true
  · obtain ⟨hb, htime⟩ := hpresent
    exact Bool.eq_iff_iff.mpr (((hticku htime).2 hb).trans ((htick htime).2 hb).symm)
  · have habsent : evtPresent s.params 10 = false := by simpa [evtPresent] using hpresent
    rw [evtBit_eq_and_present, evtBit_eq_and_present, hpt, hpu, habsent, Bool.and_false, Bool.and_false]

/-- Asleep, where the watchdog does not fire: the ticks up to the first after which the wake condition holds, or
all of them, and the wake test behind them (R264, R320). -/
theorem sleepTicks_of_not_fires {extra : Nat} {p : State} (hw : ¬ WakeCondition p)
    (hdog : ¬ WatchdogFires extra p) :
    ∃ k r, k ≤ extra ∧ TicksTo k p r ∧ sleepTicks extra p = wakeIfDue r ∧ (¬ WakeCondition r → k = extra) ∧
      ∀ j u, j < k → TicksTo j p u → ¬ WakeCondition u := by
  have hw' : wakes p = false := Bool.eq_false_iff.mpr (mt (wakes_iff p).mp hw)
  rcases sleepTicks_cases extra p hw' with ⟨j, r, hj, hreset, _⟩ | ⟨k, r, hk, hrun, hs, hall, hbefore⟩
  · have hfires := (tickTimes_reset_iff j p).mp (congrArg Prod.snd hreset)
    exact absurd (watchdogFires_mono hfires hj) hdog
  · refine ⟨k, r, hk, tickTimes_ticksTo _ _ _ hrun, hs, fun hno => ?_, fun j u hj hu => ?_⟩
    · exact hall (Bool.eq_false_iff.mpr (mt (wakes_iff r).mp hno))
    · obtain ⟨v, hv⟩ := exists_tickTimes (mt (watchdogFires_mono · (hj.le.trans hk)) hdog)
      rw [wakeCondition_of_ticksTo (tickTimes_ticksTo _ _ _ hv) hu, ← wakes_iff, hbefore j hj v hv]
      decide

/-- The wake test keeps what the ticks before it have counted. -/
theorem tickedBy_wakeIfDue {k : Nat} {s r : State} (h : TickedBy k s r) : TickedBy k s (wakeIfDue r) := by
  obtain ⟨hcount, hmatch⟩ := h
  exact ⟨by rw [wakeIfDue_eq]; exact hcount, fun hb => by rw [evtBit_wakeIfDue]; exact hmatch hb⟩

/-- A step that ran `WFI`, with the watchdog off, leaves the core asleep exactly if nothing wakes it (R264). -/
theorem sleep_of_wfi {s t : State} {len : Nat} (hruns : RunsInstr s) (hfetch : Fetches s .wfi len)
    (hdog : (boundary s).evtBit 7 = false) (hstep : step s = .next t) : t.sleep = true ↔ ¬ WakeCondition t := by
  have hu := exec_wfi (advance len (boundary s))
  have hdog' : ({ advance len (boundary s) with sleep := true } : State).evtBit 7 = false := hdog
  obtain ⟨x, hrun, hret⟩ := retire_of_not_fires (extra := (envInput s).extraTicks) (i := .wfi)
    (armed := stepArmed (boundary s)) (not_watchdogFires hdog' _)
  rw [step_of_fetches hruns hfetch hu, hret] at hstep
  obtain rfl := Host.Outcome.next.inj hstep
  rw [sleep_afterTicks]
  exact and_iff_right (ticksTo_sleep (tickTimes_ticksTo _ _ _ hrun))

/-- Settles O47: asleep the step is `sleepTicks`, whose cases say which tick is the last; awake a `WFI` sets
`SLEEP`, and the wake test of its retirement decides. -/
theorem asleepNothingRetires : Obligations.AsleepNothingRetires := by
  unfold Obligations.AsleepNothingRetires
  refine ⟨?_, fun s t len => sleep_of_wfi⟩
  rintro s p rfl hsleep hint
  have hstep (hw : ¬ WakeCondition (pollEnv s)) := (step_of_asleep hsleep hint hw).trans
    (congrArg _ (by rw [sleepStep, pollEnv_params]))
  refine ⟨fun hw => if_pos ((wakes_iff _).mpr hw), fun hw hinstr => ?_, fun hw hcycle ht => ?_,
    fun extra hextra hw hcycle hdog => ?_⟩
  · rw [hstep hw, ticksAsleep, hinstr]
    exact ⟨rfl, rfl, rfl, hsleep, readByte_congr rfl⟩
  · rw [hstep hw, sleepTicks_no_timer (Bool.eq_false_iff.mpr (mt (wakes_iff _).mp hw)) ht]
  · obtain ⟨k, r, hk, hr, hs, hall, hbefore⟩ := sleepTicks_of_not_fires hw hdog
    have ⟨hticked, _, hbits, _⟩ := hr
    have hasleep : step s = .next (wakeIfDue r) := by rw [hstep hw, ticksAsleep, hcycle, ← hextra, ← hs]
    refine ⟨wakeIfDue r, k, hasleep, fun e rest he => by rw [hextra, envInput_cons he], hk, fun ht => ?_, ?_,
      hbefore, fun ht => tickedBy_wakeIfDue (hticked ht), fun b hb => ?_, ticksTo_frame hr (by rw [wakeIfDue_eq])⟩
    · obtain ⟨_, hno⟩ := (sleep_wakeIfDue r).mp ht
      exact hall (mt (wakeCondition_wakeIfDue r).mpr hno)
    · rw [sleep_wakeIfDue]
      exact and_iff_right ((ticksTo_sleep hr).trans hsleep)
    · rw [evtBit_wakeIfDue, hbits b hb]

end Sys2Proof.Machine

/-! PROOFS. The MAD Profile and the reserved encodings (R130, R131, R240, R271 to R274), with the obligations on
them. -/

namespace Sys2Proof.Machine

/-! ### Lanes, shift and sum (R271, R272) -/

/-- A lane as an unsigned number (R271). -/
theorem toNat_laneOf (lane : Bool) (v : Word) :
    (laneOf lane v).toNat = if lane then v.toNat / 256 else v.toNat % 256 := by
  have hv := v.isLt
  cases lane
  · simp [laneOf, loByte]
  · simp [laneOf, hiByte, Nat.shiftRight_eq_div_pow]
    omega

/-- The shift that the field SHIFT names (R272). -/
theorem madShift_eq (c : MadCtl) :
    madShift c = if c.shift = 0 then 0 else if c.shift = 1 then 1 else if c.shift = 2 then 2 else 4 := by
  obtain ⟨shift, sat, lane⟩ := c
  revert shift
  decide +revert

theorem exec_mad (ctl : MadCtl) (s : State) :
    exec (.mad ctl) s = .next { s with acc := BitVec.ofInt 16 (madResult ctl s), c := madCarry ctl s } := rfl

theorem exec_max (s : State) :
    exec .max s = .next { s with
      acc := if wordInt (cfgSIGN s.cfg) s.rs0 ≤ wordInt (cfgSIGN s.cfg) s.acc then s.acc else s.rs0 } := rfl

theorem exec_min (s : State) :
    exec .min s = .next { s with
      acc := if wordInt (cfgSIGN s.cfg) s.acc ≤ wordInt (cfgSIGN s.cfg) s.rs0 then s.acc else s.rs0 } := rfl

/-- The number of a word made of a natural number. -/
theorem toNat_ofInt_natCast (x : Nat) : (BitVec.ofInt 16 (x : Int)).toNat = x % 65536 := by
  rw [BitVec.ofInt_natCast, BitVec.toNat_ofNat]

/-- With `SIGN = 0` the product is that of the lanes as unsigned numbers (R272). -/
theorem madProduct_unsigned {ctl : MadCtl} {s : State} (h : s.cfg.getLsbD 2 = false) :
    madProduct ctl s = (((laneOf ctl.lane s.rs0).toNat * (laneOf ctl.lane s.rs1).toNat : Nat) : Int) := by
  rw [madProduct, cfgSIGN, h]
  exact (Nat.cast_mul _ _).symm

/-- With `SIGN = 0` the sum is that of unsigned numbers, cut to 16 bits by `wrap16First` (R272). -/
theorem madSumOf_unsigned {ctl : MadCtl} {s : State} {prod : Nat} (h : s.cfg.getLsbD 2 = false)
    (hprod : madProduct ctl s = prod) :
    madSumOf ctl s =
      ((if s.params.madSum = .exact then s.acc.toNat + prod else (s.acc.toNat + prod) % 65536 : Nat) : Int) := by
  rw [madSumOf, hprod, cfgSIGN, h]
  cases s.params.madSum
  · exact (Nat.cast_add _ _).symm
  · exact congrArg Nat.cast (toNat_ofInt_natCast (s.acc.toNat + prod))

/-- The product of two bytes is below 2^16. -/
theorem toNat_mul_toNat_lt (a b : Byte) : a.toNat * b.toNat < 65536 :=
  Nat.mul_lt_mul'' a.isLt b.isLt

/-- A natural number cut to 16 bits, or clamped to them (R272). -/
theorem toNat_ofInt_clamped (sat : Bool) (a n : Nat) :
    (BitVec.ofInt 16 (if sat then madClamp false ((a : Int) / 2 ^ n) else (a : Int) / 2 ^ n)).toNat =
      if sat then Nat.min (a / 2 ^ n) 0xFFFF else a / 2 ^ n % 65536 := by
  have hdiv : (a : Int) / 2 ^ n = ((a / 2 ^ n : Nat) : Int) := by push_cast; rfl
  rw [hdiv]
  cases sat
  · exact toNat_ofInt_natCast (a / 2 ^ n)
  · have hclamp : madClamp false ((a / 2 ^ n : Nat) : Int) = ((Nat.min (a / 2 ^ n) 0xFFFF : Nat) : Int) :=
      (Nat.cast_min _ _).symm
    rw [if_pos rfl, if_pos rfl, hclamp, toNat_ofInt_natCast]
    exact Nat.mod_eq_of_lt (Nat.lt_of_le_of_lt (Nat.min_le_right _ _) (by decide))

/-- Settles O51: the lanes, the product and the sum are natural numbers, so the shift is their division and the
clamp their minimum. -/
theorem madUnsignedResult : Obligations.MadUnsignedResult := by
  unfold Obligations.MadUnsignedResult
  intro ctl s hsign
  have hprod := madProduct_unsigned (ctl := ctl) hsign
  have hlt := toNat_mul_toNat_lt (laneOf ctl.lane s.rs0) (laneOf ctl.lane s.rs1)
  rw [toNat_laneOf, toNat_laneOf] at hprod hlt
  have hsum := madSumOf_unsigned hsign hprod
  refine ⟨_, _, _, _, exec_mad ctl s, rfl, rfl, rfl, ?_, ?_, rfl, readByte_congr rfl⟩
  · show (BitVec.ofInt 16 (madResult ctl s)).toNat = _
    rw [← madShift_eq, madResult, hsum, cfgSIGN, hsign]
    exact toNat_ofInt_clamped ctl.sat _ _
  · show madCarry ctl s = _
    rw [madCarry, hprod]
    exact decide_eq_decide.mpr (by omega)

/-! ### Signed MAD (R272) -/

/-- A lane is a byte of the register (R271). -/
theorem laneOf_eq (lane : Bool) (v : Word) : laneOf lane v = if lane then v.extractLsb' 8 8 else v.extractLsb' 0 8 := by
  cases lane <;> rfl

/-- An integer clamped to the signed range is that integer of 16 bits (R272). -/
theorem toInt_ofInt_clamped (x : Int) :
    (BitVec.ofInt 16 (madClamp true x)).toInt = if x < -32768 then -32768 else if 32767 < x then 32767 else x := by
  have hclamp : madClamp true x = if x < -32768 then -32768 else if 32767 < x then 32767 else x := by
    rw [madClamp, if_pos rfl]
    omega
  rw [hclamp, BitVec.toInt_ofInt, Int.bmod_eq_of_le] <;> split_ifs <;> omega

/-- An integer cut to 16 bits differs from itself by a multiple of 2^16. -/
theorem toInt_ofInt_sub_emod (x : Int) : ((BitVec.ofInt 16 x).toInt - x) % 65536 = 0 := by
  have hmod : (BitVec.ofInt 16 x).toInt % 65536 = x % 65536 := by
    rw [BitVec.toInt_ofInt]
    exact Int.bmod_emod
  omega

/-- Settles O52: the lanes, the product and the sum are integers; the cut to 16 bits is a balanced remainder. -/
theorem madSignedResult : Obligations.MadSignedResult := by
  unfold Obligations.MadSignedResult
  intro ctl s hsign
  have hprod : madProduct ctl s = (laneOf ctl.lane s.rs0).toInt * (laneOf ctl.lane s.rs1).toInt := by
    rw [madProduct, cfgSIGN, hsign]
    rfl
  rw [laneOf_eq, laneOf_eq] at hprod
  have hsum : madSumOf ctl s = if s.params.madSum = .exact then s.acc.toInt + madProduct ctl s
      else (s.acc.toInt + madProduct ctl s).bmod 65536 := by
    rw [madSumOf, cfgSIGN, hsign]
    cases s.params.madSum
    · rfl
    · exact BitVec.toInt_ofInt _
  rw [hprod] at hsum
  have hresult : madResult ctl s =
      if ctl.sat then madClamp true ((madSumOf ctl s).fdiv (2 ^ madShift ctl))
      else (madSumOf ctl s).fdiv (2 ^ madShift ctl) := by
    rw [madResult, cfgSIGN, hsign, Int.fdiv_eq_ediv_of_nonneg _ (by positivity)]
  rw [hsum, madShift_eq] at hresult
  refine ⟨_, _, _, _, exec_mad ctl s, rfl, rfl, rfl, fun hsat => ?_, fun hsat => ?_, ?_, rfl, readByte_congr rfl⟩
  · show (BitVec.ofInt 16 (madResult ctl s)).toInt = _
    rw [hresult, hsat]
    exact toInt_ofInt_clamped _
  · show ((BitVec.ofInt 16 (madResult ctl s)).toInt - _) % 65536 = 0
    rw [hresult, hsat]
    exact toInt_ofInt_sub_emod _
  · show madCarry ctl s = true ↔ _
    rw [madCarry, hprod, decide_eq_true_iff]

/-- Settles O53: `wordInt` is the unsigned or the signed reading, by `SIGN`. -/
theorem maxMinResult : Obligations.MaxMinResult := by
  unfold Obligations.MaxMinResult
  refine fun s => ⟨_, _, exec_max s, exec_min s, fun h => ?_, fun h => ?_, rfl, rfl, readByte_congr rfl,
    readByte_congr rfl⟩
  · have hword (w : Word) : wordInt (cfgSIGN s.cfg) w = w.toNat := by rw [cfgSIGN, h]; rfl
    simp only [hword, Nat.cast_le]
    constructor
    · split
      · exact (Nat.max_eq_left ‹_›).symm
      · exact (Nat.max_eq_right (by omega)).symm
    · split
      · exact (Nat.min_eq_left ‹_›).symm
      · exact (Nat.min_eq_right (by omega)).symm
  · have hword (w : Word) : wordInt (cfgSIGN s.cfg) w = w.toInt := by rw [cfgSIGN, h]; rfl
    simp only [hword]
    constructor
    · split
      · exact (max_eq_left ‹_›).symm
      · exact (max_eq_right (by omega)).symm
    · split
      · exact (min_eq_left ‹_›).symm
      · exact (min_eq_right (by omega)).symm

/-! ### Reserved encodings (R130, R131, R240) -/

/-- The position before the nibbles just fetched is the position they were fetched from (R131, R240). -/
theorem positionBack_advance (k : Nat) (s : State) : positionBack k (advance k s) = (s.pc, s.nib) := by
  have hnib : (nibbleIndex s k % 2 == 1).toNat = (s.nib.toNat + k) % 2 := toNat_odd _
  have hle : s.nib.toNat ≤ 1 := Bool.toNat_le s.nib
  rw [positionBack, advance_pc, advance_nib, hnib]
  refine Prod.ext ?_ ?_
  · have hhalf : (k + 1 - (s.nib.toNat + k) % 2) / 2 = (s.nib.toNat + k) / 2 := by omega
    rw [hhalf]
    exact BitVec.add_sub_cancel _ _
  · have hback : ((s.nib.toNat + k) % 2 + k) % 2 = s.nib.toNat := by omega
    rw [hback]
    cases s.nib <;> rfl

/-- The modes of 16 bits are those with bit 1 of `CFG` set (R9, R40). -/
theorem modeIsWide_eq (cfg : Byte) : modeIsWide (linkMode cfg) = cfg.getLsbD 1 := by
  have hbit : cfg.getLsbD 1 = (cfg.extractLsb' 0 2).getLsbD 1 := by simp
  rw [hbit, linkMode]
  generalize cfg.extractLsb' 0 2 = w
  revert w
  decide

/-- The nibbles of an instruction decode to it exactly where it is well-formed (R115, R122, R123). -/
theorem decode_encode_iff_wf (p : Params) (cfg : Byte) {i : Instr} (hi : i ≠ .xop) (rest : List Nibble) :
    decode p cfg false (encode p i ++ rest) = .ok (i, rest) ↔ i.wf p cfg = true :=
  ⟨fun h => (encodeOfDecode p cfg i _ rest h).2, fun h => decodeOfEncode p cfg i rest h fun hx => absurd hx hi⟩

/-- A shared extended opcode is reserved exactly on a core with neither profile (R123, R130). -/
theorem wf_rsv_shared_iff (p : Params) (cfg : Byte) (o : ProfileOpcode) :
    Instr.wf p cfg (.rsv (.shared o)) = true ↔ p.int = false ∧ p.mad = false := by
  simp [Instr.wf, rsvColumn, and_comm]

/-- Opcode `0110` is absent exactly in the modes of 16 bits without the CSR instructions (R122, R240). -/
theorem wf_csrAbsent_iff (p : Params) (cfg : Byte) (extended : Bool) :
    Instr.wf p cfg (.csrAbsent extended) = true ↔ cfg.getLsbD 1 = true ∧ p.hasCsr = false := by
  simp [Instr.wf, modeIsWide_eq]

/-- Settles O54: the nibbles of a reserved instruction decode to it exactly where it is well-formed; each stop
counts back over its own nibbles. -/
theorem reservedEncodingsStop : Obligations.ReservedEncodingsStop := by
  unfold Obligations.ReservedEncodingsStop
  refine ⟨fun p cfg rest => ?_, fun s => ⟨fun o => ?_, ?_, ?_⟩⟩
  · have hdecode {i : Instr} (hi : i ≠ .xop) := decode_encode_iff_wf p cfg hi rest
    exact ⟨(hdecode (i := .rsv .op4) nofun).mpr rfl,
      (hdecode (i := .rsv (.shared .opC)) nofun).trans (wf_rsv_shared_iff p cfg _),
      (hdecode (i := .rsv (.shared .op8)) nofun).trans (wf_rsv_shared_iff p cfg _),
      (hdecode (i := .rsv (.shared .op0)) nofun).trans (wf_rsv_shared_iff p cfg _),
      (hdecode (i := .csrAbsent false) nofun).trans (wf_csrAbsent_iff p cfg _),
      (hdecode (i := .csrAbsent true) nofun).trans (wf_csrAbsent_iff p cfg _)⟩
  · rw [exec, execRsv, positionBack_advance]
  · rw [exec, execCsrAbsent]
    simp only [Bool.false_eq_true, if_false, positionBack_advance]
  · rw [exec, execCsrAbsent]
    simp only [if_true, positionBack_advance]

end Sys2Proof.Machine
